-- ==== Sys2Proof/Word.lean ====
section
/-! DEFINITION. The word types of the block: plain bit vectors of the widths the spec names. -/

namespace Sys2Proof

/-- A 32-bit CSR value or command word (10_state.md R34, 30_encoding.md R100). -/
abbrev Word := BitVec 32

/-- A 16-bit memory cell: an image word, a RAWMEM, GEOMEM or FLAGMEM cell (40_ecc.md R130, 20_memory.md R70). -/
abbrev Half := BitVec 16

/-- A CALMEM cell (20_memory.md R70). -/
abbrev Byte := BitVec 8

/-- The 11 data bits of an image word (40_ecc.md R130). -/
abbrev Payload := BitVec 11

/-- A binary32 value as its 32-bit pattern, `bits32` (00_scope.md R15). -/
abbrev F32 := BitVec 32

end Sys2Proof
end

