-- ==== Sys2Proof/Config.lean ====
section
/-! DEFINITION. The static configuration record `cfg` of an instance (00_scope.md R9 to R11) and the free values:
constants without a body, of which nothing can be evaluated or proved. The records VA, VB, VC, VT and VT+F are in
Machine/Variants.lean. -/

namespace Sys2Proof

/-- The pixel-to-subpage assignment scheme, one bit: `INTERLEAVED = 0`, `CHESS = 1` (42_geometry.md R221). -/
inductive AccessPattern where
  | interleaved
  | chess
  deriving DecidableEq, Repr

/-- The configuration record, field by field as 00_scope.md R10 lists it.
`RESCORR`, a function of two 2-bit codes, is held as its table of sixteen values, entry `4 * cal + cur`, so that the
record is plain data. `CP_ADDR` and `NSUB` are held as one field per index. The table gives `BTR` and `OUTLIER_LIM` no lower bound; that they are
natural numbers here, so that no record has a negative one, is the model's choice (log 20). -/
structure Cfg where
  /-- `VARIANT`: 0 = VA, 1 = VB, 2 = VC. -/
  variant : Fin 3
  height : Nat
  width : Nat
  /-- `NPIX`, checked against `HEIGHT * WIDTH` by `Cfg.wf`. -/
  npix : Nat
  taVbeAddr : Half
  taPtatAddr : Half
  gainAddr : Half
  vddPixAddr : Half
  cpAddr0 : Half
  cpAddr1 : Half
  rescorrTable : Vector F32 16
  selfHeating : F32
  /-- `BTR`, not negative (log 20). -/
  btr : Nat
  eccFallback : Bool
  nsubInterleaved : Nat
  nsubChess : Nat
  calBase : Half
  calWords : Nat
  pixBase : Half
  statusAddr : Half
  /-- `OUTLIER_LIM`, not negative (log 20). -/
  outlierLim : Nat
  deriving DecidableEq, Repr

namespace Cfg

/-- `CAL_BYTES = 2 * CAL_WORDS` (00_scope.md R11). -/
def calBytes (c : Cfg) : Nat := 2 * c.calWords

/-- `NSUB[ap]` (00_scope.md R10). -/
def nsub (c : Cfg) : AccessPattern → Nat
  | .interleaved => c.nsubInterleaved
  | .chess => c.nsubChess

/-- `CP_ADDR[sp]` (00_scope.md R10, 42_geometry.md R237). -/
def cpAddr (c : Cfg) (sp : Nat) : Half := if sp = 0 then c.cpAddr0 else c.cpAddr1

/-- What is checked at configuration time (00_scope.md R10, R11): the ranges the field table gives, `NPIX = HEIGHT * WIDTH`,
`CAL_WORDS = 64 + 4 * NPIX` and `BTR ≤ 7`. -/
abbrev wf (c : Cfg) : Prop :=
  1 ≤ c.height ∧ 1 ≤ c.width ∧ c.npix = c.height * c.width ∧ c.npix ≤ 16320 ∧
  c.calWords = 64 + 4 * c.npix ∧ c.btr ≤ 7 ∧
  (c.nsubInterleaved = 1 ∨ c.nsubInterleaved = 2) ∧ (c.nsubChess = 1 ∨ c.nsubChess = 2)

end Cfg

/-- A record that passed the check at configuration time (00_scope.md R11): the only kind an instance can have. -/
structure CheckedCfg where
  record : Cfg
  ok : record.wf
  deriving DecidableEq, Repr

/-- The five binary32 operations of 43_convert.md R252 that can produce a NaN. -/
inductive FloatOp where
  | add
  | sub
  | mul
  | div
  | sqrt
  deriving DecidableEq, Repr

/-- FREE VALUE (93_implementation_defined.md U3, log 11): the sign (bit 22) and the low 22 fraction bits of the quiet NaN
that an operation gives on its operands. `sqrt` is applied with its one operand in both places. -/
opaque Config.nanBits : FloatOp → F32 → F32 → BitVec 23

/-- FREE VALUE (93_implementation_defined.md U12, log 7): what OUTMEM cell `i` holds after the `e`-th hardware reset until a
command writes it. -/
opaque Config.unwrittenOut : Nat → Nat → Word

/-- FREE VALUE (93_implementation_defined.md U12, log 7): what GEOMEM cell `i` holds after the `e`-th hardware reset until a
command writes it. -/
opaque Config.unwrittenGeo : Nat → Nat → Half

end Sys2Proof
end

