-- ==== Sys2Proof/Syntax.lean ====
section
/-! DEFINITION. The commands: one constructor per row of spec/opcode_table.json, with the fields of `CMD32` the command
uses (30_encoding.md R101, R103, R106). Fields a command ignores (R102) are not part of it. -/

namespace Sys2Proof

/-- A command of the block. `ap` is bit 8, `sp` bit 9, `res` bits 11:10 and `idx`/`tag` bits 31:16 of `CMD`. -/
inductive Instr where
  /-- SYS.NOP (44_system.md R301). -/
  | sysNop
  /-- ECC.DEC with its word tag (40_ecc.md R136). -/
  | eccDec (tag : Half)
  /-- ECC.ENC (40_ecc.md R141). -/
  | eccEnc
  /-- CAL.LOAD (41_calibration.md R160). -/
  | calLoad
  /-- GEO.CONST with its selector; `ap` is used by selector 17 only (42_geometry.md R222). -/
  | geoConst (idx : Half) (ap : AccessPattern)
  /-- GEO.MEMBER (42_geometry.md R227). -/
  | geoMember (sp : BitVec 1) (ap : AccessPattern)
  /-- GEO.RANGES (42_geometry.md R233). -/
  | geoRanges (sp : BitVec 1) (ap : AccessPattern)
  /-- GEO.RESCORR (42_geometry.md R238). -/
  | geoRescorr
  /-- CVT.SUBPAGE with the access pattern and the current resolution code (43_convert.md R255). -/
  | cvtSubpage (ap : AccessPattern) (res : BitVec 2)
  /-- SYS.RESET (44_system.md R302). -/
  | sysReset
  deriving DecidableEq, Repr

end Sys2Proof
end

