-- ==== Sys2Proof/WellFormed.lean ====
section
/-! DEFINITION. Well-formed commands. The types of the fields already hold every width; the one value the spec calls illegal
in a listed command is a GEO.CONST selector outside the table (30_encoding.md R105). An ill-formed command still runs: it
raises `IllegalCommand`. -/

namespace Sys2Proof

/-- "GEO.CONST with an IDX not in the table ... raises IllegalCommand. No other field value makes a listed opcode illegal"
(30_encoding.md R105). -/
def Instr.wf : Instr → Bool
  | .sysNop => true
  | .eccDec _ => true
  | .eccEnc => true
  | .calLoad => true
  | .geoConst idx _ => decide (idx.toNat ≤ 17)
  | .geoMember _ _ => true
  | .geoRanges _ _ => true
  | .geoRescorr => true
  | .cvtSubpage _ _ => true
  | .sysReset => true

end Sys2Proof
end

