-- ==== Sys2Proof/Decode.lean ====
section
/-! DEFINITION. The decoder, total on every 32-bit value and rejecting by name, and the encoder, both from the field table
30_encoding.md R101 and the opcode table R103. -/

namespace Sys2Proof

/-- Why a `CMD` value is no command (30_encoding.md R104). Both raise `IllegalCommand`. -/
inductive Illegal where
  /-- `Z`, bits 15:12, is not 0. -/
  | reservedBits
  /-- `OPC` is none of the ten of 30_encoding.md R103. -/
  | unlistedOpcode
  deriving DecidableEq, Repr

/-- `OPC`, bits 7:0 (30_encoding.md R101). -/
def cmdOpc (w : Word) : Byte := w.extractLsb' 0 8

/-- `AP`, bit 8: 0 = INTERLEAVED, 1 = CHESS (30_encoding.md R101). -/
def cmdAp (w : Word) : AccessPattern := if w.getLsbD 8 then .chess else .interleaved

/-- `SP`, bit 9 (30_encoding.md R101). -/
def cmdSp (w : Word) : BitVec 1 := w.extractLsb' 9 1

/-- `RES`, bits 11:10 (30_encoding.md R101). -/
def cmdRes (w : Word) : BitVec 2 := w.extractLsb' 10 2

/-- `Z`, bits 15:12 (30_encoding.md R101). -/
def cmdZ (w : Word) : BitVec 4 := w.extractLsb' 12 4

/-- `IDX`, bits 31:16 (30_encoding.md R101). -/
def cmdIdx (w : Word) : Half := w.extractLsb' 16 16

/-- The command a value written to `CMD` starts (30_encoding.md R102 to R104). -/
def decode (w : Word) : Except Illegal Instr :=
  if cmdZ w ≠ 0#4 then .error .reservedBits
  else if cmdOpc w = 0x00#8 then .ok .sysNop
  else if cmdOpc w = 0x01#8 then .ok (.eccDec (cmdIdx w))
  else if cmdOpc w = 0x02#8 then .ok .eccEnc
  else if cmdOpc w = 0x10#8 then .ok .calLoad
  else if cmdOpc w = 0x20#8 then .ok (.geoConst (cmdIdx w) (cmdAp w))
  else if cmdOpc w = 0x21#8 then .ok (.geoMember (cmdSp w) (cmdAp w))
  else if cmdOpc w = 0x22#8 then .ok (.geoRanges (cmdSp w) (cmdAp w))
  else if cmdOpc w = 0x23#8 then .ok .geoRescorr
  else if cmdOpc w = 0x30#8 then .ok (.cvtSubpage (cmdAp w) (cmdRes w))
  else if cmdOpc w = 0x7F#8 then .ok .sysReset
  else .error .unlistedOpcode

/-- The instruction the decoder reads from a row's bits, numbered as the opcode table numbers them: a command is one 32-bit
value, so the bits above `nbits` are 0 and the rest is the value written to `CMD`. -/
def decodeTableWord (nbits w : Nat) : Option Instr :=
  match decode (BitVec.ofNat 32 (w % 2 ^ nbits)) with
  | .ok i => some i
  | .error _ => none

/-- The bit `AP` of a pattern (30_encoding.md R101). -/
def apBit : AccessPattern → BitVec 1
  | .interleaved => 0#1
  | .chess => 1#1

/-- A command word from its fields, most significant first: `IDX`, `Z = 0`, `RES`, `SP`, `AP`, `OPC` (30_encoding.md R101). -/
def cmdWord (idx : Half) (res : BitVec 2) (sp : BitVec 1) (ap : BitVec 1) (opc : Byte) : Word :=
  idx ++ 0#4 ++ res ++ sp ++ ap ++ opc

/-- The word of a command, every field it ignores written as 0 (30_encoding.md R101, R103, R109). -/
def encode : Instr → Word
  | .sysNop => cmdWord 0#16 0#2 0#1 0#1 0x00#8
  | .eccDec tag => cmdWord tag 0#2 0#1 0#1 0x01#8
  | .eccEnc => cmdWord 0#16 0#2 0#1 0#1 0x02#8
  | .calLoad => cmdWord 0#16 0#2 0#1 0#1 0x10#8
  | .geoConst idx ap => cmdWord idx 0#2 0#1 (apBit ap) 0x20#8
  | .geoMember sp ap => cmdWord 0#16 0#2 sp (apBit ap) 0x21#8
  | .geoRanges sp ap => cmdWord 0#16 0#2 sp (apBit ap) 0x22#8
  | .geoRescorr => cmdWord 0#16 0#2 0#1 0#1 0x23#8
  | .cvtSubpage ap res => cmdWord 0#16 res 0#1 (apBit ap) 0x30#8
  | .sysReset => cmdWord 0#16 0#2 0#1 0#1 0x7F#8

/-- `OPC` of the row of each command (30_encoding.md R103). -/
def Instr.opcode : Instr → Byte
  | .sysNop => 0x00#8
  | .eccDec _ => 0x01#8
  | .eccEnc => 0x02#8
  | .calLoad => 0x10#8
  | .geoConst _ _ => 0x20#8
  | .geoMember _ _ => 0x21#8
  | .geoRanges _ _ => 0x22#8
  | .geoRescorr => 0x23#8
  | .cvtSubpage _ _ => 0x30#8
  | .sysReset => 0x7F#8

/-- The bits of `CMD` a command's decoding depends on: `Z` and `OPC`, which select it, and the fields it uses (30_encoding.md R102,
R106). -/
def Instr.usedBits : Instr → Word
  | .sysNop => 0x0000F0FF#32
  | .eccDec _ => 0xFFFFF0FF#32
  | .eccEnc => 0x0000F0FF#32
  | .calLoad => 0x0000F0FF#32
  | .geoConst _ _ => 0xFFFFF1FF#32
  | .geoMember _ _ => 0x0000F3FF#32
  | .geoRanges _ _ => 0x0000F3FF#32
  | .geoRescorr => 0x0000F0FF#32
  | .cvtSubpage _ _ => 0x0000FDFF#32
  | .sysReset => 0x0000F0FF#32

end Sys2Proof
end

