-- ==== Sys2Proof/Machine/Binary32.lean ====
section
/-! DEFINITION. IEEE 754 binary32 on 32-bit patterns (00_scope.md R15, 43_convert.md R251 to R253): each operation computes the exact
result as an integer times a power of two and rounds it once, to nearest with ties to even. Subnormals are kept. The pattern of a
NaN result is a free value among the quiet NaNs (log 11); the signs of exact zeros are IEEE 754's (log 15). The spec lets a model take the
operations as arguments, with these as the default (R252, 92_eei_decisions.md, last paragraph); that the model has the default only is its
choice (log 21). -/

namespace Sys2Proof.Machine

/-- What a pattern stands for: `fin neg m e` is `(-1)^neg * m * 2^e`; both zeros have `m = 0`. -/
inductive F32Val where
  | nan
  | inf (neg : Bool)
  | fin (neg : Bool) (m : Nat) (e : Int)
  deriving DecidableEq, Repr

/-- The value of a pattern: sign bit 31, exponent 30:23, fraction 22:0. -/
def f32Val (a : F32) : F32Val :=
  let ex := (a.extractLsb' 23 8).toNat
  let fr := (a.extractLsb' 0 23).toNat
  if ex = 255 then (if fr = 0 then .inf (a.getLsbD 31) else .nan)
  else if ex = 0 then .fin (a.getLsbD 31) fr (-149)
  else .fin (a.getLsbD 31) (2 ^ 23 + fr) (Int.ofNat ex - 150)

/-- `isNaN(a)` (00_scope.md R15). -/
def f32IsNaN (a : F32) : Bool := a.extractLsb' 23 8 = 255#8 ∧ a.extractLsb' 0 23 ≠ 0#23

/-- The pattern with the given sign and the given bits 30:0. -/
def f32Pack (neg : Bool) (mag : Nat) : F32 := BitVec.ofNat 32 ((if neg then 2 ^ 31 else 0) + mag)

/-- Bits 30:0 of an infinity. -/
def f32InfMag : Nat := 0x7F800000

/-- `m / 2^k` rounded to nearest, ties to even, for `k ≥ 1`. -/
def rneShift (m k : Nat) : Nat :=
  let d := m / 2 ^ k
  let r := 2 * (m % 2 ^ k)
  if 2 ^ k < r ∨ (r = 2 ^ k ∧ d % 2 = 1) then d + 1 else d

/-- The pattern of `(-1)^neg * m * 2^e` rounded once (00_scope.md R15). The unit of the last place is `2^q`: 23 places below the leading
bit, but never below that of the subnormals, `2^(-149)`. A rounded magnitude past the largest finite one is an infinity. -/
def f32Round (neg : Bool) (m : Nat) (e : Int) : F32 :=
  if m = 0 then f32Pack neg 0
  else
    let q := max (Int.ofNat m.log2 + e - 23) (-149)
    let n := if q ≤ e then m * 2 ^ (e - q).toNat else rneShift m (q - e).toNat
    f32Pack neg (min ((q + 149).toNat * 2 ^ 23 + n) f32InfMag)

/-- A quiet NaN with the given sign (bit 22) and low fraction bits. -/
def quietNaN (x : BitVec 23) : F32 := x.extractLsb' 22 1 ++ 255#8 ++ 1#1 ++ x.extractLsb' 0 22

/-- The NaN an operation gives on its operands: any quiet NaN (93_implementation_defined.md U3). -/
def nanOf (op : FloatOp) (a b : F32) : F32 := quietNaN (Config.nanBits op a b)

/-- The sum of two values, or nothing when it is a NaN. An exact zero sum is negative only when both terms are negative zeros. -/
def addVal : F32Val → F32Val → Option F32
  | .nan, _ => none
  | _, .nan => none
  | .inf s, .inf t => if s = t then some (f32Pack s f32InfMag) else none
  | .inf s, .fin _ _ _ => some (f32Pack s f32InfMag)
  | .fin _ _ _, .inf t => some (f32Pack t f32InfMag)
  | .fin s m e, .fin t n f =>
    let g := min e f
    let x : Int := Int.ofNat (m * 2 ^ (e - g).toNat)
    let y : Int := Int.ofNat (n * 2 ^ (f - g).toNat)
    let z := (if s then -x else x) + (if t then -y else y)
    if z = 0 then some (f32Pack (s && t) 0)
    else some (f32Round (decide (z < 0)) z.natAbs g)

/-- The value with the opposite sign. -/
def negVal : F32Val → F32Val
  | .nan => .nan
  | .inf s => .inf (!s)
  | .fin s m e => .fin (!s) m e

/-- The product of two values, or nothing when it is a NaN. -/
def mulVal : F32Val → F32Val → Option F32
  | .nan, _ => none
  | _, .nan => none
  | .inf s, .inf t => some (f32Pack (s ^^ t) f32InfMag)
  | .inf s, .fin t n _ => if n = 0 then none else some (f32Pack (s ^^ t) f32InfMag)
  | .fin s m _, .inf t => if m = 0 then none else some (f32Pack (s ^^ t) f32InfMag)
  | .fin s m e, .fin t n f => some (f32Round (s ^^ t) (m * n) (e + f))

/-- The quotient of two values, or nothing when it is a NaN: `x / 0` is an infinity for `x ≠ 0` (43_convert.md R253). The finite
quotient is taken to 26 bits or more, with one bit below that says whether anything was left. -/
def divVal : F32Val → F32Val → Option F32
  | .nan, _ => none
  | _, .nan => none
  | .inf _, .inf _ => none
  | .inf s, .fin t _ _ => some (f32Pack (s ^^ t) f32InfMag)
  | .fin s _ _, .inf t => some (f32Pack (s ^^ t) 0)
  | .fin s m e, .fin t n f =>
    if n = 0 then (if m = 0 then none else some (f32Pack (s ^^ t) f32InfMag))
    else
      let num := m * 2 ^ 50
      some (f32Round (s ^^ t) (2 * (num / n) + (if num % n = 0 then 0 else 1)) (e - f - 51))

/-- The largest `r` whose square is at most `n`, found bit by bit from bit `k - 1` down, on top of `r`. -/
def isqrtFrom : Nat → Nat → Nat → Nat
  | 0, _, r => r
  | k + 1, n, r => if (r + 2 ^ k) * (r + 2 ^ k) ≤ n then isqrtFrom k n (r + 2 ^ k) else isqrtFrom k n r

/-- The square root of a value, or nothing when it is a NaN: of a negative number it is a NaN (43_convert.md R253), of a zero that zero. The
radicand is scaled to an even exponent and 54 bits or more, and one bit below the root says whether it is exact. -/
def sqrtVal : F32Val → Option F32
  | .nan => none
  | .inf s => if s then none else some (f32Pack false f32InfMag)
  | .fin s m e =>
    if m = 0 then some (f32Pack s 0)
    else if s then none
    else
      let k : Nat := if e % 2 = 0 then 54 else 55
      let n := m * 2 ^ k
      let r := isqrtFrom 40 n 0
      some (f32Round false (2 * r + (if r * r = n then 0 else 1)) ((e - Int.ofNat k) / 2 - 1))

/-- `a ⊕ b` (00_scope.md R15), fixed to the default of 43_convert.md R252 as all five operations and the conversion are (log 21). -/
def f32Add (a b : F32) : F32 := (addVal (f32Val a) (f32Val b)).getD (nanOf .add a b)

/-- `a ⊖ b` (00_scope.md R15). -/
def f32Sub (a b : F32) : F32 := (addVal (f32Val a) (negVal (f32Val b))).getD (nanOf .sub a b)

/-- `a ⊗ b` (00_scope.md R15). -/
def f32Mul (a b : F32) : F32 := (mulVal (f32Val a) (f32Val b)).getD (nanOf .mul a b)

/-- `a ⊘ b` (00_scope.md R15). -/
def f32Div (a b : F32) : F32 := (divVal (f32Val a) (f32Val b)).getD (nanOf .div a b)

/-- `sqrt32(a)` (00_scope.md R15). -/
def f32Sqrt (a : F32) : F32 := (sqrtVal (f32Val a)).getD (nanOf .sqrt a a)

/-- `root4(a) = sqrt32(sqrt32(a))` (00_scope.md R15). -/
def f32Root4 (a : F32) : F32 := f32Sqrt (f32Sqrt a)

/-- `f32(n)` (00_scope.md R15). -/
def f32OfInt (n : Int) : F32 := f32Round (decide (n < 0)) n.natAbs 0

/-- `pow2(k)`, exact for `-126 ≤ k ≤ 127` (00_scope.md R15). -/
def pow2 (k : Int) : F32 := f32Round false 1 k

/-- The order of the patterns that are no NaN, as integers: sign and magnitude, the two zeros equal. -/
def f32Key (a : F32) : Int :=
  if a.getLsbD 31 then -Int.ofNat (a.extractLsb' 0 31).toNat else Int.ofNat (a.extractLsb' 0 31).toNat

/-- `a ≥ b` in binary32, "false when ... a NaN" (43_convert.md R272). -/
def f32Ge (a b : F32) : Bool := !f32IsNaN a && !f32IsNaN b && decide (f32Key b ≤ f32Key a)

/-- `a < b` in binary32, false when either is a NaN. -/
def f32Lt (a b : F32) : Bool := !f32IsNaN a && !f32IsNaN b && decide (f32Key a < f32Key b)

/-- The constants of the pipeline (43_convert.md R254). -/
def f32One : F32 := 0x3F800000#32

/-- The reference ambient temperature, 25 (43_convert.md R254). -/
def f32TwentyFive : F32 := 0x41C80000#32

/-- Celsius to kelvin, 273.15 (43_convert.md R254). -/
def f32Kelvin : F32 := 0x43889333#32

/-- `pow2(18)` (43_convert.md R254). -/
def f32Pow18 : F32 := 0x48800000#32

/-- The default emissivity, 0.95 (43_convert.md R254, R274). -/
def f32DefaultEmis : F32 := 0x3F733333#32

/-- What a failed pixel's cell receives (43_convert.md R286). -/
def failedSentinel : F32 := 0x7FC00000#32

end Sys2Proof.Machine
end

