-- ==== Sys2Proof/Machine/Variants.lean ====
section
/-! DEFINITION. The configuration records the spec fixes: VA, VB, VC (00_scope.md R12) and the test records VT and VT+F (R13), and the
check every record passes at configuration time (R11). -/

namespace Sys2Proof

/-- The table of `RESCORR(cal, cur) = pow2(cal - cur)`, row `cal`, column `cur` (42_geometry.md R238: 0.125 = 0x3E000000 up to
8.0 = 0x41000000). -/
def Cfg.pow2Rescorr : Vector F32 16 :=
  #v[0x3F800000#32, 0x3F000000#32, 0x3E800000#32, 0x3E000000#32,
     0x40000000#32, 0x3F800000#32, 0x3F000000#32, 0x3E800000#32,
     0x40800000#32, 0x40000000#32, 0x3F800000#32, 0x3F000000#32,
     0x41000000#32, 0x40800000#32, 0x40000000#32, 0x3F800000#32]

/-- The primary checksum-bearing variant (00_scope.md R12, column `VA`). -/
def Cfg.VA : Cfg where
  variant := 0
  height := 12
  width := 16
  npix := 192
  taVbeAddr := 0x0580#16
  taPtatAddr := 0x05A0#16
  gainAddr := 0x058A#16
  vddPixAddr := 0x05AA#16
  cpAddr0 := 0x0588#16
  cpAddr1 := 0x05A8#16
  rescorrTable := Cfg.pow2Rescorr
  selfHeating := 0x40A00000#32
  btr := 2
  eccFallback := false
  nsubInterleaved := 2
  nsubChess := 2
  calBase := 0x2400#16
  calWords := 832
  pixBase := 0x0400#16
  statusAddr := 0x8000#16
  outlierLim := 1000

/-- The sibling variant: `VA` with `VARIANT = 1` and `ECC_FALLBACK = true` "and nothing else changed" (00_scope.md R12). -/
def Cfg.VB : Cfg := { Cfg.VA with variant := 1, eccFallback := true }

/-- The third variant (00_scope.md R12, column `VC`). -/
def Cfg.VC : Cfg where
  variant := 2
  height := 24
  width := 32
  npix := 768
  taVbeAddr := 0x0700#16
  taPtatAddr := 0x0720#16
  gainAddr := 0x070A#16
  vddPixAddr := 0x072A#16
  cpAddr0 := 0x0708#16
  cpAddr1 := 0x0728#16
  rescorrTable := Cfg.pow2Rescorr
  selfHeating := 0x41000000#32
  btr := 1
  eccFallback := false
  nsubInterleaved := 2
  nsubChess := 2
  calBase := 0x2400#16
  calWords := 3136
  pixBase := 0x0400#16
  statusAddr := 0x8000#16
  outlierLim := 1000

/-- The small record of the test vectors, "the remaining addresses as `VC`" (00_scope.md R13). -/
def Cfg.VT : Cfg := { Cfg.VC with height := 2, width := 4, npix := 8, calWords := 96 }

/-- `VT` with `ECC_FALLBACK = true`, written `VT+F` (00_scope.md R13). -/
def Cfg.VTF : Cfg := { Cfg.VT with eccFallback := true }

/-- The check at configuration time (00_scope.md R11): a record that fails it makes no instance. -/
def Cfg.check (c : Cfg) : Option CheckedCfg := if h : c.wf then some ⟨c, h⟩ else none

/-- `VA`, checked. -/
def CheckedCfg.VA : CheckedCfg := ⟨Cfg.VA, by decide⟩

/-- `VB`, checked. -/
def CheckedCfg.VB : CheckedCfg := ⟨Cfg.VB, by decide⟩

/-- `VC`, checked. -/
def CheckedCfg.VC : CheckedCfg := ⟨Cfg.VC, by decide⟩

/-- `VT`, checked. -/
def CheckedCfg.VT : CheckedCfg := ⟨Cfg.VT, by decide⟩

/-- `VT+F`, checked. -/
def CheckedCfg.VTF : CheckedCfg := ⟨Cfg.VTF, by decide⟩

end Sys2Proof
end

