-- ==== Sys2Proof/Machine/State.lean ====
section
/-! DEFINITION. Everything the spec gives the machine (10_state.md R30), as plain data, and the state after reset.
The record `cfg` is no state (00_scope.md R9, R22) but the static argument the spec gives every model: it is carried in State, checked as
R11 asks, and no step writes it (log 1). `inbox`, `reply` and `epoch` are the model's own (logs 3, 5, 7). -/

namespace Sys2Proof.Machine

/-- The buffers of 20_memory.md R70. -/
inductive Space where
  | calMem
  | rawMem
  | outMem
  | geoMem
  | flagMem
  deriving DecidableEq, Repr

/-- How a step can have no result. No instruction ends here on every path. -/
inductive Fault where
  /-- A command's rule reads a CALMEM or RAWMEM cell that nothing has written since reset: raised by CAL.LOAD and CVT.SUBPAGE
  (20_memory.md R78, 70_reset_and_hazards.md R357). Safe: the hardware goes on with whatever the cell holds. -/
  | unwrittenCell (space : Space) (index : Nat)
  /-- The host accesses a buffer cell at or beyond the buffer's size (20_memory.md R70), which the spec gives no effect:
  raised by the host's accesses, by no command (log 9). Safe. -/
  | noSuchCell (space : Space) (index : Nat)
  deriving DecidableEq, Repr

/-- Reasons to refuse. No command is refused. -/
inductive Refusal where
  /-- An instruction without a meaning yet: raised by `exec`'s arm of that instruction only; there is none. Safe. -/
  | notModelled (mnemonic : String)
  deriving DecidableEq, Repr

/-- One access of the host, or the reset input: what acts on the block from outside (10_state.md R34, 20_memory.md R70,
70_reset_and_hazards.md R340). -/
inductive HostAction where
  /-- A write of CSR number `n`; a write of number 0 (`CMD`) starts a command (10_state.md R34, R36). -/
  | writeCsr (n : Nat) (v : Word)
  /-- A read of CSR number `n`. -/
  | readCsr (n : Nat)
  /-- A write of a CALMEM cell. -/
  | writeCal (i : Nat) (b : Byte)
  /-- A write of a RAWMEM cell. -/
  | writeRaw (i : Nat) (h : Half)
  /-- A read of an OUTMEM cell. -/
  | readOut (i : Nat)
  /-- A read of a GEOMEM cell. -/
  | readGeo (i : Nat)
  /-- A read of a FLAGMEM cell. -/
  | readFlag (i : Nat)
  /-- The hardware reset, also what a loss of power leaves (60_exceptions.md R333). -/
  | hardReset
  deriving DecidableEq, Repr

/-- What the last host read returned. -/
inductive Reply where
  /-- No host read yet. -/
  | idle
  /-- The value read, 16-bit cells zero-extended. -/
  | data (v : Word)
  /-- "the interface returns an error response and no data" (20_memory.md R76). -/
  | refused
  deriving DecidableEq, Repr

/-- The entries of the per-pixel arrays of `CALSET` at one pixel (10_state.md R49). -/
structure PixelCal where
  /-- `OFFSET[0][p]`. -/
  offset0 : F32
  /-- `OFFSET[1][p]`. -/
  offset1 : F32
  /-- `ALPHA[p]`. -/
  alpha : F32
  /-- `KV[p]`. -/
  kv : F32
  /-- `KTA[p]`. -/
  kta : F32
  /-- `FAILED[p]`. -/
  failed : Bool
  /-- `OUTLIER[p]`. -/
  outlier : Bool
  deriving DecidableEq, Repr

/-- The CalibrationSet: the scalar fields of 10_state.md R48 and the arrays of R49. The per-pixel arrays are one list of
records, entry `p` for pixel `p`. -/
structure CalSet where
  resCal : BitVec 2
  vdd25 : F32
  kvdd : F32
  vPtat25 : F32
  ktPtat : F32
  kvPtat : F32
  alphaPtat : F32
  gain : F32
  ksta : F32
  /-- `EMIS`, absent when its payload is 0x000 (41_calibration.md R186). -/
  emis : Option F32
  /-- `TGC`, not defined when its payload is 0x000 (41_calibration.md R186). -/
  tgc : Option F32
  ng : Nat
  nct : Nat
  /-- `CT[0 .. NCT-1]`. -/
  ct : List F32
  /-- `KSTO[0 .. NG-1]`. -/
  ksto : List F32
  /-- `G[0 .. NG-1]`. -/
  g : List F32
  /-- `OFFSET_CP[0][INTERLEAVED]`. -/
  offsetCp0Interleaved : F32
  /-- `OFFSET_CP[0][CHESS]`. -/
  offsetCp0Chess : F32
  /-- `OFFSET_CP[1][INTERLEAVED]`. -/
  offsetCp1Interleaved : F32
  /-- `OFFSET_CP[1][CHESS]`. -/
  offsetCp1Chess : F32
  /-- `ALPHA_CP[0]`. -/
  alphaCp0 : F32
  /-- `ALPHA_CP[1]`. -/
  alphaCp1 : F32
  ktaCp : F32
  kvCp : F32
  /-- `OFFSET`, `ALPHA`, `KV`, `KTA`, `FAILED`, `OUTLIER` at pixel `0 .. NPIX-1`. -/
  pix : List PixelCal
  deriving DecidableEq, Repr

/-- The four buffers, each the list of its written cells in ascending index; an unlisted cell holds no value
(10_state.md R60). -/
structure Memory where
  /-- CALMEM (20_memory.md R71). -/
  cal : List Host.Cell
  /-- RAWMEM (20_memory.md R72). -/
  raw : List (Nat × Half)
  /-- OUTMEM (20_memory.md R73). -/
  out : List (Nat × Word)
  /-- GEOMEM (20_memory.md R74). -/
  geo : List (Nat × Half)
  deriving DecidableEq, Repr

/-- No cell of any buffer written. -/
def Memory.blank : Memory where
  cal := []
  raw := []
  out := []
  geo := []

/-- The state of the block. `STATUS` is the view `statusWord` of the flags, `CAL_VALID` is "`calset` is present" and
`CORRECTED` is "`corrCnt` is not 0" (10_state.md R35, R40, R47); `VARIANT` is the view of `cfg.variant` (R39); FLAGMEM is a view
of `calset` (20_memory.md R76). -/
structure State where
  /-- The record of the instance, with the check of configuration time passed (00_scope.md R9, R11). -/
  config : CheckedCfg
  /-- CSR 0x0. -/
  cmd : Word
  /-- CSR 0x1. -/
  arg0 : Word
  /-- CSR 0x2. -/
  arg1 : Word
  /-- `STATUS.BUSY`. -/
  busy : Bool
  /-- `STATUS.DONE`. -/
  done : Bool
  /-- `STATUS.ERR`. -/
  err : Bool
  /-- `STATUS.FALLBACK`. -/
  fallback : Bool
  /-- `SEEN`, `STATUS[7:6]`. -/
  seen : BitVec 2
  /-- `LAST_AP`, `STATUS[8]`. -/
  lastAp : AccessPattern
  /-- `STATUS.ERR_STICKY`. -/
  errSticky : Bool
  /-- CSR 0x4, bits 7:0. -/
  errCode : BitVec 8
  /-- CSR 0x5. -/
  errInfo : Word
  /-- CSR 0x6. -/
  res0 : Word
  /-- CSR 0x7. -/
  res1 : Word
  /-- CSR 0x9, bits 15:0. -/
  corrCnt : Half
  /-- `CALSET`, absent while `CAL_VALID = 0`. -/
  calset : Option CalSet
  mem : Memory
  /-- The host's accesses still to be made, in their order. -/
  inbox : List HostAction
  /-- What the last host read returned. -/
  reply : Reply
  /-- The number of hardware resets so far, the index of the free values of unwritten cells. -/
  epoch : Nat
  deriving DecidableEq, Repr

/-- The configuration record `cfg` of the instance (00_scope.md R9). -/
abbrev State.cfg (s : State) : Cfg := s.config.record

/-- The state after reset of an instance with the checked record `c` (10_state.md R60). -/
def State.resetOf (c : CheckedCfg) : State where
  config := c
  cmd := 0
  arg0 := 0
  arg1 := 0
  busy := false
  done := false
  err := false
  fallback := false
  seen := 0
  lastAp := .interleaved
  errSticky := false
  errCode := 0
  errInfo := 0
  res0 := 0
  res1 := 0
  corrCnt := 0
  calset := none
  mem := Memory.blank
  inbox := []
  reply := .idle
  epoch := 0

/-- The state after reset of the primary variant (log 2). -/
def State.reset : State := State.resetOf CheckedCfg.VA

end Sys2Proof.Machine
end

