-- ==== Sys2Proof/Machine/Ops.lean ====
section
/-! DEFINITION. The named operations over memory and registers, the start of a command, its normal end `done`, and its end by
an error: the block's exceptions. -/

namespace Sys2Proof.Machine

/-! ## Cells of a buffer -/

/-- The value a cell holds, if something has written it since reset (20_memory.md R78). -/
def readCell {w : Nat} : List (Nat × BitVec w) → Nat → Option (BitVec w)
  | [], _ => none
  | c :: cs, i => if c.1 = i then some c.2 else readCell cs i

/-- Write one whole cell (20_memory.md R81); the list stays in ascending index. -/
def writeCell {w : Nat} : List (Nat × BitVec w) → Nat → BitVec w → List (Nat × BitVec w)
  | [], i, v => [(i, v)]
  | c :: cs, i, v =>
    if i < c.1 then (i, v) :: c :: cs
    else if c.1 = i then (i, v) :: cs
    else c :: writeCell cs i v

/-- Write consecutive cells from index `i`. -/
def writeCells {w : Nat} (m : List (Nat × BitVec w)) (i : Nat) : List (BitVec w) → List (Nat × BitVec w)
  | [] => m
  | v :: vs => writeCells (writeCell m i v) (i + 1) vs

/-- The canonical form of a buffer of `n` cells: indices strictly ascending and inside the buffer. An unlisted cell holds no value, so
no entry can equal what an unlisted one reads as. -/
abbrev cellsWf {w : Nat} (n : Nat) (m : List (Nat × BitVec w)) : Prop :=
  m.Pairwise (fun a b => a.1 < b.1) ∧ ∀ c ∈ m, c.1 < n

/-- The sizes of the buffers (20_memory.md R70). -/
def spaceSize (c : Cfg) : Space → Nat
  | .calMem => c.calBytes
  | .rawMem => 8 + c.npix
  | .outMem => c.npix
  | .geoMem => c.npix + 2
  | .flagMem => 2 * ((c.npix + 15) / 16)

/-- The canonical form of the memory of an instance. -/
abbrev Memory.wf (c : Cfg) (m : Memory) : Prop :=
  cellsWf (spaceSize c .calMem) m.cal ∧ cellsWf (spaceSize c .rawMem) m.raw ∧
  cellsWf (spaceSize c .outMem) m.out ∧ cellsWf (spaceSize c .geoMem) m.geo

/-- A command's read of a CALMEM cell (20_memory.md R78). -/
def readCal (m : Memory) (i : Nat) : Except Fault Byte :=
  match readCell m.cal i with
  | some b => .ok b
  | none => .error (.unwrittenCell .calMem i)

/-- A command's read of a RAWMEM cell (20_memory.md R78). -/
def readRaw (m : Memory) (i : Nat) : Except Fault Half :=
  match readCell m.raw i with
  | some h => .ok h
  | none => .error (.unwrittenCell .rawMem i)

/-- Image word `i`: the byte at the lower index is the more significant (20_memory.md R77, 41_calibration.md R164). -/
def calWord (m : Memory) (i : Nat) : Except Fault Half :=
  match readCal m (2 * i) with
  | .error f => .error f
  | .ok hi =>
    match readCal m (2 * i + 1) with
    | .error f => .error f
    | .ok lo => .ok (hi ++ lo)

/-- The image words at the listed indices, in their order. -/
def calWords (m : Memory) : List Nat → Except Fault (List Half)
  | [] => .ok []
  | i :: is =>
    match calWord m i with
    | .error f => .error f
    | .ok w =>
      match calWords m is with
      | .error f => .error f
      | .ok ws => .ok (w :: ws)

/-! ## Updates of the state -/

namespace State

/-- Replace CALMEM. -/
def setCal (s : State) (m : List Host.Cell) : State := { s with mem := { s.mem with cal := m } }

/-- Replace RAWMEM. -/
def setRaw (s : State) (m : List (Nat × Half)) : State := { s with mem := { s.mem with raw := m } }

/-- Replace OUTMEM. -/
def setOut (s : State) (m : List (Nat × Word)) : State := { s with mem := { s.mem with out := m } }

/-- Replace GEOMEM. -/
def setGeo (s : State) (m : List (Nat × Half)) : State := { s with mem := { s.mem with geo := m } }

/-- Write `CORRCNT[15:0]` (10_state.md R40). -/
def setCorrCnt (s : State) (n : Half) : State := { s with corrCnt := n }

/-- Write `STATUS.FALLBACK` (41_calibration.md R170). -/
def setFallback (s : State) (b : Bool) : State := { s with fallback := b }

/-- Write every field of `CALSET` and set `CAL_VALID`, in one step (41_calibration.md R204). -/
def setCalset (s : State) (c : CalSet) : State := { s with calset := some c }

/-- Write the completion-tracking fields (10_state.md R53). -/
def setTrack (s : State) (seen : BitVec 2) (ap : AccessPattern) : State := { s with seen := seen, lastAp := ap }

/-- What a write of `CMD` does first while `BUSY = 0` (10_state.md R36, R37): the value is held in `CMD`, `BUSY` is set, and the error state of
the command before is cleared. It is also the return from an error: there is no other (60_exceptions.md R320). -/
def startCommand (s : State) (w : Word) : State :=
  { s with cmd := w, busy := true, done := false, err := false, errCode := 0, errInfo := 0 }

/-- `done(r0, r1)`: the normal end of a command (00_scope.md R16, 10_state.md R36). -/
def finish (s : State) (r0 r1 : Word) : State :=
  { s with res0 := r0, res1 := r1, done := true, err := false, busy := false }

end State

/-! ## Errors: the block's exceptions -/

/-- The error kinds (60_exceptions.md R311). -/
inductive ErrKind where
  /-- Reserved: no rule raises it (60_exceptions.md R314). -/
  | transportError
  | invalidData
  | checksumError
  | configurationError
  | statusError
  | noCalibration
  | calLocked
  | illegalCommand
  deriving DecidableEq, Repr

/-- `ERRCODE[7:0]` of each kind (60_exceptions.md R311). -/
def ErrKind.code : ErrKind → BitVec 8
  | .transportError => 1
  | .invalidData => 2
  | .checksumError => 3
  | .configurationError => 4
  | .statusError => 5
  | .noCalibration => 6
  | .calLocked => 7
  | .illegalCommand => 8

/-- `ERRINFO` of a ChecksumError: the word as read in 31:16, its index or tag in 15:0 (60_exceptions.md R312). -/
def infoChecksum (word index : Half) : Word := word ++ index

/-- `ERRINFO` of a ConfigurationError: the index in 15:8, the sub-code in 7:0 (60_exceptions.md R312). -/
def infoConfiguration (sub k : BitVec 8) : Word := 0#16 ++ k ++ sub

/-- `ERRINFO` of a StatusError: the status word (60_exceptions.md R312). -/
def infoStatus (st : Half) : Word := 0#16 ++ st

/-- `ERRINFO` of an IllegalCommand: `CMD[15:0]` (60_exceptions.md R312). -/
def infoIllegal (cmd : Word) : Word := 0#16 ++ cmd.extractLsb' 0 16

/-- TAKING AN ERROR: "When a command raises error kind `K` with information `v`" (60_exceptions.md R318). Nothing is saved, no mode changes
and control goes nowhere, because there is no program counter (R310). -/
def State.raiseError (s : State) (k : ErrKind) (info : Word) : State :=
  { s with
    errCode := k.code
    errInfo := info
    res0 := 0
    res1 := 0
    err := true
    done := false
    errSticky := true
    busy := false }

/-! ## The two resets -/

/-- What SYS.RESET writes before its `done(0, 0)` (44_system.md R302). `CMD` reads 0x0000007F after it, whatever unused bits the word that started it
had (10_state.md R62, 90_conflicts.md C9); the buffers keep their content (10_state.md R62). -/
def State.clearAll (s : State) : State :=
  { s with
    cmd := 0x0000007F#32
    arg0 := 0
    arg1 := 0
    errCode := 0
    errInfo := 0
    corrCnt := 0
    busy := false
    done := false
    err := false
    fallback := false
    seen := 0
    lastAp := .interleaved
    errSticky := false
    calset := none }

/-- The instance of a record, in its state after reset: none where the record fails the check at configuration time
(00_scope.md R11). -/
def State.configure (c : Cfg) : Option State := c.check.map State.resetOf

/-- The hardware reset (70_reset_and_hazards.md R340, R341): the state of 10_state.md R60, in which no buffer cell holds a value (log 8). The
host's later accesses still follow, and the free values of unwritten cells are new ones. -/
def State.hardReset (s : State) : State :=
  { State.resetOf s.config with inbox := s.inbox, epoch := s.epoch + 1 }

end Sys2Proof.Machine
end

