-- ==== Sys2Proof/Machine/Operands.lean ====
section
/-! DEFINITION. The operand forms: what each command takes from `ARG0` and `ARG1` (30_encoding.md R106, R107: unsigned, upper bits
ignored), the signed RAWMEM words (43_convert.md R258) and the payload fields of the image (41_calibration.md R181). -/

namespace Sys2Proof.Machine

/-- ECC.DEC: "`ARG0[15:0]` the word" (40_ecc.md R136). -/
def eccWordOf (s : State) : Half := s.arg0.extractLsb' 0 16

/-- ECC.ENC: "`ARG0[10:0]` the payload" (40_ecc.md R141). -/
def encPayloadOf (s : State) : Payload := s.arg0.extractLsb' 0 11

/-- GEO.RESCORR: "`ARG0[1:0]` = calibrated resolution code" (42_geometry.md R238). -/
def rescCalOf (s : State) : BitVec 2 := s.arg0.extractLsb' 0 2

/-- GEO.RESCORR: "`ARG1[1:0]` = current resolution code" (42_geometry.md R238). -/
def rescCurOf (s : State) : BitVec 2 := s.arg1.extractLsb' 0 2

/-- The fields of the status word: `SUBPAGE`, bits 2:0 (43_convert.md R257). -/
def statusSubpage (st : Half) : Nat := (st.extractLsb' 0 3).toNat

/-- `READY`, bit 3 of the status word (43_convert.md R257). -/
def statusReady (st : Half) : Bool := st.getLsbD 3

/-- `sext_16` of a RAWMEM word (43_convert.md R258). -/
def sext16 (h : Half) : Int := h.toInt

/-! ## Payload fields (41_calibration.md R181). `P` is the payload array after the ECC pass. -/

/-- `P[i]`. -/
def payloadAt (P : List Payload) (i : Nat) : Payload := P.getD i 0

/-- `U(i, hi, lo) = P[i][hi:lo]`, unsigned. -/
def fieldU (P : List Payload) (i hi lo : Nat) : Nat := ((payloadAt P i).extractLsb' lo (hi - lo + 1)).toNat

/-- `Sg(i, hi, lo)`, the same bits in two's complement. -/
def fieldS (P : List Payload) (i hi lo : Nat) : Int := ((payloadAt P i).extractLsb' lo (hi - lo + 1)).toInt

/-- `U11(i)`. -/
def fieldU11 (P : List Payload) (i : Nat) : Nat := fieldU P i 10 0

/-- `S11(i)`. -/
def fieldS11 (P : List Payload) (i : Nat) : Int := fieldS P i 10 0

/-- `HL(i) = (P[i][4:0] << 11) | P[i+1][10:0]`. -/
def fieldHL (P : List Payload) (i : Nat) : Half :=
  ((payloadAt P i).extractLsb' 0 5 ++ payloadAt P (i + 1) : BitVec (5 + 11))

/-- `UHL(i)`. -/
def fieldUHL (P : List Payload) (i : Nat) : Nat := (fieldHL P i).toNat

/-- `SHL(i)`. -/
def fieldSHL (P : List Payload) (i : Nat) : Int := (fieldHL P i).toInt

end Sys2Proof.Machine
end

