-- ==== Sys2Proof/Machine/Ecc.lean ====
section
/-! DEFINITION. The ECC unit: the functions `eccdec` and `eccenc` and the commands ECC.DEC and ECC.ENC (40_ecc.md). -/

namespace Sys2Proof.Machine

/-- `par(v)`: the exclusive or of all bits of a 16-bit value (00_scope.md R14). -/
def par (v : Half) : Bool := (List.range 16).foldl (fun b i => b ^^ v.getLsbD i) false

/-- The mask `H0` (40_ecc.md R132). -/
def maskH0 : Half := 0x0D5B#16

/-- The mask `H1` (40_ecc.md R132). -/
def maskH1 : Half := 0x166D#16

/-- The mask `H2` (40_ecc.md R132). -/
def maskH2 : Half := 0x278E#16

/-- The mask `H3` (40_ecc.md R132). -/
def maskH3 : Half := 0x47F0#16

/-- The syndrome `S(w) = s4 ‖ s3 ‖ s2 ‖ s1 ‖ s0` (40_ecc.md R133). -/
def syndrome (w : Half) : BitVec 5 :=
  BitVec.ofBool (par w) ++ BitVec.ofBool (par (w &&& maskH3)) ++ BitVec.ofBool (par (w &&& maskH2)) ++
    BitVec.ofBool (par (w &&& maskH1)) ++ BitVec.ofBool (par (w &&& maskH0))

/-- `POS(S)` by the low four bits of a syndrome `S` of 16 or more: the table of 40_ecc.md R134, `S = 16` first. -/
def posTable : List (BitVec 4) := [15, 11, 12, 0, 13, 1, 2, 3, 14, 4, 5, 6, 7, 8, 9, 10]

/-- `POS(S)` (40_ecc.md R134), of use for `S ≥ 16` only. -/
def eccPos (S : BitVec 5) : BitVec 4 := posTable.getD (S.toNat % 16) 0

/-- What `eccdec` returns (40_ecc.md R135). -/
inductive EccResult where
  | ok (payload : Payload) (corrected : Bool) (pos : BitVec 4) (S : BitVec 5)
  | err (S : BitVec 5)
  deriving DecidableEq, Repr

/-- `eccdec(w)` (40_ecc.md R135). -/
def eccdec (w : Half) : EccResult :=
  let S := syndrome w
  if S = 0 then .ok (w.extractLsb' 0 11) false 0 S
  else if 16 ≤ S.toNat then
    .ok ((w ^^^ (1#16 <<< (eccPos S).toNat)).extractLsb' 0 11) true (eccPos S) S
  else .err S

/-- `eccenc(p)` (40_ecc.md R140). -/
def eccenc (p : Payload) : Half :=
  let q : Half := p.setWidth 16
  let low : BitVec 15 :=
    BitVec.ofBool (par (q &&& 0x7F0#16)) ++ BitVec.ofBool (par (q &&& 0x78E#16)) ++
      BitVec.ofBool (par (q &&& 0x66D#16)) ++ BitVec.ofBool (par (q &&& 0x55B#16)) ++ p
  BitVec.ofBool (par (low.setWidth 16)) ++ low

/-- `RES1` of ECC.DEC: `(pos << 16) | (corrected << 8) | S` (40_ecc.md R136). -/
def eccDiag (corrected : Bool) (pos : BitVec 4) (S : BitVec 5) : Word :=
  0#12 ++ pos ++ 0#7 ++ BitVec.ofBool corrected ++ 0#3 ++ S

/-- The meaning of ECC.DEC (40_ecc.md R136). -/
def execEccDec (tag : Half) (s : State) : Host.Outcome State Fault Refusal :=
  let s0 := s.setCorrCnt 0
  match eccdec (eccWordOf s) with
  | .err _ => .next (s0.raiseError .checksumError (infoChecksum (eccWordOf s) tag))
  | .ok payload corrected pos S =>
    .next ((s0.setCorrCnt (if corrected then 1 else 0)).finish (payload.setWidth 32) (eccDiag corrected pos S))

/-- The meaning of ECC.ENC (40_ecc.md R141). -/
def execEccEnc (s : State) : Host.Outcome State Fault Refusal :=
  .next (s.finish ((eccenc (encPayloadOf s)).setWidth 32) 0)

end Sys2Proof.Machine
end

