-- ==== Sys2Proof/Machine/Cal.lean ====
section
/-! DEFINITION. The calibration unit, command CAL.LOAD: length check, ECC pass, check-bit synthesis fallback, slicing by one layout
table, validation and commit (41_calibration.md). -/

namespace Sys2Proof.Machine

/-! ## The ECC pass -/

/-- What `eccpass` returns (41_calibration.md R165). -/
inductive EccPass where
  | ok (payloads : List Payload) (count : Nat)
  | err (index : Nat) (word : Half) (S : BitVec 5)
  deriving DecidableEq, Repr

/-- `eccpass` from index `i` on: ascending, stopping at the first word that fails (41_calibration.md R165, R166). -/
def eccpassFrom : Nat → List Half → EccPass
  | _, [] => .ok [] 0
  | i, w :: ws =>
    match eccdec w with
    | .err S => .err i w S
    | .ok payload corrected _ _ =>
      match eccpassFrom (i + 1) ws with
      | .err j v S => .err j v S
      | .ok ps n => .ok (payload :: ps) ((if corrected then 1 else 0) + n)

/-- `eccpass(W)` (41_calibration.md R165). -/
def eccpass (W : List Half) : EccPass := eccpassFrom 0 W

/-- The reconstructed image `W2[i] = eccenc(W[i][10:0])`, of every word (41_calibration.md R171). -/
def synthesized (W : List Half) : List Half := W.map fun w => eccenc (w.extractLsb' 0 11)

/-! ## The layout table: "one documented bit-layout table, kept as the single source of truth" -/

/-- The fields of the image (41_calibration.md R182, R183). -/
inductive CalField where
  | offDscale
  | aDscale
  | resCal
  | aScale
  | kstoScale
  | ktaScale
  | ktaDscale
  | kvScale
  | kvDscale
  | offsetBase0
  | offsetBase1
  | alphaBase
  | ktaBase
  | kvBase
  | gainRaw
  | vPtat25Raw
  | ktPtatRaw
  | kvPtatRaw
  | alphaPtatRaw
  | vdd25Raw
  | kvddRaw
  | emisRaw
  | tgcRaw
  | kstaRaw
  | offsetCp0Raw
  | offsetCp1Delta
  | cpApcorrRaw
  | alphaCp0Raw
  | alphaCp1Raw
  | acpScale
  | ktaCpRaw
  | kvCpRaw
  | ng
  | nct
  | ctRaw (i : Nat)
  | kstoRaw (b : Nat)
  | gRaw (b : Nat)
  | dOff0 (p : Nat)
  | dA (p : Nat)
  | dKta (p : Nat)
  | dKv (p : Nat)
  | dOff1 (p : Nat)
  deriving DecidableEq, Repr

/-- Where a field stands and how it is extracted (41_calibration.md R181). -/
inductive Place where
  /-- `U(word, hi, lo)`. -/
  | u (word hi lo : Nat)
  /-- `Sg(word, hi, lo)`. -/
  | s (word hi lo : Nat)
  /-- `UHL(word)`. -/
  | uhl (word : Nat)
  /-- `SHL(word)`. -/
  | shl (word : Nat)
  deriving DecidableEq, Repr

/-- The layout of the image for `npix` pixels: header words 0 to 63 (41_calibration.md R182) and the per-pixel blocks (R183). -/
def layout (npix : Nat) : CalField → Place
  | .offDscale => .u 7 3 0
  | .aDscale => .u 7 7 4
  | .resCal => .u 7 9 8
  | .aScale => .u 8 5 0
  | .kstoScale => .u 8 10 6
  | .ktaScale => .u 9 5 0
  | .ktaDscale => .u 9 9 6
  | .kvScale => .u 10 5 0
  | .kvDscale => .u 10 9 6
  | .offsetBase0 => .shl 11
  | .offsetBase1 => .shl 13
  | .alphaBase => .uhl 15
  | .ktaBase => .s 17 10 0
  | .kvBase => .s 18 10 0
  | .gainRaw => .uhl 19
  | .vPtat25Raw => .uhl 21
  | .ktPtatRaw => .s 23 10 0
  | .kvPtatRaw => .s 24 10 0
  | .alphaPtatRaw => .u 25 10 0
  | .vdd25Raw => .s 26 10 0
  | .kvddRaw => .s 27 10 0
  | .emisRaw => .s 28 10 0
  | .tgcRaw => .s 29 10 0
  | .kstaRaw => .s 30 10 0
  | .offsetCp0Raw => .shl 31
  | .offsetCp1Delta => .s 33 10 0
  | .cpApcorrRaw => .s 34 10 0
  | .alphaCp0Raw => .u 35 10 0
  | .alphaCp1Raw => .u 36 10 0
  | .acpScale => .u 37 5 0
  | .ktaCpRaw => .s 38 10 0
  | .kvCpRaw => .s 39 10 0
  | .ng => .u 40 3 0
  | .nct => .u 40 7 4
  | .ctRaw i => .s (41 + i) 10 0
  | .kstoRaw b => .s (48 + b) 10 0
  | .gRaw b => .u (56 + b) 10 0
  | .dOff0 p => .s (64 + p) 10 0
  | .dA p => .s (64 + npix + p) 10 0
  | .dKta p => .s (64 + 2 * npix + p) 10 5
  | .dKv p => .s (64 + 2 * npix + p) 4 0
  | .dOff1 p => .s (64 + 3 * npix + p) 10 0

/-- The integer at a place of the payload array (41_calibration.md R181). -/
def extractAt (P : List Payload) : Place → Int
  | .u i hi lo => Int.ofNat (fieldU P i hi lo)
  | .s i hi lo => fieldS P i hi lo
  | .uhl i => Int.ofNat (fieldUHL P i)
  | .shl i => fieldSHL P i

/-- The raw integer of a field. -/
def rawField (npix : Nat) (P : List Payload) (f : CalField) : Int := extractAt P (layout npix f)

/-! ## Slicing -/

/-- `f32(n) ⊗ pow2(-k)`, exact (41_calibration.md R194). -/
def scaled (n : Int) (k : Int) : F32 := f32Mul (f32OfInt n) (pow2 (-k))

/-- `BASE + delta × 2^DSCALE`, in integers (41_calibration.md R191 to R193). -/
def reconstruct (base delta dscale : Int) : Int := base + delta * 2 ^ dscale.toNat

/-- `FAILED[p]`: "the payload 0x400 in the pixel's sensitivity-delta word" (41_calibration.md R195). -/
def isFailed (npix : Nat) (P : List Payload) (p : Nat) : Bool := payloadAt P (64 + npix + p) = 0x400#11

/-- `OUTLIER[p]` (41_calibration.md R196). -/
def isOutlier (cfg : Cfg) (P : List Payload) (p : Nat) : Bool :=
  let d := rawField cfg.npix P (.dA p)
  !isFailed cfg.npix P p && decide (d < -Int.ofNat cfg.outlierLim ∨ Int.ofNat cfg.outlierLim < d)

/-- The per-pixel array entries of pixel `p` (41_calibration.md R191 to R196). -/
def slicePixel (cfg : Cfg) (P : List Payload) (p : Nat) : PixelCal :=
  let r := rawField cfg.npix P
  { offset0 := f32OfInt (reconstruct (r .offsetBase0) (r (.dOff0 p)) (r .offDscale))
    offset1 := f32OfInt (reconstruct (r .offsetBase1) (r (.dOff1 p)) (r .offDscale))
    alpha := scaled (reconstruct (r .alphaBase) (r (.dA p)) (r .aDscale)) (r .aScale)
    kv := scaled (reconstruct (r .kvBase) (r (.dKv p)) (r .kvDscale)) (r .kvScale)
    kta := scaled (reconstruct (r .ktaBase) (r (.dKta p)) (r .ktaDscale)) (r .ktaScale)
    failed := isFailed cfg.npix P p
    outlier := isOutlier cfg P p }

/-- `C <- slice(P)`: every field of `CALSET` from the payloads (41_calibration.md R185 to R196). -/
def slice (cfg : Cfg) (P : List Payload) : CalSet :=
  let r := rawField cfg.npix P
  let apcorr := scaled (r .cpApcorrRaw) 4
  let cp0 := f32OfInt (r .offsetCp0Raw)
  let cp1 := f32OfInt (r .offsetCp0Raw + r .offsetCp1Delta)
  let ng := (r .ng).toNat
  let nct := (r .nct).toNat
  { resCal := BitVec.ofInt 2 (r .resCal)
    gain := f32OfInt (r .gainRaw)
    vPtat25 := f32OfInt (r .vPtat25Raw)
    ktPtat := scaled (r .ktPtatRaw) 3
    kvPtat := scaled (r .kvPtatRaw) 12
    alphaPtat := scaled (r .alphaPtatRaw) 7
    vdd25 := scaled (r .vdd25Raw) (-5)
    kvdd := scaled (r .kvddRaw) (-5)
    ksta := scaled (r .kstaRaw) 15
    emis := if payloadAt P 28 = 0 then none else some (scaled (r .emisRaw) 9)
    tgc := if payloadAt P 29 = 0 then none else some (scaled (r .tgcRaw) 6)
    ng := ng
    nct := nct
    ct := (List.range nct).map fun i => f32OfInt (r (.ctRaw i))
    ksto := (List.range ng).map fun b => scaled (r (.kstoRaw b)) (r .kstoScale)
    g := (List.range ng).map fun b => scaled (r (.gRaw b)) 9
    offsetCp0Interleaved := f32Add cp0 apcorr
    offsetCp0Chess := cp0
    offsetCp1Interleaved := f32Add cp1 apcorr
    offsetCp1Chess := cp1
    alphaCp0 := scaled (r .alphaCp0Raw) (r .acpScale)
    alphaCp1 := scaled (r .alphaCp1Raw) (r .acpScale)
    ktaCp := scaled (r .ktaCpRaw) (r .ktaScale)
    kvCp := scaled (r .kvCpRaw) (r .kvScale)
    pix := (List.range cfg.npix).map (slicePixel cfg P) }

/-! ## Validation -/

/-- The lowest `i` in `1 .. nct - 1` whose corner temperature is not above its predecessor (41_calibration.md R200). -/
def badCorner (npix : Nat) (P : List Payload) (nct : Nat) : Option Nat :=
  (List.range' 1 (nct - 1)).find? fun i => rawField npix P (.ctRaw i) ≤ rawField npix P (.ctRaw (i - 1))

/-- The checks V1 to V4 in order: nothing when all pass, else the sub-code and the index of the first that fails
(41_calibration.md R198 to R202). -/
def validate (cfg : Cfg) (P : List Payload) : Option (Nat × Nat) :=
  let ng := (rawField cfg.npix P .ng).toNat
  let nct := (rawField cfg.npix P .nct).toNat
  if ng = 0 ∨ 8 < ng then some (1, 0)
  else if nct + 1 ≠ ng then some (2, 0)
  else
    match badCorner cfg.npix P nct with
    | some i => some (3, i)
    | none => if ng ≤ cfg.btr then some (4, 0) else none

/-! ## The command -/

/-- From the payloads on: `CORRCNT` is written before slicing (41_calibration.md R167), then validation, then the commit (R204). -/
def calCommit (s : State) (P : List Payload) (count : Nat) : State :=
  let s1 := s.setCorrCnt (BitVec.ofNat 16 count)
  match validate s1.cfg P with
  | some (sub, k) => s1.raiseError .configurationError (infoConfiguration (BitVec.ofNat 8 sub) (BitVec.ofNat 8 k))
  | none => (s1.setCalset (slice s1.cfg P)).finish (s1.corrCnt.setWidth 32) (if s1.fallback then 1 else 0)

/-- The error of a pass that failed at word `i` (41_calibration.md R166). -/
def calChecksumError (s : State) (i : Nat) (w : Half) : State :=
  s.raiseError .checksumError (infoChecksum w (BitVec.ofNat 16 i))

/-- The ECC pass over the image and, where the configuration has it, the one synthesis retry (41_calibration.md R165 to R174). The
retry cannot fail (R172); its failing arm is the primary decoder's (log 17). -/
def calDecode (s : State) (W : List Half) : State :=
  match eccpass W with
  | .ok P n => calCommit s P n
  | .err i w _ =>
    if s.cfg.eccFallback then
      match eccpass (synthesized W) with
      | .ok P n => calCommit (s.setFallback true) P n
      | .err j v _ => calChecksumError (s.setFallback true) j v
    else calChecksumError s i w

/-- The meaning of CAL.LOAD (41_calibration.md R160). -/
def execCalLoad (s : State) : Host.Outcome State Fault Refusal :=
  let s0 := (s.setCorrCnt 0).setFallback false
  if s.calset.isSome then .next (s0.raiseError .calLocked 0)
  else if s.arg0.toNat ≠ s.cfg.calBytes then .next (s0.raiseError .invalidData s.arg0)
  else
    match calWords s.mem (List.range s.cfg.calWords) with
    | .error f => .fault f
    | .ok W => .next (calDecode s0 W)

end Sys2Proof.Machine
end

