-- ==== Sys2Proof/Machine/Flags.lean ====
section
/-! DEFINITION. The `STATUS` word and the other read views of the CSR file (10_state.md R34 to R40), and the packing of a
boolean sequence into 16-bit words that FLAGMEM and GEOMEM share (20_memory.md R76, 42_geometry.md R228). -/

namespace Sys2Proof.Machine

/-- `STATUS.CAL_VALID` (10_state.md R46, R47). -/
def State.calValid (s : State) : Bool := s.calset.isSome

/-- "`STATUS.CORRECTED` is 1 exactly when `CORRCNT ≠ 0`" (10_state.md R40). -/
def State.corrected (s : State) : Bool := s.corrCnt ≠ 0

/-- `STATUS`, its fields from bit 9 down to bit 0, bits 31:10 reading 0 (10_state.md R35). -/
def State.statusWord (s : State) : Word :=
  0#22 ++ BitVec.ofBool s.errSticky ++ apBit s.lastAp ++ s.seen ++ BitVec.ofBool s.fallback ++
    BitVec.ofBool s.corrected ++ BitVec.ofBool s.calValid ++ BitVec.ofBool s.err ++ BitVec.ofBool s.done ++
    BitVec.ofBool s.busy

/-- What a host read of CSR number `n` returns; numbers 0xA and above do not exist and read 0 (10_state.md R34). -/
def State.csrRead (s : State) : Nat → Word
  | 0 => s.cmd
  | 1 => s.arg0
  | 2 => s.arg1
  | 3 => s.statusWord
  | 4 => s.errCode.setWidth 32
  | 5 => s.errInfo
  | 6 => s.res0
  | 7 => s.res1
  | 8 => BitVec.ofNat 32 s.cfg.variant.val
  | 9 => s.corrCnt.setWidth 32
  | _ => 0

/-- Word `j` of a boolean sequence of length `n`: element `16j + i` in bit `i`, bits at or past `n` reading 0
(42_geometry.md R227, R228). -/
def packBits (n : Nat) (f : Nat → Bool) (j : Nat) : Half :=
  (List.range 16).foldl (fun v i => if 16 * j + i < n ∧ f (16 * j + i) then v ||| (1#16 <<< i) else v) 0#16

/-- `ceil(NPIX / 16)` (20_memory.md R76). -/
def flagWords (c : Cfg) : Nat := (c.npix + 15) / 16

/-- The array entries of pixel `p`. A valid CalibrationSet has `NPIX` of them, so the blank record past the end is never read (log 14). -/
def CalSet.pixAt (c : CalSet) (p : Nat) : PixelCal := c.pix.getD p ⟨0, 0, 0, 0, 0, false, false⟩

/-- `FAILED[p]`. -/
def CalSet.failedAt (c : CalSet) (p : Nat) : Bool := (c.pixAt p).failed

/-- `OUTLIER[p]`. -/
def CalSet.outlierAt (c : CalSet) (p : Nat) : Bool := (c.pixAt p).outlier

/-- FLAGMEM word `j`, for `j < 2 * flagWords`: first the failed, then the outlier bitmap (20_memory.md R76). -/
def flagWord (cfg : Cfg) (c : CalSet) (j : Nat) : Half :=
  if j < flagWords cfg then packBits cfg.npix c.failedAt j else packBits cfg.npix c.outlierAt (j - flagWords cfg)

end Sys2Proof.Machine
end

