-- ==== Sys2Proof/Machine/Geo.lean ====
section
/-! DEFINITION. The geometry unit: membership, pixel addresses, spans, resolution correction and the four GEO commands
(42_geometry.md). The variant is read only through fields of `cfg` (R220). -/

namespace Sys2Proof.Machine

/-- `row(p) = p div WIDTH` (42_geometry.md R224). -/
def rowOf (c : Cfg) (p : Nat) : Nat := p / c.width

/-- `col(p) = p mod WIDTH` (42_geometry.md R224). -/
def colOf (c : Cfg) (p : Nat) : Nat := p % c.width

/-- `sp_of(ap, p)`, the subpage a pixel belongs to (42_geometry.md R225). -/
def spOf (c : Cfg) (ap : AccessPattern) (p : Nat) : Nat :=
  if c.nsub ap = 1 then 0
  else
    match ap with
    | .interleaved => rowOf c p % 2
    | .chess => (rowOf c p + colOf c p) % 2

/-- `member(sp, ap, p)` (42_geometry.md R226). -/
def member (c : Cfg) (sp : Nat) (ap : AccessPattern) (p : Nat) : Bool := spOf c ap p = sp

/-- The member pixels of a subpage in ascending index. -/
def members (c : Cfg) (sp : Nat) (ap : AccessPattern) : List Nat := (List.range c.npix).filter (member c sp ap)

/-- `NMEM(sp, ap)` (42_geometry.md R226). -/
def nmem (c : Cfg) (sp : Nat) (ap : AccessPattern) : Nat := (members c sp ap).length

/-- `rank(sp, ap, p)`: the number of members below `p` (42_geometry.md R226). -/
def rank (c : Cfg) (sp : Nat) (ap : AccessPattern) (p : Nat) : Nat :=
  ((List.range p).filter (member c sp ap)).length

/-- `PIXADDR(p) = PIX_BASE + p` (42_geometry.md R231), as an integer. -/
def pixAddr (c : Cfg) (p : Nat) : Nat := c.pixBase.toNat + p

/-- `PIXINDEX(a)`, where it is defined (42_geometry.md R232). -/
def pixIndex (c : Cfg) (a : Nat) : Option Nat :=
  if c.pixBase.toNat ≤ a ∧ a < c.pixBase.toNat + c.npix then some (a - c.pixBase.toNat) else none

/-- The subpage of a SENSOR address (42_geometry.md R232). -/
def addrSubpage (c : Cfg) (ap : AccessPattern) (a : Nat) : Option Nat := (pixIndex c a).map (spOf c ap)

/-- The spans of the listed pixels, given the open span if there is one: the loop of 42_geometry.md R233, each emitted span a pair
(start, length). -/
def spansFrom (c : Cfg) (sp : Nat) (ap : AccessPattern) : Option (Nat × Nat) → List Nat → List (Nat × Nat)
  | cur, [] => cur.toList
  | none, p :: ps =>
    if member c sp ap p then spansFrom c sp ap (some (pixAddr c p, 1)) ps else spansFrom c sp ap none ps
  | some (a, l), p :: ps =>
    if member c sp ap p then
      if a + l = pixAddr c p then spansFrom c sp ap (some (a, l + 1)) ps
      else (a, l) :: spansFrom c sp ap (some (pixAddr c p, 1)) ps
    else spansFrom c sp ap (some (a, l)) ps

/-- The span sequence of GEO.RANGES (42_geometry.md R233). -/
def spans (c : Cfg) (sp : Nat) (ap : AccessPattern) : List (Nat × Nat) := spansFrom c sp ap none (List.range c.npix)

/-- The GEOMEM words of a span sequence: start, then length, each a 16-bit cell (42_geometry.md R234). -/
def spanWords : List (Nat × Nat) → List Half
  | [] => []
  | (a, l) :: rest => BitVec.ofNat 16 a :: BitVec.ofNat 16 l :: spanWords rest

/-- The words of the membership bitmap (42_geometry.md R227). -/
def memberWords (c : Cfg) (sp : Nat) (ap : AccessPattern) : List Half :=
  (List.range (flagWords c)).map (packBits c.npix (member c sp ap))

/-- `cfg.RESCORR(cal, cur)` (42_geometry.md R238). -/
def rescorr (c : Cfg) (cal cur : BitVec 2) : F32 := c.rescorrTable.get ⟨(cal ++ cur).toNat, (cal ++ cur).isLt⟩

/-- The constant of selector `idx`, none above 17; integers zero-extended to 32 bits (42_geometry.md R222). -/
def geoConstant (c : Cfg) (idx : Nat) (ap : AccessPattern) : Option Word :=
  match idx with
  | 0 => some (BitVec.ofNat 32 c.height)
  | 1 => some (BitVec.ofNat 32 c.width)
  | 2 => some (BitVec.ofNat 32 c.npix)
  | 3 => some (c.taVbeAddr.setWidth 32)
  | 4 => some (c.taPtatAddr.setWidth 32)
  | 5 => some (c.gainAddr.setWidth 32)
  | 6 => some (c.vddPixAddr.setWidth 32)
  | 7 => some (c.cpAddr0.setWidth 32)
  | 8 => some (c.cpAddr1.setWidth 32)
  | 9 => some c.selfHeating
  | 10 => some (BitVec.ofNat 32 c.btr)
  | 11 => some (c.calBase.setWidth 32)
  | 12 => some (BitVec.ofNat 32 c.calWords)
  | 13 => some (c.pixBase.setWidth 32)
  | 14 => some (c.statusAddr.setWidth 32)
  | 15 => some (BitVec.ofNat 32 c.variant.val)
  | 16 => some (if c.eccFallback then 1 else 0)
  | 17 => some (BitVec.ofNat 32 (c.nsub ap))
  | _ => none

/-- The meaning of GEO.CONST (42_geometry.md R222). -/
def execGeoConst (idx : Half) (ap : AccessPattern) (s : State) : Host.Outcome State Fault Refusal :=
  match geoConstant s.cfg idx.toNat ap with
  | some v => .next (s.finish v 0)
  | none => .next (s.raiseError .illegalCommand (infoIllegal s.cmd))

/-- The meaning of GEO.MEMBER (42_geometry.md R227). -/
def execGeoMember (sp : BitVec 1) (ap : AccessPattern) (s : State) : Host.Outcome State Fault Refusal :=
  .next ((s.setGeo (writeCells s.mem.geo 0 (memberWords s.cfg sp.toNat ap))).finish
    (BitVec.ofNat 32 (nmem s.cfg sp.toNat ap)) 0)

/-- The meaning of GEO.RANGES (42_geometry.md R233). -/
def execGeoRanges (sp : BitVec 1) (ap : AccessPattern) (s : State) : Host.Outcome State Fault Refusal :=
  .next ((s.setGeo (writeCells s.mem.geo 0 (spanWords (spans s.cfg sp.toNat ap)))).finish
    (BitVec.ofNat 32 (spans s.cfg sp.toNat ap).length) (BitVec.ofNat 32 (nmem s.cfg sp.toNat ap)))

/-- The meaning of GEO.RESCORR (42_geometry.md R238). -/
def execGeoRescorr (s : State) : Host.Outcome State Fault Refusal :=
  .next (s.finish (rescorr s.cfg (rescCalOf s) (rescCurOf s)) 0)

end Sys2Proof.Machine
end

