-- ==== Sys2Proof/Machine/Cvt.lean ====
section
/-! DEFINITION. The conversion unit, command CVT.SUBPAGE: the shared stages, the per-pixel stages, the OUTMEM writes and the
completion tracking (43_convert.md). Every formula is the composition of binary32 operations its rule writes, in that order
(R251). -/

namespace Sys2Proof.Machine

/-- The RawFrame words of the shared stages (20_memory.md R72). -/
structure RawAux where
  taVbe : Half
  taPtat : Half
  gain : Half
  vddPix : Half
  cp : Half
  deriving DecidableEq, Repr

/-- Read RAWMEM words 1 to 5, ascending (43_convert.md R258). -/
def readAux (m : Memory) : Except Fault RawAux :=
  match readRaw m 1 with
  | .error f => .error f
  | .ok v =>
    match readRaw m 2 with
    | .error f => .error f
    | .ok t =>
      match readRaw m 3 with
      | .error f => .error f
      | .ok g =>
        match readRaw m 4 with
        | .error f => .error f
        | .ok d =>
          match readRaw m 5 with
          | .error f => .error f
          | .ok c => .ok ⟨v, t, g, d, c⟩

/-- `f32(sext_16(word))` (43_convert.md R258). -/
def f32OfRaw (h : Half) : F32 := f32OfInt (sext16 h)

/-- The results of the shared stages, once per command (43_convert.md R260 to R265, R270, R272 to R275). -/
structure Shared where
  rc : F32
  dV : F32
  den : F32
  vpa : F32
  ta : F32
  kg : F32
  dTa : F32
  cpg : F32
  cpo : F32
  kstaF : F32
  band : Nat
  eps : F32
  taK : F32
  tr : F32
  trK : F32
  taK4 : F32
  trK4 : F32
  taTr : F32
  deriving DecidableEq, Repr

/-- `OFFSET_CP[sp][ap]` (10_state.md R49). -/
def CalSet.offsetCp (c : CalSet) (sp : Nat) : AccessPattern → F32
  | .interleaved => if sp = 0 then c.offsetCp0Interleaved else c.offsetCp1Interleaved
  | .chess => if sp = 0 then c.offsetCp0Chess else c.offsetCp1Chess

/-- `ALPHA_CP[sp]` (10_state.md R49). -/
def CalSet.alphaCp (c : CalSet) (sp : Nat) : F32 := if sp = 0 then c.alphaCp0 else c.alphaCp1

/-- `OFFSET[sp][p]` at one pixel (10_state.md R49). -/
def PixelCal.offset (x : PixelCal) (sp : Nat) : F32 := if sp = 0 then x.offset0 else x.offset1

/-- `CT[i]`; read below `NCT` only (log 14). -/
def CalSet.ctAt (c : CalSet) (i : Nat) : F32 := c.ct.getD i 0

/-- `KSTO[b]`; read below `NG` only (log 14). -/
def CalSet.kstoAt (c : CalSet) (b : Nat) : F32 := c.ksto.getD b 0

/-- `G[b]`; read below `NG` only (log 14). -/
def CalSet.gAt (c : CalSet) (b : Nat) : F32 := c.g.getD b 0

/-- `b`: the number of `i` in `0 .. NCT-1` with `Ta ≥ CT[i]` (43_convert.md R272). -/
def bandOf (c : CalSet) (ta : F32) : Nat := ((List.range c.nct).filter fun i => f32Ge ta (c.ctAt i)).length

/-- The supply deviation (43_convert.md R261). -/
def supplyDeviation (c : CalSet) (rc : F32) (x : RawAux) : F32 :=
  f32Div (f32Sub (f32Mul rc (f32OfRaw x.vddPix)) c.vdd25) c.kvdd

/-- `den` (43_convert.md R262). -/
def ptatDen (c : CalSet) (x : RawAux) : F32 := f32Add (f32Mul (f32OfRaw x.taPtat) c.alphaPtat) (f32OfRaw x.taVbe)

/-- `vpa` (43_convert.md R262). -/
def ptatArt (c : CalSet) (x : RawAux) : F32 := f32Mul (f32Div (f32OfRaw x.taPtat) (ptatDen c x)) f32Pow18

/-- The ambient temperature (43_convert.md R262). -/
def ambient (c : CalSet) (dV vpa : F32) : F32 :=
  f32Add (f32Div (f32Sub (f32Div vpa (f32Add f32One (f32Mul c.kvPtat dV))) c.vPtat25) c.ktPtat) f32TwentyFive

/-- An offset times its ambient factor, the result times its supply factor (43_convert.md R265 to R267). -/
def correctedOffset (off kta kv dTa dV : F32) : F32 :=
  f32Mul (f32Mul off (f32Add f32One (f32Mul kta dTa))) (f32Add f32One (f32Mul kv dV))

/-- The fourth power as the square of the square (43_convert.md R275). -/
def pow4 (a : F32) : F32 := f32Mul (f32Mul a a) (f32Mul a a)

/-- The shared stages, in data-flow order (43_convert.md section 3). -/
def shared (cfg : Cfg) (c : CalSet) (sp : Nat) (ap : AccessPattern) (res : BitVec 2) (x : RawAux) : Shared :=
  let rc := rescorr cfg c.resCal res
  let dV := supplyDeviation c rc x
  let vpa := ptatArt c x
  let ta := ambient c dV vpa
  let kg := f32Div c.gain (f32OfRaw x.gain)
  let dTa := f32Sub ta f32TwentyFive
  let cpg := f32Mul (f32OfRaw x.cp) kg
  let cpo := f32Sub cpg (correctedOffset (c.offsetCp sp ap) c.ktaCp c.kvCp dTa dV)
  let eps := c.emis.getD f32DefaultEmis
  let taK := f32Add ta f32Kelvin
  let tr := f32Sub ta cfg.selfHeating
  let trK := f32Add tr f32Kelvin
  let taK4 := pow4 taK
  let trK4 := pow4 trK
  { rc := rc
    dV := dV
    den := ptatDen c x
    vpa := vpa
    ta := ta
    kg := kg
    dTa := dTa
    cpg := cpg
    cpo := cpo
    kstaF := f32Add f32One (f32Mul c.ksta dTa)
    band := bandOf c ta
    eps := eps
    taK := taK
    tr := tr
    trK := trK
    taK4 := taK4
    trK4 := trK4
    taTr := f32Sub trK4 (f32Div (f32Sub trK4 taK4) eps) }

/-- The results of the per-pixel stages (43_convert.md R266, R268, R271, R276, R277). -/
structure PixelStage where
  pg : F32
  po : F32
  vir : F32
  ac : F32
  ac2 : F32
  ab : F32
  ve : F32
  ab2 : F32
  ab3 : F32
  ab4 : F32
  sx : F32
  dn : F32
  temp : F32
  deriving DecidableEq, Repr

/-- The signal after gradient compensation, when `TGC` is defined (43_convert.md R268). -/
def gradientSignal (c : CalSet) (S : Shared) (po : F32) : F32 :=
  match c.tgc with
  | some t => f32Sub po (f32Mul t S.cpo)
  | none => po

/-- The sensitivity after gradient compensation, when `TGC` is defined (43_convert.md R268, R269). -/
def gradientAlpha (c : CalSet) (sp : Nat) (alpha : F32) : F32 :=
  match c.tgc with
  | some t => f32Sub alpha (f32Mul t (c.alphaCp sp))
  | none => alpha

/-- The per-pixel stages for a pixel with entries `x` and raw word `raw`. -/
def pixelStage (c : CalSet) (S : Shared) (sp : Nat) (x : PixelCal) (raw : Half) : PixelStage :=
  let pg := f32Mul (f32OfRaw raw) S.kg
  let po := f32Sub pg (correctedOffset (x.offset sp) x.kta x.kv S.dTa S.dV)
  let vir := gradientSignal c S po
  let ac := gradientAlpha c sp x.alpha
  let ac2 := f32Mul ac S.kstaF
  let ab := f32Mul ac2 (c.gAt S.band)
  let ve := f32Div vir S.eps
  let ab2 := f32Mul ab ab
  let ab3 := f32Mul ab2 ab
  let ab4 := f32Mul ab2 ab2
  let ksto := c.kstoAt S.band
  let sx := f32Mul ksto (f32Root4 (f32Add (f32Mul ab3 ve) (f32Mul ab4 S.taTr)))
  let dn := f32Add (f32Mul ab (f32Sub f32One (f32Mul ksto f32Kelvin))) sx
  { pg := pg
    po := po
    vir := vir
    ac := ac
    ac2 := ac2
    ab := ab
    ve := ve
    ab2 := ab2
    ab3 := ab3
    ab4 := ab4
    sx := sx
    dn := dn
    temp := f32Sub (f32Root4 (f32Add (f32Div ve dn) S.taTr)) f32Kelvin }

/-- What is written for member pixel `p`, whose raw word is read in either case, by its rank (20_memory.md R80, 43_convert.md R280,
70_reset_and_hazards.md R357): the sentinel for a failed pixel, which does not use the word (43_convert.md R284, R286), the temperature for any
other, outliers included (R277, R282). -/
def pixelOut (cfg : Cfg) (c : CalSet) (S : Shared) (sp : Nat) (ap : AccessPattern) (m : Memory) (p : Nat) :
    Except Fault Word :=
  match readRaw m (8 + rank cfg sp ap p) with
  | .error f => .error f
  | .ok raw => .ok (if c.failedAt p then failedSentinel else (pixelStage c S sp (c.pixAt p) raw).temp)

/-- The OUTMEM writes of the listed member pixels, one each, in their order (43_convert.md R285). -/
def convertPixels (cfg : Cfg) (c : CalSet) (S : Shared) (sp : Nat) (ap : AccessPattern) (m : Memory) :
    List Nat → List (Nat × Word) → Except Fault (List (Nat × Word))
  | [], out => .ok out
  | p :: ps, out =>
    match pixelOut cfg c S sp ap m p with
    | .error f => .error f
    | .ok v => convertPixels cfg c S sp ap m ps (writeCell out p v)

/-- `track(sp, ap)`: the new `SEEN` and whether the image is complete (43_convert.md R288). -/
def track (cfg : Cfg) (seen : BitVec 2) (lastAp : AccessPattern) (sp : Nat) (ap : AccessPattern) : BitVec 2 × Bool :=
  let kept := if seen ≠ 0 ∧ ap ≠ lastAp then 0#2 else seen
  let now := kept ||| (1#2 <<< sp)
  let full := BitVec.ofNat 2 (2 ^ cfg.nsub ap - 1)
  if now = full then (0#2, true) else (now, false)

/-- A ready frame of the right length: convert, write, track, end (43_convert.md R255, the part after the checks). -/
def convertFrame (c : CalSet) (sp : Nat) (ap : AccessPattern) (res : BitVec 2) (s : State) :
    Host.Outcome State Fault Refusal :=
  match readAux s.mem with
  | .error f => .fault f
  | .ok x =>
    match convertPixels s.cfg c (shared s.cfg c sp ap res x) sp ap s.mem (members s.cfg sp ap) s.mem.out with
    | .error f => .fault f
    | .ok out =>
      let t := track s.cfg s.seen s.lastAp sp ap
      .next (((s.setOut out).setTrack t.1 ap).finish (if t.2 then 1 else 0) (BitVec.ofNat 32 sp))

/-- The meaning of CVT.SUBPAGE: the checks in the order of 43_convert.md R255. -/
def execCvtSubpage (ap : AccessPattern) (res : BitVec 2) (s : State) : Host.Outcome State Fault Refusal :=
  match s.calset with
  | none => .next (s.raiseError .noCalibration 0)
  | some c =>
    if s.arg0.toNat ≠ s.cfg.npix then .next (s.raiseError .invalidData s.arg0)
    else
      match readRaw s.mem 0 with
      | .error f => .fault f
      | .ok st =>
        if s.cfg.nsub ap ≤ statusSubpage st then .next (s.raiseError .statusError (infoStatus st))
        else if !statusReady st then .next (s.finish 2 0)
        else if s.arg1.toNat ≠ nmem s.cfg (statusSubpage st) ap then .next (s.raiseError .invalidData s.arg1)
        else convertFrame c (statusSubpage st) ap res s

end Sys2Proof.Machine
end

