-- ==== Sys2Proof/Machine/Sys.lean ====
section
/-! DEFINITION. The system commands SYS.NOP and SYS.RESET (44_system.md). -/

namespace Sys2Proof.Machine

/-- The meaning of SYS.NOP: `done(0, 0)` (44_system.md R301). -/
def execSysNop (s : State) : Host.Outcome State Fault Refusal := .next (s.finish 0 0)

/-- The meaning of SYS.RESET (44_system.md R302). -/
def execSysReset (s : State) : Host.Outcome State Fault Refusal := .next (s.clearAll.finish 0 0)

end Sys2Proof.Machine
end

