-- ==== Sys2Proof/Machine/Dispatch.lean ====
section
/-! DEFINITION. One arm per command, each a call of its meaning. -/

namespace Sys2Proof.Machine

def exec (i : Instr) (s : State) : Host.Outcome State Fault Refusal :=
  match i with
  | .sysNop => Sys2Proof.Machine.execSysNop s
  | .eccDec tag => Sys2Proof.Machine.execEccDec tag s
  | .eccEnc => Sys2Proof.Machine.execEccEnc s
  | .calLoad => Sys2Proof.Machine.execCalLoad s
  | .geoConst idx ap => Sys2Proof.Machine.execGeoConst idx ap s
  | .geoMember sp ap => Sys2Proof.Machine.execGeoMember sp ap s
  | .geoRanges sp ap => Sys2Proof.Machine.execGeoRanges sp ap s
  | .geoRescorr => Sys2Proof.Machine.execGeoRescorr s
  | .cvtSubpage ap res => Sys2Proof.Machine.execCvtSubpage ap res s
  | .sysReset => Sys2Proof.Machine.execSysReset s

end Sys2Proof.Machine
end

