-- ==== Sys2Proof/Machine/Inputs.lean ====
section
/-! DEFINITION. What each access of the host does, the start of a command among them (10_state.md R34, R36; 20_memory.md R70, R76, R81,
R87; 30_encoding.md R104). -/

namespace Sys2Proof.Machine

/-- A command value starts: the life cycle of 10_state.md R36, then the decoded command, or, for a value that decodes to none, nothing
but `IllegalCommand(CMD[15:0])` (30_encoding.md R104). The whole is one step (20_memory.md R84). -/
def runCommand (w : Word) (s : State) : Host.Outcome State Fault Refusal :=
  match decode w with
  | .ok i => exec i (s.startCommand w)
  | .error _ => .next ((s.startCommand w).raiseError .illegalCommand (infoIllegal w))

/-- A host write of a CSR: `CMD` starts a command unless `BUSY = 1`, when the write is ignored; `ARG0` and `ARG1` are written; a write of any
other number is ignored (10_state.md R34, R36). -/
def hostWriteCsr (n : Nat) (v : Word) (s : State) : Host.Outcome State Fault Refusal :=
  match n with
  | 0 => if s.busy then .next s else runCommand v s
  | 1 => .next { s with arg0 := v }
  | 2 => .next { s with arg1 := v }
  | _ => .next s

/-- The answer to a host read: it changes nothing but the reply (20_memory.md R81). -/
def State.answer (s : State) (r : Reply) : State := { s with reply := r }

/-- A host read of OUTMEM; an unwritten cell gives its free value (93_implementation_defined.md U12, log 7). -/
def hostReadOut (i : Nat) (s : State) : Host.Outcome State Fault Refusal :=
  if i < spaceSize s.cfg .outMem then
    .next (s.answer (.data ((readCell s.mem.out i).getD (Config.unwrittenOut s.epoch i))))
  else .fault (.noSuchCell .outMem i)

/-- A host read of GEOMEM, as of OUTMEM. -/
def hostReadGeo (i : Nat) (s : State) : Host.Outcome State Fault Refusal :=
  if i < spaceSize s.cfg .geoMem then
    .next (s.answer (.data (((readCell s.mem.geo i).getD (Config.unwrittenGeo s.epoch i)).setWidth 32)))
  else .fault (.noSuchCell .geoMem i)

/-- A host read of FLAGMEM, refused while `CAL_VALID = 0` (20_memory.md R76). -/
def hostReadFlag (i : Nat) (s : State) : Host.Outcome State Fault Refusal :=
  if i < spaceSize s.cfg .flagMem then
    match s.calset with
    | none => .next (s.answer .refused)
    | some c => .next (s.answer (.data ((flagWord s.cfg c i).setWidth 32)))
  else .fault (.noSuchCell .flagMem i)

/-- A host write of a CALMEM cell (20_memory.md R71). -/
def hostWriteCal (i : Nat) (b : Byte) (s : State) : Host.Outcome State Fault Refusal :=
  if i < spaceSize s.cfg .calMem then .next (s.setCal (writeCell s.mem.cal i b)) else .fault (.noSuchCell .calMem i)

/-- A host write of a RAWMEM cell (20_memory.md R72). -/
def hostWriteRaw (i : Nat) (h : Half) (s : State) : Host.Outcome State Fault Refusal :=
  if i < spaceSize s.cfg .rawMem then .next (s.setRaw (writeCell s.mem.raw i h)) else .fault (.noSuchCell .rawMem i)

/-- The effect of one host access. -/
def perform (a : HostAction) (s : State) : Host.Outcome State Fault Refusal :=
  match a with
  | .writeCsr n v => hostWriteCsr n v s
  | .readCsr n => .next (s.answer (.data (s.csrRead n)))
  | .writeCal i b => hostWriteCal i b s
  | .writeRaw i h => hostWriteRaw i h s
  | .readOut i => hostReadOut i s
  | .readGeo i => hostReadGeo i s
  | .readFlag i => hostReadFlag i s
  | .hardReset => .next s.hardReset

/-- The accesses that are held while `BUSY = 1`: those of the buffers (20_memory.md R87). -/
def HostAction.isBuffer : HostAction → Bool
  | .writeCsr _ _ => false
  | .readCsr _ => false
  | .writeCal _ _ => true
  | .writeRaw _ _ => true
  | .readOut _ => true
  | .readGeo _ => true
  | .readFlag _ => true
  | .hardReset => false

/-- The next access of the host: with none the block is idle and holds its state (60_exceptions.md R333); a held access waits
(20_memory.md R87); any other is performed. -/
def takeInput (s : State) : Host.Outcome State Fault Refusal :=
  match s.inbox with
  | [] => .next s
  | a :: rest => if s.busy && a.isBuffer then .next s else perform a { s with inbox := rest }

/-- The inbox with a write of `CMD` put in front, and the block ready to accept it. -/
def State.offerCommand (s : State) (w : Word) : State :=
  { s with busy := false, inbox := .writeCsr 0 w :: s.inbox }

end Sys2Proof.Machine
end

