-- ==== Sys2Proof/Machine/Step.lean ====
section
/-! DEFINITION. One step of the machine: one access of the host, a command included whole (20_memory.md R84, R85). -/

namespace Sys2Proof.Machine

/-- The next access of the inbox takes effect. -/
def step (s : State) : Host.Outcome State Fault Refusal := takeInput s

/-- `s` with the host's next access a write of the instruction's word to `CMD`: a command is not fetched but written to `CMD`
(10_state.md R33, log 3). -/
def State.withFetchWord (s : State) (nbits w : Nat) : State := s.offerCommand (BitVec.ofNat 32 (w % 2 ^ nbits))

end Sys2Proof.Machine
end

