-- ==== Sys2Proof/Machine/Assembler.lean ====
section
/-! DEFINITION. The host actions of the spec's assembler lines (30_encoding.md R109) and of the pseudo-instructions `INIT` and
`POLL` (R110), as accesses of the inbox. "Each line stands for the `ARG` writes in the order shown, then the `CMD` write". -/

namespace Sys2Proof.Machine

/-- Two bytes as one word, the first the more significant: the order of the image and of a byte-wise view of RAWMEM
(20_memory.md R77, R78). -/
def bigEndian (hi lo : Byte) : Half := hi ++ lo

/-- The words of one RawFrame as the host read them (30_encoding.md R110, 20_memory.md R72). -/
structure Frame where
  status : Half
  taVbe : Half
  taPtat : Half
  gain : Half
  vddPix : Half
  cp : Half
  pix : List Half
  deriving DecidableEq, Repr

/-- A line of the assembler syntax. -/
inductive AsmLine where
  | sysNop
  | sysReset
  | eccDec (word : Word) (tag : Half)
  | eccEnc (payload : Word)
  | calLoad (nbytes : Word)
  | geoConst (sel : Half) (ap : AccessPattern)
  | geoMember (sp : BitVec 1) (ap : AccessPattern)
  | geoRanges (sp : BitVec 1) (ap : AccessPattern)
  | geoRescorr (cal cur : Word)
  | cvtSubpage (ap : AccessPattern) (res : BitVec 2) (outlen rawlen : Word)
  | init (image : List Byte)
  | poll (ap : AccessPattern) (res : BitVec 2) (frame : Frame)
  deriving DecidableEq, Repr

/-- A write of `ARG0`. -/
def putArg0 (v : Word) : HostAction := .writeCsr 1 v

/-- A write of `ARG1`. -/
def putArg1 (v : Word) : HostAction := .writeCsr 2 v

/-- The write of `CMD` that starts a command. -/
def putCmd (i : Instr) : HostAction := .writeCsr 0 (encode i)

/-- `CALMEM[i ..] <- bytes`. -/
def putImage (i : Nat) : List Byte → List HostAction
  | [] => []
  | b :: bs => .writeCal i b :: putImage (i + 1) bs

/-- `RAWMEM[i ..] <- words`. -/
def putRaw (i : Nat) : List Half → List HostAction
  | [] => []
  | h :: hs => .writeRaw i h :: putRaw (i + 1) hs

/-- The host actions a line stands for, on an instance with record `cfg` (`POLL` passes `NPIX`). -/
def assemble (cfg : Cfg) : AsmLine → List HostAction
  | .sysNop => [putCmd .sysNop]
  | .sysReset => [putCmd .sysReset]
  | .eccDec word tag => [putArg0 word, putCmd (.eccDec tag)]
  | .eccEnc payload => [putArg0 payload, putCmd .eccEnc]
  | .calLoad nbytes => [putArg0 nbytes, putCmd .calLoad]
  | .geoConst sel ap => [putCmd (.geoConst sel ap)]
  | .geoMember sp ap => [putCmd (.geoMember sp ap)]
  | .geoRanges sp ap => [putCmd (.geoRanges sp ap)]
  | .geoRescorr cal cur => [putArg0 cal, putArg1 cur, putCmd .geoRescorr]
  | .cvtSubpage ap res outlen rawlen => [putArg0 outlen, putArg1 rawlen, putCmd (.cvtSubpage ap res)]
  | .init image => putImage 0 image ++ [putArg0 (BitVec.ofNat 32 image.length), putCmd .calLoad]
  | .poll ap res f =>
    putRaw 0 [f.status, f.taVbe, f.taPtat, f.gain, f.vddPix, f.cp] ++ putRaw 8 f.pix ++
      [putArg0 (BitVec.ofNat 32 cfg.npix), putArg1 (BitVec.ofNat 32 f.pix.length), putCmd (.cvtSubpage ap res)]

end Sys2Proof.Machine
end

