-- ==== Sys2Proof/Safety.lean ====
section
/-! DEFINITION. What a good state is: the invariants the spec states of the block's state, in the terms the claims use. -/

namespace Sys2Proof.Machine

/-- The invariants of a valid CalibrationSet (10_state.md R50), with the lengths of its arrays (R49). -/
structure CalSet.wf (cfg : Cfg) (c : CalSet) : Prop where
  ngPos : 1 ≤ c.ng
  ngMax : c.ng ≤ 8
  /-- "Corner-temperature count = (gain-coefficient-array length − 1)". -/
  nctEq : c.nct + 1 = c.ng
  ctLen : c.ct.length = c.nct
  kstoLen : c.ksto.length = c.ng
  gLen : c.g.length = c.ng
  /-- "bands strictly increase". -/
  ctRising : c.ct.Pairwise (fun a b => f32Lt a b = true)
  btrBand : cfg.btr < c.ng
  pixLen : c.pix.length = cfg.npix
  /-- `FAILED` and `OUTLIER` are disjoint. -/
  disjoint : ∀ x ∈ c.pix, ¬(x.failed = true ∧ x.outlier = true)

/-- What holds of every state of the block between commands. -/
structure Inv (s : State) : Prop where
  /-- The buffers are in canonical form, inside their sizes (20_memory.md R70). -/
  memWf : s.mem.wf s.cfg
  /-- "`BUSY = 1` is then never observed" (10_state.md R36). -/
  idle : s.busy = false
  /-- A stored CalibrationSet is valid (10_state.md R50). -/
  calWf : ∀ c, s.calset = some c → c.wf s.cfg
  /-- `SEEN` never holds a full image of the last pattern: completion clears it (43_convert.md R288). -/
  seenOpen : s.seen.toNat + 1 < 2 ^ s.cfg.nsub s.lastAp
  /-- `CORRCNT` is at most the number of image words (10_state.md R40). -/
  corrMax : s.corrCnt.toNat ≤ s.cfg.calWords
  /-- `ERR` and `DONE` are never both 1 (10_state.md R36). -/
  oneEnd : ¬(s.err = true ∧ s.done = true)
  /-- `ERRCODE` is 0 exactly while `ERR` is 0 (10_state.md R36, R38; 60_exceptions.md R311). -/
  codeErr : s.err = true ↔ s.errCode ≠ 0
  /-- `ERRCODE` is at most 8 and never 1 (60_exceptions.md R311, R314). -/
  codeRange : s.errCode.toNat ≤ 8 ∧ s.errCode ≠ 1
  /-- `ERRINFO` is 0 while `ERR` is 0 (10_state.md R36, R38). -/
  infoErr : s.err = false → s.errInfo = 0
  /-- An error shows no partial result and is remembered (10_state.md R32, 60_exceptions.md R318, R319). -/
  errResults : s.err = true → s.res0 = 0 ∧ s.res1 = 0 ∧ s.errSticky = true

/-- Every cell of a buffer of `n` cells holds a value. -/
def allWritten {w : Nat} (n : Nat) (m : List (Nat × BitVec w)) : Prop := ∀ i, i < n → (readCell m i).isSome = true

/-- `W` is the image in CALMEM: big-endian 16-bit words, every byte of them written (20_memory.md R77). -/
structure ImageIs (s : State) (W : List Half) : Prop where
  len : W.length = s.cfg.calWords
  words : ∀ k, k < s.cfg.calWords →
    ∃ hi lo : Byte, readCell s.mem.cal (2 * k) = some hi ∧ readCell s.mem.cal (2 * k + 1) = some lo ∧
      W[k]? = some (hi ++ lo)

/-- `x` is the number the finite pattern `a` stands for (00_scope.md R15). -/
def IsValue (a : F32) (x : ℝ) : Prop :=
  ∃ neg m e, f32Val a = .fin neg m e ∧ x = (if neg = true then -1 else 1) * (m : ℝ) * (2 : ℝ) ^ e

/-- `r` is `x` rounded once, to nearest with ties to even; past the largest finite number by half a unit or more, an infinity
(00_scope.md R15, 43_convert.md R251, R253). -/
def RoundsTo (x : ℝ) (r : F32) : Prop :=
  (|x| < 2 ^ 128 - 2 ^ 103 ∧
    ∃ v, IsValue r v ∧ ∀ r' v', IsValue r' v' →
      |v - x| < |v' - x| ∨ (|v - x| = |v' - x| ∧ (v' = v ∨ r.getLsbD 0 = false))) ∨
  (2 ^ 128 - 2 ^ 103 ≤ |x| ∧ (x < 0 → f32Val r = .inf true) ∧ (0 < x → f32Val r = .inf false))

end Sys2Proof.Machine
end

