-- ==== Sys2Proof/Certificates/Slice0/Obligations.lean ====
section
/-! DEFINITION. The statements for the provers. Each docstring names the rules of spec/ it formalises and, where a clause rests on a
choice of the model, the log entry. -/

open Sys2Proof Sys2Proof.Machine

namespace Sys2Proof.Claims

/-! Words the statements share, written from the rules, not from the model's operations. -/

/-- The normal end of a command with its two results (00_scope.md R16, 10_state.md R36); everything else as it was. -/
def ended (s : State) (r0 r1 : Word) : State :=
  { s with res0 := r0, res1 := r1, done := true, err := false, busy := false }

/-- The error entry with the code and the information given as numbers (60_exceptions.md R318); everything else as it was. -/
def failed (s : State) (code : BitVec 8) (info : Word) : State :=
  { s with
    errCode := code, errInfo := info, res0 := 0, res1 := 0, err := true, done := false, errSticky := true, busy := false }

/-- The start of a command by the word `w` (10_state.md R36, R37). -/
def started (s : State) (w : Word) : State :=
  { s with cmd := w, busy := true, done := false, err := false, errCode := 0, errInfo := 0 }

/-- The opcodes of 30_encoding.md R103. -/
def opcodes : List Byte := [0x00#8, 0x01#8, 0x02#8, 0x10#8, 0x20#8, 0x21#8, 0x22#8, 0x23#8, 0x30#8, 0x7F#8]

/-- `OPC` listed and `Z` zero (30_encoding.md R104). -/
def legalWord (w : Word) : Prop := w.extractLsb' 12 4 = 0#4 ∧ w.extractLsb' 0 8 ∈ opcodes

/-- The host accesses that read (10_state.md R34, 20_memory.md R70). -/
def isRead : HostAction → Bool
  | .readCsr _ => true
  | .readOut _ => true
  | .readGeo _ => true
  | .readFlag _ => true
  | .writeCsr _ _ => false
  | .writeCal _ _ => false
  | .writeRaw _ _ => false
  | .hardReset => false

/-- The next access of the host starts the command `i`. -/
def startsNext (s : State) (i : Instr) : Prop :=
  ∃ w rest, s.inbox = .writeCsr 0 w :: rest ∧ decode w = .ok i

/-- The next access of the host is the hardware reset. -/
def resetsNext (s : State) : Prop := ∃ rest, s.inbox = .hardReset :: rest

/-- Payload of an image word: its low eleven bits (40_ecc.md R130). -/
def payloadOf (w : Half) : Payload := w.extractLsb' 0 11

/-- Words `0 .. i-1` of an image decode. -/
def decodesBelow (W : List Half) (i : Nat) : Prop := ∀ k, k < i → ∀ x, W[k]? = some x → ∀ S, eccdec x ≠ .err S

/-- CAL.LOAD gets as far as the ECC pass on the image `W` (41_calibration.md R162 to R164). -/
structure Loads (s : State) (W : List Half) : Prop where
  free : s.calset = none
  length : s.arg0.toNat = s.cfg.calBytes
  image : ImageIs s W

/-- A frame that CVT.SUBPAGE converts: calibration present, lengths right, status word `st` ready and of a subpage the pattern has, auxiliary
words `x` (43_convert.md R255 to R259). -/
structure Converts (s : State) (ap : AccessPattern) (c : CalSet) (st : Half) (x : RawAux) : Prop where
  calibrated : s.calset = some c
  outLen : s.arg0.toNat = s.cfg.npix
  status : readCell s.mem.raw 0 = some st
  subpage : (st.extractLsb' 0 3).toNat < s.cfg.nsub ap
  ready : st.getLsbD 3 = true
  rawLen : s.arg1.toNat = nmem s.cfg (st.extractLsb' 0 3).toNat ap
  taVbe : readCell s.mem.raw 1 = some x.taVbe
  taPtat : readCell s.mem.raw 2 = some x.taPtat
  gain : readCell s.mem.raw 3 = some x.gain
  vddPix : readCell s.mem.raw 4 = some x.vddPix
  cp : readCell s.mem.raw 5 = some x.cp
  /-- The raw word of every member pixel is written (70_reset_and_hazards.md R357). -/
  words : ∀ p, p < s.cfg.npix → spOf s.cfg ap p = (st.extractLsb' 0 3).toNat →
    (readCell s.mem.raw (8 + rank s.cfg (st.extractLsb' 0 3).toNat ap p)).isSome = true

/-- The extraction primitives of 41_calibration.md R181 over the payload array `P`, by the bits of its words: `U` is the field as bits, `Sg` its
two's complement, `HL` five bits above eleven. -/
structure ExtractsFields (P : List Payload) : Prop where
  u : ∀ i hi lo x, P[i]? = some x → lo ≤ hi → hi ≤ 10 →
    ∀ k, (fieldU P i hi lo).testBit k = (decide (lo + k ≤ hi) && x.getLsbD (lo + k))
  s : ∀ i hi lo x, P[i]? = some x → lo ≤ hi → hi ≤ 10 →
    fieldS P i hi lo = (fieldU P i hi lo : Int) - if x.getLsbD hi = true then 2 ^ (hi - lo + 1) else 0
  u11 : ∀ i x, P[i]? = some x → fieldU11 P i = x.toNat
  s11 : ∀ i x, P[i]? = some x → fieldS11 P i = (x.toNat : Int) - if 1024 ≤ x.toNat then 2048 else 0
  uhl : ∀ i x y, P[i]? = some x → P[i + 1]? = some y → fieldUHL P i = x.toNat % 32 * 2048 + y.toNat
  shl : ∀ i x y, P[i]? = some x → P[i + 1]? = some y →
    fieldSHL P i = (fieldUHL P i : Int) - if 32768 ≤ fieldUHL P i then 65536 else 0

end Sys2Proof.Claims

open Sys2Proof.Claims

/-! ## Encoding -/

/-- Decode of encode is the command, for every command and every value of its fields (30_encoding.md R101, R103). -/
def Obligations.CommandsRoundTrip : Prop :=
  ∀ i : Instr, decode (encode i) = .ok i ∧ decodeTableWord 32 (encode i).toNat = some i

/-- 30_encoding.md R102: what a command does not use is ignored; the opcode bits select the command; GEO.CONST uses `AP` for selector 17
only (42_geometry.md R222). -/
def Obligations.UnusedFieldsAreIgnored : Prop :=
  (∀ w w' i, decode w = .ok i → w' &&& i.usedBits = w &&& i.usedBits → decode w' = .ok i) ∧
  (∀ w w' i, decode w = .ok i → w' &&& 0x0000F0FF#32 = w &&& 0x0000F0FF#32 →
    ∃ j, decode w' = .ok j ∧ j.opcode = i.opcode) ∧
  (∀ idx ap ap' s, idx.toNat ≠ 17 → exec (.geoConst idx ap) s = exec (.geoConst idx ap') s)

/-- 30_encoding.md R111, the worked encodings: the register writes of the assembler lines, the commands the words start, and the two
illegal words. -/
def Obligations.WorkedEncodings : Prop :=
  assemble Cfg.VT (.eccDec 0x9801#32 5#16) = [.writeCsr 1 0x00009801#32, .writeCsr 0 0x00050001#32] ∧
  decode 0x00050001#32 = .ok (.eccDec 5#16) ∧
  assemble Cfg.VT (.geoMember 1#1 .chess) = [.writeCsr 0 0x00000321#32] ∧
  decode 0x00000321#32 = .ok (.geoMember 1#1 .chess) ∧
  assemble Cfg.VT (.geoConst 2#16 .interleaved) = [.writeCsr 0 0x00020020#32] ∧
  decode 0x00020020#32 = .ok (.geoConst 2#16 .interleaved) ∧
  assemble Cfg.VT (.cvtSubpage .chess 2#2 8#32 4#32) =
    [.writeCsr 1 8#32, .writeCsr 2 4#32, .writeCsr 0 0x00000930#32] ∧
  decode 0x00000930#32 = .ok (.cvtSubpage .chess 2#2) ∧
  decode 0x00001001#32 = .error .reservedBits ∧
  decode 0x00000003#32 = .error .unlistedOpcode

/-- 30_encoding.md R104: a word with `Z` not 0 or an unlisted opcode does nothing but raise IllegalCommand; every other word starts a
command; 246 opcodes are unlisted; SYS.NOP alone has no effect besides the life cycle. -/
def Obligations.IllegalWordsOnlyRaise : Prop :=
  (∀ s w, s.busy = false → ¬ legalWord w →
    perform (.writeCsr 0 w) s = .next (failed (started s w) 8 (0#16 ++ w.extractLsb' 0 16))) ∧
  (∀ s w, s.busy = false → legalWord w →
    ∃ i, decode w = .ok i ∧ perform (.writeCsr 0 w) s = exec i (started s w)) ∧
  ((List.range 256).filter fun n => BitVec.ofNat 8 n ∉ opcodes).length = 246 ∧
  (∀ s, exec .sysNop s = .next (ended s 0 0)) ∧
  (∀ i, i ≠ .sysNop → ∃ s, exec i s ≠ .next (ended s 0 0))

/-! ## Starting and ending a command -/

/-- A step whose next access is a write of `CMD` that decodes runs exec of the decoded command on the started state; with no access left the
block is idle (10_state.md R36, 60_exceptions.md R333; the inbox is the model's, log 3). -/
def Obligations.StepRunsDecodedCommand : Prop :=
  (∀ s w i rest, s.busy = false → s.inbox = .writeCsr 0 w :: rest → decode w = .ok i →
    step s = exec i (started { s with inbox := rest } w)) ∧
  (∀ s nbits w i, decodeTableWord nbits w = some i →
    step (s.withFetchWord nbits w) = exec i (started s (BitVec.ofNat 32 (w % 2 ^ nbits)))) ∧
  (∀ s, s.inbox = [] → step s = .next s)

/-- 10_state.md R36, the life cycle: an ignored write while busy; otherwise the started state runs the command; it ends not busy, with exactly
one of DONE and ERR, and with a clear error state when done. -/
def Obligations.CommandLifeCycle : Prop :=
  (∀ s w, s.busy = true → perform (.writeCsr 0 w) s = .next s) ∧
  (∀ s w i, s.busy = false → decode w = .ok i → perform (.writeCsr 0 w) s = exec i (started s w)) ∧
  (∀ s w t, s.busy = false → perform (.writeCsr 0 w) s = .next t →
    t.busy = false ∧ ((t.done = true ∧ t.err = false ∧ t.errCode = 0 ∧ t.errInfo = 0) ∨ (t.done = false ∧ t.err = true)))

/-- 10_state.md R37: `CMD` reads back the last value that started a command; after SYS.RESET it reads 0x0000007F, also where the word had unused bits set
(R62, 90_conflicts.md C9). The clause on the hardware reset is R60's. That the value read appears in `reply` is the model's (log 5). -/
def Obligations.CmdReadsBack : Prop :=
  (∀ s w t, perform (.writeCsr 0 w) s = .next t →
    t.cmd = if s.busy then s.cmd else if decode w = .ok .sysReset then 0x0000007F#32 else w) ∧
  (∀ s a t, perform a s = .next t → (∀ w, a ≠ .writeCsr 0 w) → a ≠ .hardReset → t.cmd = s.cmd) ∧
  (∀ s t, perform .hardReset s = .next t → t.cmd = 0) ∧
  ∀ s : State, perform (.readCsr 0) s = .next { s with reply := .data s.cmd }

/-- 10_state.md R34: the CSR file, its reads, its writes and its reset column. That the value read appears in `reply` is the
model's (log 5). -/
def Obligations.CsrFile : Prop :=
  (∀ s n, perform (.readCsr n) s = .next { s with reply := .data (s.csrRead n) }) ∧
  (∀ s : State, s.csrRead 0 = s.cmd ∧ s.csrRead 1 = s.arg0 ∧ s.csrRead 2 = s.arg1 ∧ s.csrRead 3 = s.statusWord ∧
    s.csrRead 4 = 0#24 ++ s.errCode ∧ s.csrRead 5 = s.errInfo ∧ s.csrRead 6 = s.res0 ∧ s.csrRead 7 = s.res1 ∧
    s.csrRead 8 = BitVec.ofNat 32 s.cfg.variant.val ∧ s.csrRead 9 = 0#16 ++ s.corrCnt) ∧
  (∀ (s : State) n, 10 ≤ n → s.csrRead n = 0) ∧
  (∀ s w i, s.busy = false → decode w = .ok i → perform (.writeCsr 0 w) s = exec i (started s w)) ∧
  (∀ s v, perform (.writeCsr 1 v) s = .next { s with arg0 := v }) ∧
  (∀ s v, perform (.writeCsr 2 v) s = .next { s with arg1 := v }) ∧
  (∀ s n v, 3 ≤ n → perform (.writeCsr n v) s = .next s) ∧
  (∀ c n, (State.resetOf c).csrRead n = if n = 8 then BitVec.ofNat 32 c.record.variant.val else 0)

/-- The places of the fields of `STATUS` and its reserved bits (10_state.md R35). -/
def Obligations.StatusWordLayout : Prop :=
  ∀ s : State,
    s.statusWord.getLsbD 0 = s.busy ∧ s.statusWord.getLsbD 1 = s.done ∧ s.statusWord.getLsbD 2 = s.err ∧
    s.statusWord.getLsbD 3 = s.calset.isSome ∧ s.statusWord.getLsbD 4 = decide (s.corrCnt ≠ 0) ∧
    s.statusWord.getLsbD 5 = s.fallback ∧ s.statusWord.extractLsb' 6 2 = s.seen ∧
    s.statusWord.getLsbD 8 = decide (s.lastAp = .chess) ∧ s.statusWord.getLsbD 9 = s.errSticky ∧
    s.statusWord.extractLsb' 10 22 = 0 ∧ (∀ c, (State.resetOf c).statusWord = 0)

/-! ## What a command may write, and what it may not read -/

/-- The frame of every command: what its row of the table does not name stays, down to the cells of GEOMEM and OUTMEM (20_memory.md R80;
10_state.md R31, R40, R46, R53; 41_calibration.md R170). `CMD` stays under every command but SYS.RESET, whose row is all CSRs. `inbox`, `reply`
and `epoch` are the model's fields (logs 3, 5, 7), and so is `cfg` in the state (log 1). -/
def Obligations.CommandsWriteOnlyTheirRow : Prop :=
  ∀ i s t, exec i s = .next t →
    (t.cfg = s.cfg ∧ t.inbox = s.inbox ∧ t.reply = s.reply ∧ t.epoch = s.epoch) ∧
    (i ≠ .sysReset → t.cmd = s.cmd) ∧
    (t.mem.cal = s.mem.cal ∧ t.mem.raw = s.mem.raw) ∧
    ((∀ ap res, i ≠ .cvtSubpage ap res) → t.mem.out = s.mem.out) ∧
    (∀ ap res, i = .cvtSubpage ap res → ∀ p,
      ¬ (p < s.cfg.npix ∧ ∃ st : Half, readCell s.mem.raw 0 = some st ∧ spOf s.cfg ap p = (st.extractLsb' 0 3).toNat) →
        readCell t.mem.out p = readCell s.mem.out p) ∧
    ((∀ sp ap, i ≠ .geoMember sp ap ∧ i ≠ .geoRanges sp ap) → t.mem.geo = s.mem.geo) ∧
    (∀ sp ap, i = .geoMember sp ap → ∀ j, (s.cfg.npix + 15) / 16 ≤ j → readCell t.mem.geo j = readCell s.mem.geo j) ∧
    (∀ sp ap, i = .geoRanges sp ap → ∀ j, 2 * (spans s.cfg sp.toNat ap).length ≤ j →
      readCell t.mem.geo j = readCell s.mem.geo j) ∧
    (i ≠ .sysReset → t.arg0 = s.arg0 ∧ t.arg1 = s.arg1) ∧
    (i ≠ .calLoad → i ≠ .sysReset → t.calset = s.calset ∧ t.fallback = s.fallback) ∧
    ((∀ tag, i ≠ .eccDec tag) → i ≠ .calLoad → i ≠ .sysReset → t.corrCnt = s.corrCnt) ∧
    ((∀ ap res, i ≠ .cvtSubpage ap res) → i ≠ .sysReset → t.seen = s.seen ∧ t.lastAp = s.lastAp) ∧
    (i ≠ .sysReset → t.err = false → t.errCode = s.errCode ∧ t.errInfo = s.errInfo ∧ t.errSticky = s.errSticky)

/-- 10_state.md R46 over every step: CAL_VALID is 0 at reset, becomes 1 only in a CAL.LOAD that completes without error, and then neither it nor
CALSET changes until reset or SYS.RESET; CAL.LOAD is refused while it is 1. What the next access is stands in the model's inbox (log 3). -/
def Obligations.CalibrationIsWrittenOnce : Prop :=
  (∀ c, (State.resetOf c).calset = none) ∧
  (∀ s t c, step s = .next t → s.calset = none → t.calset = some c →
    startsNext s .calLoad ∧ t.done = true ∧ t.err = false) ∧
  (∀ s t c, step s = .next t → s.calset = some c →
    t.calset = some c ∨ (t.calset = none ∧ (resetsNext s ∨ startsNext s .sysReset))) ∧
  (∀ s c, s.calset = some c → ∃ t, exec .calLoad s = .next t ∧ t.err = true ∧ t.calset = some c)

/-- 10_state.md R39: `VARIANT`, and with it the whole record, is a constant of the instance. -/
def Obligations.VariantIsConstant : Prop :=
  ∀ s t, step s = .next t → t.csrRead 8 = s.csrRead 8 ∧ t.cfg = s.cfg

/-- Who writes `SEEN` and `LAST_AP`, their reset values and their place in `STATUS` (10_state.md R53; the inbox is the model's, log 3). -/
def Obligations.TrackingHasThreeWriters : Prop :=
  (∀ s t, step s = .next t → ¬ (t.seen = s.seen ∧ t.lastAp = s.lastAp) →
    (∃ ap res, startsNext s (.cvtSubpage ap res)) ∨ startsNext s .sysReset ∨ resetsNext s) ∧
  (∀ s t, step s = .next t → s.busy = false → (startsNext s .sysReset ∨ resetsNext s) →
    t.seen = 0 ∧ t.lastAp = .interleaved) ∧
  (∀ s : State, s.statusWord.extractLsb' 6 3 = apBit s.lastAp ++ s.seen)

/-- 10_state.md R40: CORRCNT, its place, the flag CORRECTED, and its value after each command. -/
def Obligations.CorrCntCountsCorrectedWords : Prop :=
  (∀ s : State, (s.csrRead 9).extractLsb' 16 16 = 0 ∧ (s.csrRead 9).extractLsb' 0 16 = s.corrCnt ∧
    s.statusWord.getLsbD 4 = decide (s.corrCnt ≠ 0)) ∧
  (∀ tag s t, exec (.eccDec tag) s = .next t →
    t.corrCnt = if 16 ≤ (syndrome (s.arg0.extractLsb' 0 16)).toNat then 1 else 0) ∧
  (∀ s t, exec .calLoad s = .next t → (s.calset ≠ none ∨ s.arg0.toNat ≠ s.cfg.calBytes) → t.corrCnt = 0) ∧
  (∀ s t W, exec .calLoad s = .next t → Loads s W →
    (decodesBelow W W.length → t.corrCnt.toNat = (W.filter fun w => 16 ≤ (syndrome w).toNat).length) ∧
    (¬ decodesBelow W W.length → t.corrCnt = 0)) ∧
  (∀ i s t, exec i s = .next t → (∀ tag, i ≠ .eccDec tag) → i ≠ .calLoad → i ≠ .sysReset → t.corrCnt = s.corrCnt)

/-- 60_exceptions.md R319: ERR_STICKY is set by every error, cleared only by the resets, and read by no command. -/
def Obligations.ErrStickyAccumulates : Prop :=
  (∀ s w t, s.busy = false → perform (.writeCsr 0 w) s = .next t →
    (decode w = .ok .sysReset → t.errSticky = false) ∧
    (decode w ≠ .ok .sysReset → t.errSticky = (s.errSticky || t.err))) ∧
  (∀ s a t, perform a s = .next t → (∀ w, a ≠ .writeCsr 0 w) → a ≠ .hardReset → t.errSticky = s.errSticky) ∧
  (∀ s t, perform .hardReset s = .next t → t.errSticky = false) ∧
  (∀ i s t b, exec i s = .next t →
    ∃ t', exec i { s with errSticky := b } = .next t' ∧ { t' with errSticky := t.errSticky } = t)

/-- No command reads CORRECTED, FALLBACK or ERR_STICKY: only those three can differ afterwards (10_state.md R41). -/
def Obligations.DiagnosticsAreNeverRead : Prop :=
  ∀ i s t (b f : Bool) (n : Half), exec i s = .next t →
    ∃ t', exec i { s with errSticky := b, fallback := f, corrCnt := n } = .next t' ∧
      { t' with errSticky := t.errSticky, fallback := t.fallback, corrCnt := t.corrCnt } = t

/-! ## Buffers -/

/-- 20_memory.md R70, R73, R81, R85: a read changes nothing but the reply (log 5) and can be repeated; a read of an OUTMEM or GEOMEM cell answers the value
last written there, the 16-bit cell zero-extended (log 5), and some value where nothing was written (log 7); a write is of one whole cell. -/
def Obligations.AccessesAreOfWholeCells : Prop :=
  (∀ s a t, isRead a = true → perform a s = .next t → t = { s with reply := t.reply } ∧ perform a t = .next t) ∧
  (∀ s i b, i < s.cfg.calBytes → ∃ m, perform (.writeCal i b) s = .next { s with mem := { s.mem with cal := m } } ∧
    ∀ j, readCell m j = if j = i then some b else readCell s.mem.cal j) ∧
  (∀ s i h, i < 8 + s.cfg.npix → ∃ m, perform (.writeRaw i h) s = .next { s with mem := { s.mem with raw := m } } ∧
    ∀ j, readCell m j = if j = i then some h else readCell s.mem.raw j) ∧
  (∀ s i, i < s.cfg.npix → ∃ v : Word, perform (.readOut i) s = .next { s with reply := .data v } ∧
    ∀ x, readCell s.mem.out i = some x → v = x) ∧
  (∀ s i, i < s.cfg.npix + 2 → ∃ v : Half, perform (.readGeo i) s = .next { s with reply := .data (0#16 ++ v) } ∧
    ∀ x, readCell s.mem.geo i = some x → v = x)

/-- 20_memory.md R76: FLAGMEM shows the failed, then the outlier bitmap, and is refused while CAL_VALID is 0. That the value read appears in `reply`
is the model's (log 5). -/
def Obligations.FlagMemShowsTheBitmaps : Prop :=
  ∀ s j, j < 2 * ((s.cfg.npix + 15) / 16) →
    (s.calset = none → perform (.readFlag j) s = .next { s with reply := .refused }) ∧
    ∀ c, s.calset = some c → ∃ v : Half, perform (.readFlag j) s = .next { s with reply := .data (0#16 ++ v) } ∧
      ∀ i, i < 16 →
        (j < (s.cfg.npix + 15) / 16 → v.getLsbD i = (decide (16 * j + i < s.cfg.npix) && c.failedAt (16 * j + i))) ∧
        ((s.cfg.npix + 15) / 16 ≤ j →
          v.getLsbD i = (decide (16 * (j - (s.cfg.npix + 15) / 16) + i < s.cfg.npix) &&
            c.outlierAt (16 * (j - (s.cfg.npix + 15) / 16) + i)))

/-- No command hangs or is refused by the model, and the one way it has no result is a CALMEM or RAWMEM cell it reads and nothing has written
(00_scope.md R24, 20_memory.md R78, 70_reset_and_hazards.md R357); each cell R357 names does fault when unwritten. Which unwritten cell the fault names, where there are several,
is the model's (log 6). -/
def Obligations.OnlyUnwrittenCellsFault : Prop :=
  (∀ i s r, exec i s ≠ .refused r) ∧
  (∀ i s f, exec i s = .fault f →
    (i = .calLoad ∧ ∃ k, k < s.cfg.calBytes ∧ readCell s.mem.cal k = none ∧ f = .unwrittenCell .calMem k) ∨
    (∃ ap res, i = .cvtSubpage ap res ∧
      ∃ k, k < 8 + s.cfg.npix ∧ k ≠ 6 ∧ k ≠ 7 ∧ readCell s.mem.raw k = none ∧ f = .unwrittenCell .rawMem k)) ∧
  (∀ s, s.calset = none → s.arg0.toNat = s.cfg.calBytes → ¬ allWritten s.cfg.calBytes s.mem.cal →
    ∃ f, exec .calLoad s = .fault f) ∧
  (∀ s ap res c, s.calset = some c → s.arg0.toNat = s.cfg.npix → readCell s.mem.raw 0 = none →
    exec (.cvtSubpage ap res) s = .fault (.unwrittenCell .rawMem 0)) ∧
  (∀ s ap res c st k, s.calset = some c → s.arg0.toNat = s.cfg.npix → readCell s.mem.raw 0 = some st →
    (st.extractLsb' 0 3).toNat < s.cfg.nsub ap → st.getLsbD 3 = true →
    s.arg1.toNat = nmem s.cfg (st.extractLsb' 0 3).toNat ap →
    ((1 ≤ k ∧ k ≤ 5) ∨ (8 ≤ k ∧ k < 8 + nmem s.cfg (st.extractLsb' 0 3).toNat ap)) → readCell s.mem.raw k = none →
    ∃ f, exec (.cvtSubpage ap res) s = .fault f)

/-! ## ECC -/

/-- 40_ecc.md R133 with the bits each check covers, and R134's table of recognised syndromes. -/
def Obligations.SyndromeTable : Prop :=
  (∀ w : Half,
    (syndrome w).getLsbD 0 = (w.getLsbD 0 ^^ w.getLsbD 1 ^^ w.getLsbD 3 ^^ w.getLsbD 4 ^^ w.getLsbD 6 ^^
      w.getLsbD 8 ^^ w.getLsbD 10 ^^ w.getLsbD 11) ∧
    (syndrome w).getLsbD 1 = (w.getLsbD 0 ^^ w.getLsbD 2 ^^ w.getLsbD 3 ^^ w.getLsbD 5 ^^ w.getLsbD 6 ^^
      w.getLsbD 9 ^^ w.getLsbD 10 ^^ w.getLsbD 12) ∧
    (syndrome w).getLsbD 2 = (w.getLsbD 1 ^^ w.getLsbD 2 ^^ w.getLsbD 3 ^^ w.getLsbD 7 ^^ w.getLsbD 8 ^^
      w.getLsbD 9 ^^ w.getLsbD 10 ^^ w.getLsbD 13) ∧
    (syndrome w).getLsbD 3 = (w.getLsbD 4 ^^ w.getLsbD 5 ^^ w.getLsbD 6 ^^ w.getLsbD 7 ^^ w.getLsbD 8 ^^
      w.getLsbD 9 ^^ w.getLsbD 10 ^^ w.getLsbD 14) ∧
    (syndrome w).getLsbD 4 = (w.getLsbD 0 ^^ w.getLsbD 1 ^^ w.getLsbD 2 ^^ w.getLsbD 3 ^^ w.getLsbD 4 ^^
      w.getLsbD 5 ^^ w.getLsbD 6 ^^ w.getLsbD 7 ^^ w.getLsbD 8 ^^ w.getLsbD 9 ^^ w.getLsbD 10 ^^ w.getLsbD 11 ^^
      w.getLsbD 12 ^^ w.getLsbD 13 ^^ w.getLsbD 14 ^^ w.getLsbD 15)) ∧
  ((List.range' 16 16).map fun n => (eccPos (BitVec.ofNat 5 n)).toNat) =
    [15, 11, 12, 0, 13, 1, 2, 3, 14, 4, 5, 6, 7, 8, 9, 10] ∧
  (∀ w i, syndrome w = 0 → i < 16 →
    16 ≤ (syndrome (w ^^^ (1#16 <<< i))).toNat ∧ (eccPos (syndrome (w ^^^ (1#16 <<< i)))).toNat = i)

/-- 40_ecc.md R140: the bits of the encoded word; it is the unique code word with its payload. -/
def Obligations.EncoderGivesTheUniqueCodeWord : Prop :=
  ∀ p : Payload,
    payloadOf (eccenc p) = p ∧
    (eccenc p).getLsbD 11 = par (p.setWidth 16 &&& 0x55B#16) ∧
    (eccenc p).getLsbD 12 = par (p.setWidth 16 &&& 0x66D#16) ∧
    (eccenc p).getLsbD 13 = par (p.setWidth 16 &&& 0x78E#16) ∧
    (eccenc p).getLsbD 14 = par (p.setWidth 16 &&& 0x7F0#16) ∧
    (eccenc p).getLsbD 15 = par (eccenc p &&& 0x7FFF#16) ∧
    syndrome (eccenc p) = 0 ∧
    ∀ w, syndrome w = 0 → payloadOf w = p → w = eccenc p

/-- 40_ecc.md R142: single flips are corrected, double flips detected, the encoder is linear, the code has distance 4. -/
def Obligations.CodeCorrectsOneDetectsTwo : Prop :=
  (∀ p, ∃ pos S, eccdec (eccenc p) = .ok p false pos S) ∧
  (∀ p (i : Fin 16), ∃ S, eccdec (eccenc p ^^^ (1#16 <<< i.val)) = .ok p true (BitVec.ofNat 4 i.val) S) ∧
  (∀ p (i j : Fin 16), i ≠ j → ∃ S, eccdec (eccenc p ^^^ (1#16 <<< i.val) ^^^ (1#16 <<< j.val)) = .err S) ∧
  (∀ p q, eccenc (p ^^^ q) = eccenc p ^^^ eccenc q) ∧
  (∀ v w : Half, syndrome v = 0 → syndrome w = 0 → v ≠ w →
    4 ≤ ((List.range 16).filter fun i => (v ^^^ w).getLsbD i).length)

/-- 40_ecc.md R136 with the three cases of `eccdec` (R135), and R138: on an error no payload leaves. The bits above the word are
ignored. -/
def Obligations.EccDecDecodesOneWord : Prop :=
  ∀ s tag,
    (syndrome (s.arg0.extractLsb' 0 16) = 0 →
      exec (.eccDec tag) s =
        .next (ended { s with corrCnt := 0 } ((payloadOf (s.arg0.extractLsb' 0 16)).setWidth 32) 0)) ∧
    (16 ≤ (syndrome (s.arg0.extractLsb' 0 16)).toNat →
      exec (.eccDec tag) s =
        .next (ended { s with corrCnt := 1 }
          ((payloadOf (s.arg0.extractLsb' 0 16 ^^^
            (1#16 <<< (eccPos (syndrome (s.arg0.extractLsb' 0 16))).toNat))).setWidth 32)
          (((eccPos (syndrome (s.arg0.extractLsb' 0 16))).setWidth 32 <<< 16) ||| (1#32 <<< 8) |||
            (syndrome (s.arg0.extractLsb' 0 16)).setWidth 32))) ∧
    (1 ≤ (syndrome (s.arg0.extractLsb' 0 16)).toNat → (syndrome (s.arg0.extractLsb' 0 16)).toNat ≤ 15 →
      exec (.eccDec tag) s = .next (failed { s with corrCnt := 0 } 3 (s.arg0.extractLsb' 0 16 ++ tag)))

/-- 40_ecc.md R141: ECC.ENC, for every state. -/
def Obligations.EccEncEncodes : Prop :=
  ∀ s, exec .eccEnc s = .next (ended s (0#16 ++ eccenc (s.arg0.extractLsb' 0 11)) 0)

/-! ## Calibration -/

/-- 41_calibration.md R162 and R163: CalLocked while a CalibrationSet is held; a wrong length is InvalidData whatever CALMEM holds. -/
def Obligations.CalLoadRefusals : Prop :=
  (∀ s : State, s.calset ≠ none → exec .calLoad s = .next (failed { s with corrCnt := 0, fallback := false } 7 0)) ∧
  (∀ (s : State) cal, s.calset = none → s.arg0.toNat ≠ s.cfg.calBytes →
    exec .calLoad { s with mem := { s.mem with cal := cal } } =
      .next (failed { s with mem := { s.mem with cal := cal }, corrCnt := 0, fallback := false } 2 s.arg0))

/-- An image all of whose words decode and whose fields pass validation is stored, in one step, with everything else as it was but the
results, CORRCNT and FALLBACK (41_calibration.md R160, R167, R204). The payloads sliced are those the words decode to, in order, a word with a
recognised syndrome after its flip (R165, with 40_ecc.md R134, R135); so a bit flipped in any of the code words of an image changes nothing that
is stored (R167). -/
def Obligations.CalLoadStoresTheCalibration : Prop :=
  (∀ s W P n, Loads s W → eccpass W = .ok P n → validate s.cfg P = none →
    exec .calLoad s = .next (ended
      { s with corrCnt := BitVec.ofNat 16 n, fallback := false, calset := some (slice s.cfg P) }
      (0#16 ++ BitVec.ofNat 16 n) 0)) ∧
  (∀ W, decodesBelow W W.length → ∃ P n, eccpass W = .ok P n) ∧
  (∀ (W : List Half) P n, eccpass W = .ok P n →
    P.length = W.length ∧ n = (W.filter fun w => 16 ≤ (syndrome w).toNat).length ∧
    ∀ (i : Nat) w, W[i]? = some w → ∃ p, P[i]? = some p ∧ (∃ cr pos S, eccdec w = .ok p cr pos S) ∧
      (syndrome w = 0 → p = payloadOf w) ∧
      (syndrome w ≠ 0 → p = payloadOf (w ^^^ (1#16 <<< (eccPos (syndrome w)).toNat)))) ∧
  (∀ s b (W V : List Half) t, Loads s W → Loads b V → b.cfg = s.cfg → (∀ w ∈ W, syndrome w = 0) →
    (∀ (i : Nat) w, W[i]? = some w → V[i]? = some w ∨ ∃ k, k < 16 ∧ V[i]? = some (w ^^^ (1#16 <<< k))) →
    exec .calLoad s = .next t →
    ∃ u, exec .calLoad b = .next u ∧ u.calset = t.calset ∧ u.done = t.done ∧ u.err = t.err ∧
      (t.err = true → u.errCode = t.errCode ∧ u.errInfo = t.errInfo))

/-- 41_calibration.md R166, where the fallback is not available (R169): the first word that fails, with its index, ends the load and nothing
is stored. -/
def Obligations.FirstBadWordEndsTheLoad : Prop :=
  ∀ s W i w S, Loads s W → s.cfg.eccFallback = false → W[i]? = some w → eccdec w = .err S → decodesBelow W i →
    exec .calLoad s = .next (failed { s with corrCnt := 0, fallback := false } 3 (w ++ BitVec.ofNat 16 i))

/-- 41_calibration.md R170 to R173: where the fallback exists, a word that fails leads to the low eleven bits of every word, one more pass that cannot
fail, FALLBACK set, and validation as without it. -/
def Obligations.FallbackTakesBarePayloads : Prop :=
  (∀ W, eccpass (synthesized W) = .ok (W.map payloadOf) 0) ∧
  (∀ s W, Loads s W → s.cfg.eccFallback = true → ¬ decodesBelow W W.length →
    (validate s.cfg (W.map payloadOf) = none →
      exec .calLoad s = .next (ended
        { s with corrCnt := 0, fallback := true, calset := some (slice s.cfg (W.map payloadOf)) } 0 1)) ∧
    (∀ sub k, validate s.cfg (W.map payloadOf) = some (sub, k) →
      exec .calLoad s = .next (failed { s with corrCnt := 0, fallback := true } 4 (BitVec.ofNat 32 (256 * k + sub)))))

/-- 41_calibration.md R175: an image stripped of its check bits, loaded through the fallback, stores the CalibrationSet of the original. -/
def Obligations.StrippedImageLoadsTheSame : Prop :=
  ∀ s b W, Loads s W → Loads b (W.map fun w => w &&& 0x07FF#16) →
    b.cfg = { s.cfg with eccFallback := true } →
    (∀ w ∈ W, syndrome w = 0) → ¬ decodesBelow (W.map fun w => w &&& 0x07FF#16) W.length →
    ∃ t u, exec .calLoad s = .next t ∧ exec .calLoad b = .next u ∧ u.calset = t.calset ∧ u.fallback = true ∧
      u.done = t.done

/-- 41_calibration.md R198 to R202: the checks in their order, the sub-code and index of the first that fails, and the load when all
pass. -/
def Obligations.ValidationReportsTheFirstFailure : Prop :=
  ∀ s W P n, Loads s W → eccpass W = .ok P n →
    ((fieldU P 40 3 0 = 0 ∨ 8 < fieldU P 40 3 0) →
      exec .calLoad s = .next (failed { s with corrCnt := BitVec.ofNat 16 n, fallback := false } 4 1)) ∧
    (1 ≤ fieldU P 40 3 0 → fieldU P 40 3 0 ≤ 8 → fieldU P 40 7 4 ≠ fieldU P 40 3 0 - 1 →
      exec .calLoad s = .next (failed { s with corrCnt := BitVec.ofNat 16 n, fallback := false } 4 2)) ∧
    (1 ≤ fieldU P 40 3 0 → fieldU P 40 3 0 ≤ 8 → fieldU P 40 7 4 = fieldU P 40 3 0 - 1 →
      ∀ i, 1 ≤ i → i < fieldU P 40 7 4 → fieldS P (41 + i) 10 0 ≤ fieldS P (41 + (i - 1)) 10 0 →
        (∀ k, 1 ≤ k → k < i → fieldS P (41 + (k - 1)) 10 0 < fieldS P (41 + k) 10 0) →
        exec .calLoad s = .next
          (failed { s with corrCnt := BitVec.ofNat 16 n, fallback := false } 4 (BitVec.ofNat 32 (256 * i + 3)))) ∧
    (1 ≤ fieldU P 40 3 0 → fieldU P 40 3 0 ≤ 8 → fieldU P 40 7 4 = fieldU P 40 3 0 - 1 →
      (∀ k, 1 ≤ k → k < fieldU P 40 7 4 → fieldS P (41 + (k - 1)) 10 0 < fieldS P (41 + k) 10 0) →
      (fieldU P 40 3 0 ≤ s.cfg.btr →
        exec .calLoad s = .next (failed { s with corrCnt := BitVec.ofNat 16 n, fallback := false } 4 4)) ∧
      (s.cfg.btr < fieldU P 40 3 0 → ∃ t, exec .calLoad s = .next t ∧ t.done = true ∧ t.calset.isSome = true))

/-- 41_calibration.md R181, R185 to R189: the scalar fields and the band arrays, each by the formula of its rule over the payloads, and the
extraction primitives the formulas use. -/
def Obligations.ScalarFieldFormulas : Prop :=
  ∀ cfg P, ExtractsFields P ∧
    ((slice cfg P).resCal = BitVec.ofNat 2 (fieldU P 7 9 8) ∧
      (slice cfg P).gain = f32OfInt (fieldUHL P 19) ∧
      (slice cfg P).vPtat25 = f32OfInt (fieldUHL P 21) ∧
      (slice cfg P).ktPtat = f32Mul (f32OfInt (fieldS11 P 23)) (pow2 (-3)) ∧
      (slice cfg P).kvPtat = f32Mul (f32OfInt (fieldS11 P 24)) (pow2 (-12)) ∧
      (slice cfg P).alphaPtat = f32Mul (f32OfInt (fieldU11 P 25)) (pow2 (-7)) ∧
      (slice cfg P).vdd25 = f32Mul (f32OfInt (fieldS11 P 26)) (pow2 5) ∧
      (slice cfg P).kvdd = f32Mul (f32OfInt (fieldS11 P 27)) (pow2 5)) ∧
    ((slice cfg P).emis =
        (if payloadAt P 28 = 0x000#11 then none else some (f32Mul (f32OfInt (fieldS11 P 28)) (pow2 (-9)))) ∧
      (slice cfg P).tgc =
        (if payloadAt P 29 = 0x000#11 then none else some (f32Mul (f32OfInt (fieldS11 P 29)) (pow2 (-6)))) ∧
      (slice cfg P).ksta = f32Mul (f32OfInt (fieldS11 P 30)) (pow2 (-15))) ∧
    ((slice cfg P).offsetCp0Chess = f32OfInt (fieldSHL P 31) ∧
      (slice cfg P).offsetCp1Chess = f32OfInt (fieldSHL P 31 + fieldS11 P 33) ∧
      (slice cfg P).offsetCp0Interleaved =
        f32Add (slice cfg P).offsetCp0Chess (f32Mul (f32OfInt (fieldS11 P 34)) (pow2 (-4))) ∧
      (slice cfg P).offsetCp1Interleaved =
        f32Add (slice cfg P).offsetCp1Chess (f32Mul (f32OfInt (fieldS11 P 34)) (pow2 (-4))) ∧
      (slice cfg P).alphaCp0 = f32Mul (f32OfInt (fieldU11 P 35)) (pow2 (-(fieldU P 37 5 0 : Int))) ∧
      (slice cfg P).alphaCp1 = f32Mul (f32OfInt (fieldU11 P 36)) (pow2 (-(fieldU P 37 5 0 : Int))) ∧
      (slice cfg P).ktaCp = f32Mul (f32OfInt (fieldS11 P 38)) (pow2 (-(fieldU P 9 5 0 : Int))) ∧
      (slice cfg P).kvCp = f32Mul (f32OfInt (fieldS11 P 39)) (pow2 (-(fieldU P 10 5 0 : Int)))) ∧
    ((slice cfg P).ng = fieldU P 40 3 0 ∧ (slice cfg P).nct = fieldU P 40 7 4 ∧
      (∀ i, i < fieldU P 40 7 4 → (slice cfg P).ct[i]? = some (f32OfInt (fieldS11 P (41 + i)))) ∧
      (∀ b, b < fieldU P 40 3 0 →
        (slice cfg P).ksto[b]? = some (f32Mul (f32OfInt (fieldS11 P (48 + b))) (pow2 (-(fieldU P 8 10 6 : Int)))) ∧
        (slice cfg P).g[b]? = some (f32Mul (f32OfInt (fieldU11 P (56 + b))) (pow2 (-9)))))

/-- 41_calibration.md R181, R191 to R193, R195, R196: the array entries of every pixel, and the extraction primitives the formulas use. -/
def Obligations.PixelFieldFormulas : Prop :=
  ∀ (cfg : Cfg) P p, p < cfg.npix → ExtractsFields P ∧
    ∃ x : PixelCal, (slice cfg P).pix[p]? = some x ∧
      x.offset0 = f32OfInt (fieldSHL P 11 + fieldS11 P (64 + p) * 2 ^ fieldU P 7 3 0) ∧
      x.offset1 = f32OfInt (fieldSHL P 13 + fieldS11 P (64 + 3 * cfg.npix + p) * 2 ^ fieldU P 7 3 0) ∧
      x.alpha = f32Mul (f32OfInt ((fieldUHL P 15 : Int) + fieldS11 P (64 + cfg.npix + p) * 2 ^ fieldU P 7 7 4))
        (pow2 (-(fieldU P 8 5 0 : Int))) ∧
      x.kta = f32Mul (f32OfInt (fieldS11 P 17 + fieldS P (64 + 2 * cfg.npix + p) 10 5 * 2 ^ fieldU P 9 9 6))
        (pow2 (-(fieldU P 9 5 0 : Int))) ∧
      x.kv = f32Mul (f32OfInt (fieldS11 P 18 + fieldS P (64 + 2 * cfg.npix + p) 4 0 * 2 ^ fieldU P 10 9 6))
        (pow2 (-(fieldU P 10 5 0 : Int))) ∧
      (x.failed = true ↔ payloadAt P (64 + cfg.npix + p) = 0x400#11) ∧
      (x.outlier = true ↔ payloadAt P (64 + cfg.npix + p) ≠ 0x400#11 ∧
        (fieldS11 P (64 + cfg.npix + p) < -(cfg.outlierLim : Int) ∨
          (cfg.outlierLim : Int) < fieldS11 P (64 + cfg.npix + p)))

/-- 41_calibration.md R194: the multiplications by a power of two in the parser are exact, and so is the conversion of an integer of at most
24 bits. -/
def Obligations.ParserScalingIsExact : Prop :=
  ∀ n k : Int, n.natAbs < 2 ^ 26 → -5 ≤ k → k ≤ 63 →
    ∃ q : ℝ, IsValue (f32OfInt n) q ∧ IsValue (f32Mul (f32OfInt n) (pow2 (-k))) (q * (2 : ℝ) ^ (-k)) ∧
      (n.natAbs ≤ 2 ^ 24 → q = n)

/-- 41_calibration.md R205: CAL.LOAD is a function of cfg, ARG0, CALMEM and CAL_VALID, and repeating it after SYS.RESET gives the same
CALSET, CORRCNT and FALLBACK. -/
def Obligations.CalLoadIsDeterministic : Prop :=
  (∀ s s' t, s'.cfg = s.cfg → s'.arg0 = s.arg0 → s'.mem.cal = s.mem.cal → s'.calset.isSome = s.calset.isSome →
    exec .calLoad s = .next t →
    ∃ t', exec .calLoad s' = .next t' ∧ t'.err = t.err ∧ t'.done = t.done ∧ t'.res0 = t.res0 ∧ t'.res1 = t.res1 ∧
      t'.corrCnt = t.corrCnt ∧ t'.fallback = t.fallback ∧ (s.calset = none → t'.calset = t.calset) ∧
      (t.err = true → t'.errCode = t.errCode ∧ t'.errInfo = t.errInfo)) ∧
  (∀ s t u, s.calset = none → exec .calLoad s = .next t → exec .sysReset t = .next u →
    ∃ v, exec .calLoad { u with arg0 := s.arg0 } = .next v ∧ v.calset = t.calset ∧ v.corrCnt = t.corrCnt ∧
      v.fallback = t.fallback)

/-! ## Geometry -/

/-- 42_geometry.md R222: the eighteen constants, and IllegalCommand for every other selector. -/
def Obligations.GeoConstTable : Prop :=
  ∀ s idx ap,
    (∀ v, [BitVec.ofNat 32 s.cfg.height, BitVec.ofNat 32 s.cfg.width, BitVec.ofNat 32 s.cfg.npix,
        0#16 ++ s.cfg.taVbeAddr, 0#16 ++ s.cfg.taPtatAddr, 0#16 ++ s.cfg.gainAddr, 0#16 ++ s.cfg.vddPixAddr,
        0#16 ++ s.cfg.cpAddr0, 0#16 ++ s.cfg.cpAddr1, s.cfg.selfHeating, BitVec.ofNat 32 s.cfg.btr,
        0#16 ++ s.cfg.calBase, BitVec.ofNat 32 s.cfg.calWords, 0#16 ++ s.cfg.pixBase, 0#16 ++ s.cfg.statusAddr,
        BitVec.ofNat 32 s.cfg.variant.val, if s.cfg.eccFallback = true then 1#32 else 0#32,
        BitVec.ofNat 32 (s.cfg.nsub ap)][idx.toNat]? = some v →
      exec (.geoConst idx ap) s = .next (ended s v 0)) ∧
    (17 < idx.toNat → exec (.geoConst idx ap) s = .next (failed s 8 (0#16 ++ s.cmd.extractLsb' 0 16)))

/-- 42_geometry.md R227 and R228: the bitmap in GEOMEM bit by bit, the count, and every cell past it as it was. -/
def Obligations.GeoMemberWritesTheBitmap : Prop :=
  ∀ s sp ap, ∃ m,
    exec (.geoMember sp ap) s = .next (ended { s with mem := { s.mem with geo := m } }
      (BitVec.ofNat 32 ((List.range s.cfg.npix).filter fun p => spOf s.cfg ap p = sp.toNat).length) 0) ∧
    (∀ j, j < (s.cfg.npix + 15) / 16 → ∃ v : Half, readCell m j = some v ∧
      ∀ i, i < 16 →
        v.getLsbD i = (decide (16 * j + i < s.cfg.npix) && decide (spOf s.cfg ap (16 * j + i) = sp.toNat))) ∧
    (∀ j, (s.cfg.npix + 15) / 16 ≤ j → readCell m j = readCell s.mem.geo j)

/-- 42_geometry.md R225 and R229: the subpage of a pixel, and the partition of the index space. -/
def Obligations.SubpagesPartitionThePixels : Prop :=
  (∀ c ap p, c.nsub ap = 1 → spOf c ap p = 0) ∧
  (∀ c p, c.nsub .interleaved = 2 → spOf c .interleaved p = p / c.width % 2) ∧
  (∀ c p, c.nsub .chess = 2 → spOf c .chess p = (p / c.width + p % c.width) % 2) ∧
  (∀ c ap p, (member c 0 ap p = true ∧ member c 1 ap p = false) ∨ (member c 0 ap p = false ∧ member c 1 ap p = true)) ∧
  (∀ c ap, nmem c 0 ap + nmem c 1 ap = c.npix)

/-- 42_geometry.md R230: the member counts of the fixed records and of every record with two subpages. -/
def Obligations.MemberCounts : Prop :=
  (∀ sp : Fin 2, ∀ ap, nmem Cfg.VA sp.val ap = 96 ∧ nmem Cfg.VB sp.val ap = 96 ∧ nmem Cfg.VC sp.val ap = 384 ∧
    nmem Cfg.VT sp.val ap = 4) ∧
  (∀ c : Cfg, c.wf → c.nsub .interleaved = 2 → nmem c 0 .interleaved = (c.height + 1) / 2 * c.width) ∧
  (∀ c : Cfg, c.wf → c.nsub .chess = 2 → nmem c 0 .chess = (c.npix + 1) / 2)

/-- GEO.RANGES writes the span sequence, span `k` in words `2k` and `2k + 1`, and nothing past it (42_geometry.md R233, R234). Addresses and
lengths are cut to the 16 bits of a cell (log 18). -/
def Obligations.GeoRangesWritesTheSpans : Prop :=
  ∀ s sp ap, ∃ m,
    exec (.geoRanges sp ap) s = .next (ended { s with mem := { s.mem with geo := m } }
      (BitVec.ofNat 32 (spans s.cfg sp.toNat ap).length)
      (BitVec.ofNat 32 ((List.range s.cfg.npix).filter fun p => spOf s.cfg ap p = sp.toNat).length)) ∧
    (∀ k a l, (spans s.cfg sp.toNat ap)[k]? = some (a, l) →
      readCell m (2 * k) = some (BitVec.ofNat 16 a) ∧ readCell m (2 * k + 1) = some (BitVec.ofNat 16 l)) ∧
    (∀ j, 2 * (spans s.cfg sp.toNat ap).length ≤ j → readCell m j = readCell s.mem.geo j)

/-- 42_geometry.md R234 and R235: the words of the spans are the member addresses in ascending order, each span is a maximal run, the sequence fits
GEOMEM, and a member's position is its rank; R233's corner cases. -/
def Obligations.SpansAreMaximalRuns : Prop :=
  ∀ (c : Cfg) (sp : BitVec 1) ap,
    ((spans c sp.toNat ap).flatMap fun x => List.range' x.1 x.2) =
      ((List.range c.npix).filter fun p => spOf c ap p = sp.toNat).map (fun p => c.pixBase.toNat + p) ∧
    ((spans c sp.toNat ap).map fun x => x.2).sum = nmem c sp.toNat ap ∧
    (spans c sp.toNat ap).Pairwise (fun x y => x.1 + x.2 < y.1) ∧
    (∀ x ∈ spans c sp.toNat ap, 1 ≤ x.2) ∧
    2 * (spans c sp.toNat ap).length ≤ c.npix + 1 ∧
    (∀ p, p < c.npix → spOf c ap p = sp.toNat →
      ((spans c sp.toNat ap).flatMap fun x => List.range' x.1 x.2)[rank c sp.toNat ap p]? = some (c.pixBase.toNat + p)) ∧
    (c.nsub ap = 1 → sp = 1#1 → spans c sp.toNat ap = []) ∧
    (c.nsub ap = 1 → sp = 0#1 → 1 ≤ c.npix → spans c sp.toNat ap = [(c.pixBase.toNat, c.npix)])

/-- 42_geometry.md R243: the spans, expanded and mapped through PIXINDEX, are the set bits of the bitmap in ascending order; so for the span sequence of
every record, and for what the two commands leave in GEOMEM where the pixel window lies inside the 16-bit SENSOR space (20_memory.md R75). -/
def Obligations.SpansAgreeWithTheBitmap : Prop :=
  (∀ (c : Cfg) (sp : BitVec 1) ap,
    ((spans c sp.toNat ap).flatMap fun x => List.range' x.1 x.2).map (pixIndex c) =
      ((List.range (16 * ((c.npix + 15) / 16))).filter fun b =>
        ((memberWords c sp.toNat ap).getD (b / 16) 0).getLsbD (b % 16)).map some) ∧
  (∀ s sp ap t u, s.cfg.pixBase.toNat + s.cfg.npix ≤ 65536 →
    exec (.geoRanges sp ap) s = .next t → exec (.geoMember sp ap) s = .next u →
    ((List.range t.res0.toNat).flatMap fun k =>
        List.range' ((readCell t.mem.geo (2 * k)).getD 0).toNat ((readCell t.mem.geo (2 * k + 1)).getD 0).toNat).map
        (pixIndex s.cfg) =
      ((List.range (16 * ((s.cfg.npix + 15) / 16))).filter fun b =>
        ((readCell u.mem.geo (b / 16)).getD 0).getLsbD (b % 16)).map some)

/-- 42_geometry.md R238: GEO.RESCORR for every state, and the power of two for every pair of codes of the fixed records. -/
def Obligations.GeoRescorrGivesTheFactor : Prop :=
  (∀ s, exec .geoRescorr s =
    .next (ended s (rescorr s.cfg (s.arg0.extractLsb' 0 2) (s.arg1.extractLsb' 0 2)) 0)) ∧
  (∀ cal cur : BitVec 2, ∀ c ∈ [Cfg.VA, Cfg.VB, Cfg.VC, Cfg.VT, Cfg.VTF],
    rescorr c cal cur = pow2 ((cal.toNat : Int) - (cur.toNat : Int))) ∧
  (∀ cal cur : BitVec 2, [0x3E000000#32, 0x3E800000#32, 0x3F000000#32, 0x3F800000#32, 0x40000000#32, 0x40800000#32,
    0x41000000#32][(cal.toNat + 3) - cur.toNat]? = some (rescorr Cfg.VA cal cur))

/-- 42_geometry.md R223: every geometry command behaves under VB as under VA, but for selectors 15 and 16 of GEO.CONST. -/
def Obligations.SiblingVariantDelegates : Prop :=
  Cfg.VB = { Cfg.VA with variant := 1, eccFallback := true } ∧
  ∀ s i t, s.cfg = Cfg.VA →
    (i = .geoRescorr ∨ (∃ sp ap, i = .geoMember sp ap ∨ i = .geoRanges sp ap) ∨
      ∃ idx ap, i = .geoConst idx ap ∧ idx.toNat ≠ 15 ∧ idx.toNat ≠ 16) →
    exec i s = .next t → exec i { s with config := CheckedCfg.VB } = .next { t with config := CheckedCfg.VB }

/-- The geometry commands neither read nor write CALSET, RAWMEM, OUTMEM, SEEN or LAST_AP, and complete whether CAL_VALID is 0 or 1 (42_geometry.md R220). -/
def Obligations.GeometryIsIndependent : Prop :=
  ∀ i, (i = .geoRescorr ∨ (∃ idx ap, i = .geoConst idx ap) ∨ ∃ sp ap, i = .geoMember sp ap ∨ i = .geoRanges sp ap) →
    (∀ s, ∃ t, exec i s = .next t ∧ t.calset = s.calset ∧ t.mem.raw = s.mem.raw ∧ t.mem.out = s.mem.out ∧
      t.seen = s.seen ∧ t.lastAp = s.lastAp) ∧
    (∀ s t cal raw out seen ap, exec i s = .next t →
      exec i { s with calset := cal, mem := { s.mem with raw := raw, out := out }, seen := seen, lastAp := ap } =
        .next { t with calset := cal, mem := { t.mem with raw := raw, out := out }, seen := seen, lastAp := ap })

/-! ## Conversion -/

/-- 43_convert.md R256, R257 and R259: what CVT.SUBPAGE answers before it converts, in the order of its checks; only bits 3:0 of the status word
count. -/
def Obligations.ConversionChecksInOrder : Prop :=
  (∀ (s : State) ap res mem, s.calset = none →
    exec (.cvtSubpage ap res) { s with mem := mem } = .next (failed { s with mem := mem } 6 0)) ∧
  (∀ (s : State) ap res mem, s.calset ≠ none → s.arg0.toNat ≠ s.cfg.npix →
    exec (.cvtSubpage ap res) { s with mem := mem } = .next (failed { s with mem := mem } 2 s.arg0)) ∧
  (∀ (s : State) ap res st, s.calset ≠ none → s.arg0.toNat = s.cfg.npix → readCell s.mem.raw 0 = some st →
    (s.cfg.nsub ap ≤ (st.extractLsb' 0 3).toNat →
      exec (.cvtSubpage ap res) s = .next (failed s 5 (0#16 ++ st))) ∧
    ((st.extractLsb' 0 3).toNat < s.cfg.nsub ap → st.getLsbD 3 = false →
      exec (.cvtSubpage ap res) s = .next (ended s 2 0)) ∧
    ((st.extractLsb' 0 3).toNat < s.cfg.nsub ap → st.getLsbD 3 = true →
      s.arg1.toNat ≠ nmem s.cfg (st.extractLsb' 0 3).toNat ap →
      exec (.cvtSubpage ap res) s = .next (failed s 2 s.arg1)))

/-- The headline of the conversion: a ready frame of the right lengths is converted. Every member pixel's cell holds the sentinel or its temperature, by
its own raw word; every other cell, and all else but the tracking and the results, is as it was (43_convert.md R255, R280, R283 to R286). An outlier
flag changes nothing (R282). -/
def Obligations.ConvertsEveryMemberPixel : Prop :=
  ∀ s ap res c st x, Converts s ap c st x →
    ∃ m seen done,
      exec (.cvtSubpage ap res) s = .next (ended
        { s with mem := { s.mem with out := m }, seen := seen, lastAp := ap }
        (if done = true then 1 else 0) (BitVec.ofNat 32 (st.extractLsb' 0 3).toNat)) ∧
      (∀ p, p < s.cfg.npix → spOf s.cfg ap p = (st.extractLsb' 0 3).toNat →
        (c.failedAt p = true → readCell m p = some 0x7FC00000#32) ∧
        (c.failedAt p = false → ∀ raw,
          readCell s.mem.raw (8 + rank s.cfg (st.extractLsb' 0 3).toNat ap p) = some raw →
          ∀ flag, readCell m p = some (pixelStage c (shared s.cfg c (st.extractLsb' 0 3).toNat ap res x)
            (st.extractLsb' 0 3).toNat { c.pixAt p with outlier := flag } raw).temp)) ∧
      (∀ p, ¬ (p < s.cfg.npix ∧ spOf s.cfg ap p = (st.extractLsb' 0 3).toNat) →
        readCell m p = readCell s.mem.out p)

/-- 43_convert.md R260 to R265, R270, R274, R275 (shared) and R266 to R269, R271, R276, R277 (per pixel): every stage by the formula of its
rule, in the order of operations its rule writes; and which stored entry each array of CALSET gives at an index (10_state.md R49). -/
def Obligations.StageFormulas : Prop :=
  (∀ c : CalSet,
    c.offsetCp 0 .interleaved = c.offsetCp0Interleaved ∧ c.offsetCp 0 .chess = c.offsetCp0Chess ∧
    c.offsetCp 1 .interleaved = c.offsetCp1Interleaved ∧ c.offsetCp 1 .chess = c.offsetCp1Chess ∧
    c.alphaCp 0 = c.alphaCp0 ∧ c.alphaCp 1 = c.alphaCp1 ∧
    (∀ b v, c.ksto[b]? = some v → c.kstoAt b = v) ∧ (∀ b v, c.g[b]? = some v → c.gAt b = v) ∧
    (∀ p x, c.pix[p]? = some x → c.pixAt p = x)) ∧
  (∀ x : PixelCal, x.offset 0 = x.offset0 ∧ x.offset 1 = x.offset1) ∧
  (∀ (cfg : Cfg) (c : CalSet) (sp : Nat) (ap : AccessPattern) (res : BitVec 2) (x : RawAux) (S : Shared),
    S = shared cfg c sp ap res x →
    S.rc = rescorr cfg c.resCal res ∧
    S.dV = f32Div (f32Sub (f32Mul S.rc (f32OfInt x.vddPix.toInt)) c.vdd25) c.kvdd ∧
    S.den = f32Add (f32Mul (f32OfInt x.taPtat.toInt) c.alphaPtat) (f32OfInt x.taVbe.toInt) ∧
    S.vpa = f32Mul (f32Div (f32OfInt x.taPtat.toInt) S.den) 0x48800000#32 ∧
    S.ta = f32Add (f32Div (f32Sub (f32Div S.vpa (f32Add 0x3F800000#32 (f32Mul c.kvPtat S.dV))) c.vPtat25) c.ktPtat)
      0x41C80000#32 ∧
    S.kg = f32Div c.gain (f32OfInt x.gain.toInt) ∧
    S.dTa = f32Sub S.ta 0x41C80000#32 ∧
    S.cpg = f32Mul (f32OfInt x.cp.toInt) S.kg ∧
    S.cpo = f32Sub S.cpg (f32Mul (f32Mul (c.offsetCp sp ap) (f32Add 0x3F800000#32 (f32Mul c.ktaCp S.dTa)))
      (f32Add 0x3F800000#32 (f32Mul c.kvCp S.dV))) ∧
    S.kstaF = f32Add 0x3F800000#32 (f32Mul c.ksta S.dTa) ∧
    S.band = bandOf c S.ta ∧
    (∀ e, c.emis = some e → S.eps = e) ∧ (c.emis = none → S.eps = 0x3F733333#32) ∧
    S.taK = f32Add S.ta 0x43889333#32 ∧
    S.tr = f32Sub S.ta cfg.selfHeating ∧
    S.trK = f32Add S.tr 0x43889333#32 ∧
    S.taK4 = f32Mul (f32Mul S.taK S.taK) (f32Mul S.taK S.taK) ∧
    S.trK4 = f32Mul (f32Mul S.trK S.trK) (f32Mul S.trK S.trK) ∧
    S.taTr = f32Sub S.trK4 (f32Div (f32Sub S.trK4 S.taK4) S.eps)) ∧
  (∀ (c : CalSet) (S : Shared) (sp : Nat) (x : PixelCal) (raw : Half) (q : PixelStage),
    q = pixelStage c S sp x raw →
    q.pg = f32Mul (f32OfInt raw.toInt) S.kg ∧
    q.po = f32Sub q.pg (f32Mul (f32Mul (x.offset sp) (f32Add 0x3F800000#32 (f32Mul x.kta S.dTa)))
      (f32Add 0x3F800000#32 (f32Mul x.kv S.dV))) ∧
    (∀ g, c.tgc = some g → q.vir = f32Sub q.po (f32Mul g S.cpo) ∧ q.ac = f32Sub x.alpha (f32Mul g (c.alphaCp sp))) ∧
    (c.tgc = none → q.vir = q.po ∧ q.ac = x.alpha) ∧
    q.ac2 = f32Mul q.ac S.kstaF ∧
    q.ab = f32Mul q.ac2 (c.gAt S.band) ∧
    q.ve = f32Div q.vir S.eps ∧
    q.ab2 = f32Mul q.ab q.ab ∧ q.ab3 = f32Mul q.ab2 q.ab ∧ q.ab4 = f32Mul q.ab2 q.ab2 ∧
    q.sx = f32Mul (c.kstoAt S.band) (f32Sqrt (f32Sqrt (f32Add (f32Mul q.ab3 q.ve) (f32Mul q.ab4 S.taTr)))) ∧
    q.dn = f32Add (f32Mul q.ab (f32Sub 0x3F800000#32 (f32Mul (c.kstoAt S.band) 0x43889333#32))) q.sx ∧
    q.temp = f32Sub (f32Sqrt (f32Sqrt (f32Add (f32Div q.ve q.dn) S.taTr))) 0x43889333#32)

/-- 43_convert.md R272, for every CalibrationSet CAL.LOAD can store: the band exists; corner `i` is at or below `Ta` exactly when it lies below the band; a
corner temperature belongs to the band above it; a NaN and minus infinity select band 0, plus infinity the last. The comparison is that of the
numbers the patterns stand for, and is false of a NaN. -/
def Obligations.BandHoldsTheAmbientTemperature : Prop :=
  (∀ a b x y, IsValue a x → IsValue b y → (f32Ge a b = true ↔ y ≤ x)) ∧
  (∀ a b, f32IsNaN a = true ∨ f32IsNaN b = true → f32Ge a b = false) ∧
  ∀ cfg P ta, validate cfg P = none →
    bandOf (slice cfg P) ta < (slice cfg P).ng ∧
    (∀ i, i < (slice cfg P).nct →
      (slice cfg P).ct[i]? = some ((slice cfg P).ctAt i) ∧ bandOf (slice cfg P) ((slice cfg P).ctAt i) = i + 1 ∧
      (f32Ge ta ((slice cfg P).ctAt i) = true ↔ i < bandOf (slice cfg P) ta)) ∧
    (f32IsNaN ta = true → bandOf (slice cfg P) ta = 0) ∧
    bandOf (slice cfg P) 0xFF800000#32 = 0 ∧
    bandOf (slice cfg P) 0x7F800000#32 + 1 = (slice cfg P).ng

/-- 43_convert.md R288 and R289, from every state whose SEEN is not already full: when a conversion reports completion, what it leaves in SEEN
and LAST_AP, and that an error or a frame that is not ready leaves them. -/
def Obligations.CompletionNeedsEverySubpage : Prop :=
  ∀ s ap res t, s.seen.toNat + 1 < 2 ^ s.cfg.nsub s.lastAp → exec (.cvtSubpage ap res) s = .next t →
    ((t.err = true ∨ t.res0 = 2) → t.seen = s.seen ∧ t.lastAp = s.lastAp) ∧
    (t.err = false → t.res0 ≠ 2 →
      t.lastAp = ap ∧ t.res1.toNat < s.cfg.nsub ap ∧
      (t.res0 = 1 ↔ s.cfg.nsub ap = 1 ∨ (s.lastAp = ap ∧ s.seen.getLsbD (1 - t.res1.toNat) = true)) ∧
      (t.res0 = 1 → t.seen = 0) ∧
      (t.res0 ≠ 1 → t.res0 = 0 ∧
        t.seen = (if s.lastAp = ap then s.seen else 0) ||| (1#2 <<< t.res1.toNat)))

/-- 43_convert.md R253: the special values of the five operations. That a NaN result is a quiet NaN, and no more, is
93_implementation_defined.md U3 (log 11). -/
def Obligations.FloatSpecialValues : Prop :=
  (∀ a b, f32IsNaN a = true ∨ f32IsNaN b = true →
    f32IsNaN (f32Add a b) = true ∧ f32IsNaN (f32Sub a b) = true ∧ f32IsNaN (f32Mul a b) = true ∧
      f32IsNaN (f32Div a b) = true) ∧
  (∀ a, f32IsNaN a = true → f32IsNaN (f32Sqrt a) = true) ∧
  (∀ a b, f32IsNaN a = false → a.extractLsb' 0 31 ≠ 0 → b.extractLsb' 0 31 = 0 →
    ∃ neg, f32Val (f32Div a b) = .inf neg) ∧
  (∀ a b, a.extractLsb' 0 31 = 0 → b.extractLsb' 0 31 = 0 → f32IsNaN (f32Div a b) = true) ∧
  (∀ a, a.getLsbD 31 = true → a.extractLsb' 0 31 ≠ 0 → f32IsNaN (f32Sqrt a) = true) ∧
  (∀ op a b, f32IsNaN (nanOf op a b) = true ∧ (nanOf op a b).getLsbD 22 = true) ∧
  f32IsNaN 0x7FC00000#32 = true

/-- 00_scope.md R15, 43_convert.md R251: sum, difference, product and conversion from an integer are the exact result rounded once, to nearest with ties to
even, subnormals kept, overflow to an infinity. -/
def Obligations.SumsAndProductsRoundOnce : Prop :=
  (∀ a b x y, IsValue a x → IsValue b y →
    RoundsTo (x + y) (f32Add a b) ∧ RoundsTo (x - y) (f32Sub a b) ∧ RoundsTo (x * y) (f32Mul a b)) ∧
  (∀ n : Int, RoundsTo n (f32OfInt n))

/-- 00_scope.md R15, 43_convert.md R251: quotient and square root are the exact result rounded once. -/
def Obligations.QuotientsAndRootsRoundOnce : Prop :=
  (∀ a b x y, IsValue a x → IsValue b y → y ≠ 0 → RoundsTo (x / y) (f32Div a b)) ∧
  (∀ a x, IsValue a x → 0 ≤ x → RoundsTo (Real.sqrt x) (f32Sqrt a))

/-! ## System commands -/

/-- 44_system.md R301: SYS.NOP ends with zero results and changes nothing else; from the host, it clears a reported error. -/
def Obligations.NopOnlyClearsTheError : Prop :=
  (∀ s, exec .sysNop s = .next (ended s 0 0)) ∧
  (∀ s, s.busy = false → perform (.writeCsr 0 0x00000000#32) s =
    .next { s with cmd := 0, errCode := 0, errInfo := 0, res0 := 0, res1 := 0, done := true, err := false })

/-- 44_system.md R302 with 10_state.md R62 and 90_conflicts.md C9: after SYS.RESET the block is in the reset state but for DONE, `CMD`, which reads
0x0000007F, and the four buffers. That `inbox`, `reply` and `epoch` stay is the model's choice (logs 3, 5, 7). -/
def Obligations.SysResetRestoresTheResetState : Prop :=
  (∀ s, exec .sysReset s = .next
    { State.resetOf s.config with
      done := true, cmd := 0x0000007F#32, mem := s.mem, inbox := s.inbox, reply := s.reply, epoch := s.epoch }) ∧
  (∀ s w, s.busy = false → decode w = .ok .sysReset → ∃ t, perform (.writeCsr 0 w) s = .next t ∧
    t.statusWord = 0x00000002#32 ∧ t.csrRead 0 = 0x0000007F#32 ∧ t.csrRead 8 = s.csrRead 8)

/-! ## Errors -/

/-- 60_exceptions.md R318: the state change of an error is the whole change, but for CORRCNT and FALLBACK where the rule names them; errors are
precise. -/
def Obligations.ErrorsArePrecise : Prop :=
  ∀ i s t, exec i s = .next t → t.err = true →
    t = failed { s with corrCnt := t.corrCnt, fallback := t.fallback } t.errCode t.errInfo ∧
    (i ≠ .calLoad → t.fallback = s.fallback) ∧
    (i ≠ .calLoad → (∀ tag, i ≠ .eccDec tag) → t.corrCnt = s.corrCnt) ∧
    ((∃ tag, i = .eccDec tag) → t.corrCnt = 0)

/-- 60_exceptions.md R313 with the codes of R311: which command can raise which kind, and no other. -/
def Obligations.WhichCommandRaisesWhich : Prop :=
  (∀ i s t, exec i s = .next t → t.err = true →
    ((∃ tag, i = .eccDec tag) ∧ t.errCode = 3) ∨
    (i = .calLoad ∧ (t.errCode = 2 ∨ t.errCode = 3 ∨ t.errCode = 4 ∨ t.errCode = 7)) ∨
    ((∃ idx ap, i = .geoConst idx ap) ∧ t.errCode = 8) ∨
    ((∃ ap res, i = .cvtSubpage ap res) ∧ (t.errCode = 2 ∨ t.errCode = 5 ∨ t.errCode = 6))) ∧
  (∀ s w r, s.busy = false → decode w = .error r →
    ∃ t, perform (.writeCsr 0 w) s = .next t ∧ t.err = true ∧ t.errCode = 8) ∧
  (∀ tag, ∃ s t, exec (.eccDec tag) s = .next t ∧ t.err = true ∧ t.errCode = 3) ∧
  (∀ k ∈ [2#8, 3#8, 4#8, 7#8], ∃ s t, exec .calLoad s = .next t ∧ t.err = true ∧ t.errCode = k) ∧
  (∀ ap, ∃ idx s t, exec (.geoConst idx ap) s = .next t ∧ t.err = true ∧ t.errCode = 8) ∧
  (∀ ap res, ∀ k ∈ [2#8, 5#8, 6#8], ∃ s t, exec (.cvtSubpage ap res) s = .next t ∧ t.err = true ∧ t.errCode = k)

/-! ## Reset and the invariant -/

/-- 10_state.md R60: every register at its reset value, CALSET absent, no cell of a buffer holding a value; the hardware reset leaves that
state. The model's choices in it: that the hardware reset empties the four buffers, where 70_reset_and_hazards.md R340 says that neither reset
touches them (log 8); that it leaves `reply` idle (log 5), the inbox as it is (log 3) and a new index of the free values (log 7); that `State.reset`
is an instance of VA (log 2). -/
def Obligations.ResetLeavesTheResetState : Prop :=
  (∀ c, (∀ n, (State.resetOf c).csrRead n = if n = 8 then BitVec.ofNat 32 c.record.variant.val else 0) ∧
    (State.resetOf c).calset = none ∧ (State.resetOf c).seen = 0 ∧ (State.resetOf c).lastAp = .interleaved ∧
    (∀ i, readCell (State.resetOf c).mem.cal i = none ∧ readCell (State.resetOf c).mem.raw i = none ∧
      readCell (State.resetOf c).mem.out i = none ∧ readCell (State.resetOf c).mem.geo i = none)) ∧
  (∀ s, perform .hardReset s = .next { State.resetOf s.config with inbox := s.inbox, epoch := s.epoch + 1 }) ∧
  State.reset = State.resetOf CheckedCfg.VA

/-- The invariant holds after reset of every instance; the record of an instance passed the check at configuration time. -/
def Obligations.InvariantHoldsAtReset : Prop :=
  (∀ c : CheckedCfg, Machine.Inv (State.resetOf c)) ∧ Machine.Inv State.reset

/-- Every step keeps the invariant: canonical memory inside its sizes, BUSY never seen, a valid CalibrationSet (10_state.md R50), SEEN never full
(43_convert.md R288), and the relations of the error registers (10_state.md R36, R38; 60_exceptions.md R311, R314, R318). -/
def Obligations.EveryStepKeepsTheInvariant : Prop :=
  ∀ s t, Machine.Inv s → step s = .next t → Machine.Inv t

/-! ## Configuration -/

/-- 00_scope.md R11: the derived parameters, and the check at configuration time. A record that fails it makes no instance; one that passes makes
the instance in its state after reset; and no state has a record that fails it. The check takes in the ranges the field table of R10 gives. -/
def Obligations.ConfigurationIsChecked : Prop :=
  (∀ c : Cfg, c.calBytes = 2 * c.calWords ∧
    ∀ sp ap, nmem c sp ap = ((List.range c.npix).filter fun p => member c sp ap p).length) ∧
  (∀ c : Cfg, (c.npix ≠ c.height * c.width ∨ c.calWords ≠ 64 + 4 * c.npix ∨ 7 < c.btr) → State.configure c = none) ∧
  (∀ c : Cfg, c.npix = c.height * c.width → c.calWords = 64 + 4 * c.npix → c.btr ≤ 7 →
    1 ≤ c.height → 1 ≤ c.width → c.npix ≤ 16320 → (∀ ap, c.nsub ap = 1 ∨ c.nsub ap = 2) →
    ∃ s, State.configure c = some s ∧ s.cfg = c ∧ s = State.resetOf s.config) ∧
  (∀ s : State, s.cfg.npix = s.cfg.height * s.cfg.width ∧ s.cfg.calWords = 64 + 4 * s.cfg.npix ∧ s.cfg.btr ≤ 7)
end

