-- ==== Sys2Proof/Laws/Binary32.lean ====
section
/-! SUPPORT. The rounding of binary32: what a packed pattern stands for, that `f32Round` rounds to nearest with ties to even and overflows
where IEEE 754 says, that a sticky bit stands for what was cut off, and that `isqrtFrom` is the integer square root. -/

namespace Sys2Proof.Machine

/-- `rneShift` is a nearest integer, even at a tie. -/
theorem rneShift_spec (m k : Nat) (hk : 1 ≤ k) :
    2 * |((rneShift m k : Nat) : ℤ) * 2 ^ k - m| ≤ 2 ^ k ∧
      (2 * |((rneShift m k : Nat) : ℤ) * 2 ^ k - m| = 2 ^ k → rneShift m k % 2 = 0) := by
  obtain ⟨j, rfl⟩ : ∃ j, k = j + 1 := ⟨k - 1, by omega⟩
  have hD : (0 : Nat) < 2 ^ (j + 1) := by positivity
  have hm : 2 ^ (j + 1) * (m / 2 ^ (j + 1)) + m % 2 ^ (j + 1) = m := Nat.div_add_mod m _
  have hr := Nat.mod_lt m hD
  simp only [rneShift]
  generalize m / 2 ^ (j + 1) = d at *
  generalize m % 2 ^ (j + 1) = r at *
  have hc : ((2 : ℤ) ^ (j + 1)) = ((2 ^ (j + 1) : Nat) : ℤ) := by push_cast; rfl
  rw [hc]
  generalize (2 : Nat) ^ (j + 1) = D at *
  subst hm
  split
  · next h =>
    have e : ((d + 1 : Nat) : ℤ) * D - ((D * d + r : Nat) : ℤ) = D - r := by push_cast; ring
    rw [e, abs_of_nonneg (by omega)]
    omega
  · next h =>
    have e : ((d : Nat) : ℤ) * D - ((D * d + r : Nat) : ℤ) = -r := by push_cast; ring
    rw [e, abs_neg, abs_of_nonneg (by omega)]
    omega

/-- The nearest multiple of a unit is at least as near as any other multiple. -/
theorem nearest_multiple {u x : ℝ} {n : ℤ} (hu : 0 < u) (hn : 2 * |n * u - x| ≤ u) (j : ℤ) :
    |n * u - x| < |j * u - x| ∨ (|n * u - x| = |j * u - x| ∧ (j = n ∨ 2 * |n * u - x| = u)) := by
  by_cases hj : j = n
  · subst hj; exact .inr ⟨rfl, .inl rfl⟩
  · have h1 : u ≤ |j * u - n * u| := by
      rw [← sub_mul, abs_mul, abs_of_pos hu]
      have : (1 : ℝ) ≤ |(j : ℝ) - n| := by
        have : (1 : ℤ) ≤ |j - n| := Int.one_le_abs (sub_ne_zero.2 hj)
        exact_mod_cast this
      nlinarith
    have h2 : |j * u - n * u| ≤ |j * u - x| + |n * u - x| := by
      have := abs_sub_le (j * u) x (n * u)
      rwa [abs_sub_comm x] at this
    rcases lt_or_eq_of_le (show |n * u - x| ≤ |j * u - x| by linarith) with h | h
    · exact .inl h
    · exact .inr ⟨h, .inr (by linarith)⟩

section Pack
variable (neg : Bool) (mag : Nat) (h : mag < 2 ^ 31)
include h

theorem toNat_f32Pack : (f32Pack neg mag).toNat = (if neg then 2 ^ 31 else 0) + mag := by
  simp only [f32Pack, BitVec.toNat_ofNat]
  apply Nat.mod_eq_of_lt
  split <;> omega

theorem exp_f32Pack : ((f32Pack neg mag).extractLsb' 23 8).toNat = mag / 2 ^ 23 := by
  rw [BitVec.extractLsb'_toNat, toNat_f32Pack neg mag h, Nat.shiftRight_eq_div_pow]
  split <;> omega

theorem frac_f32Pack : ((f32Pack neg mag).extractLsb' 0 23).toNat = mag % 2 ^ 23 := by
  rw [BitVec.extractLsb'_toNat, toNat_f32Pack neg mag h, Nat.shiftRight_zero]
  split <;> omega

theorem sign_f32Pack : (f32Pack neg mag).getLsbD 31 = neg := by
  rw [← BitVec.testBit_toNat, toNat_f32Pack neg mag h, Nat.testBit_eq_decide_div_mod_eq]
  cases neg <;> simp <;> omega

theorem lsb_f32Pack : (f32Pack neg mag).getLsbD 0 = decide (mag % 2 = 1) := by
  rw [← BitVec.testBit_toNat, toNat_f32Pack neg mag h, Nat.testBit_eq_decide_div_mod_eq]
  cases neg
  · simp
  · simp; omega

end Pack

/-- The number a magnitude below infinity stands for. -/
theorem isValue_f32Pack (neg : Bool) (n : Nat) (q : Int) (hq : -149 ≤ q) (hn : n ≤ 2 ^ 24) (hlo : -149 < q → 2 ^ 23 ≤ n)
    (hmag : (q + 149).toNat * 2 ^ 23 + n < f32InfMag) :
    IsValue (f32Pack neg ((q + 149).toNat * 2 ^ 23 + n)) ((if neg = true then -1 else 1) * (n : ℝ) * (2 : ℝ) ^ q) := by
  obtain ⟨k, rfl⟩ : ∃ k : Nat, q = k - 149 := ⟨(q + 149).toNat, by omega⟩
  have e0 : (((k : Int) - 149) + 149).toNat = k := by omega
  rw [e0] at hmag ⊢
  simp only [f32InfMag] at hmag
  have h31 : k * 2 ^ 23 + n < 2 ^ 31 := by omega
  have hex := exp_f32Pack neg _ h31
  have hfr := frac_f32Pack neg _ h31
  have hs := sign_f32Pack neg _ h31
  have hval : ∀ m e, f32Val (f32Pack neg (k * 2 ^ 23 + n)) = .fin neg m e → (m : ℝ) * (2 : ℝ) ^ e = (n : ℝ) * (2 : ℝ) ^ ((k : Int) - 149) →
      IsValue (f32Pack neg (k * 2 ^ 23 + n)) ((if neg = true then -1 else 1) * (n : ℝ) * (2 : ℝ) ^ ((k : Int) - 149)) := by
    intro m e h1 h2
    exact ⟨neg, m, e, h1, by rw [mul_assoc, ← h2, mul_assoc]⟩
  by_cases hsub : (k * 2 ^ 23 + n) / 2 ^ 23 = 0
  · have hk : k = 0 := by omega
    have hm : (k * 2 ^ 23 + n) % 2 ^ 23 = n := by omega
    refine hval n (-149) ?_ ?_
    · simp only [f32Val, hex, hfr, hs, hsub, hm]; simp
    · subst hk; norm_num
  · by_cases hov : n = 2 ^ 24
    · have hd : (k * 2 ^ 23 + n) / 2 ^ 23 = k + 2 := by omega
      have hm : (k * 2 ^ 23 + n) % 2 ^ 23 = 0 := by omega
      refine hval (2 ^ 23) ((k : Int) - 148) ?_ ?_
      · have h1 : ¬ k + 2 = 255 := by omega
        simp only [f32Val, hex, hfr, hs, hd, hm, h1, if_false]
        simp; omega
      · subst hov
        rw [show ((k : Int) - 148) = ((k : Int) - 149) + 1 by ring, zpow_add₀ (by norm_num)]
        push_cast; ring
    · have hge : 2 ^ 23 ≤ n := by
        by_cases hk : k = 0
        · omega
        · exact hlo (by omega)
      have hd : (k * 2 ^ 23 + n) / 2 ^ 23 = k + 1 := by omega
      have hm : (k * 2 ^ 23 + n) % 2 ^ 23 = n - 2 ^ 23 := by omega
      refine hval n ((k : Int) - 149) ?_ rfl
      have h1 : ¬ k + 1 = 255 := by omega
      simp only [f32Val, hex, hfr, hs, hd, hm, h1, if_false]
      simp; omega


/-- A number of the format: fewer than 25 bits over a unit not below that of the subnormals. -/
def IsRep (y : ℝ) : Prop := ∃ (j : ℤ) (e : ℤ), -149 ≤ e ∧ |j| < 2 ^ 24 ∧ y = j * (2 : ℝ) ^ e

theorem IsValue.isRep {a : F32} {x : ℝ} (h : IsValue a x) : IsRep x := by
  obtain ⟨neg, m, e, hv, rfl⟩ := h
  have hm : m < 2 ^ 24 ∧ -149 ≤ e := by
    have hfr := (a.extractLsb' 0 23).isLt
    simp only [f32Val] at hv
    split at hv
    · split at hv <;> cases hv
    · split at hv
      · cases hv; omega
      · next h0 => cases hv; exact ⟨by omega, by simp only [Int.ofNat_eq_natCast]; omega⟩
  refine ⟨(if neg = true then -1 else 1) * m, e, hm.2, ?_, ?_⟩
  · cases neg <;> simp <;> omega
  · cases neg <;> simp

theorem IsRep.neg {y : ℝ} (h : IsRep y) : IsRep (-y) := by
  obtain ⟨j, e, he, hj, rfl⟩ := h
  exact ⟨-j, e, he, by rwa [abs_neg], by push_cast; ring⟩

/-- The nearest multiple of the unit in the last place is nearest among all numbers of the format. -/
theorem nearest_rep {x y : ℝ} {n q : ℤ} (hq : -149 ≤ q) (hn : 2 * |n * (2 : ℝ) ^ q - x| ≤ (2 : ℝ) ^ q)
    (hlo : -149 < q → 2 ^ 23 * (2 : ℝ) ^ q ≤ x) (hy : IsRep y) :
    |n * (2 : ℝ) ^ q - x| < |y - x| ∨
      (|n * (2 : ℝ) ^ q - x| = |y - x| ∧ (y = n * (2 : ℝ) ^ q ∨ 2 * |n * (2 : ℝ) ^ q - x| = (2 : ℝ) ^ q)) := by
  have hu : (0 : ℝ) < (2 : ℝ) ^ q := by positivity
  obtain ⟨j, e, he, hj, rfl⟩ := hy
  by_cases heq : q ≤ e
  · obtain ⟨k, rfl⟩ : ∃ k : Nat, e = q + k := ⟨(e - q).toNat, by omega⟩
    have := nearest_multiple hu hn (j * 2 ^ k)
    have ee : ((j * 2 ^ k : ℤ) : ℝ) * (2 : ℝ) ^ q = (j : ℝ) * (2 : ℝ) ^ (q + (k : ℤ)) := by
      rw [zpow_add₀ (by norm_num)]; push_cast; simp; ring
    rw [ee] at this
    rcases this with h | ⟨h1, h2 | h2⟩
    · exact .inl h
    · refine .inr ⟨h1, .inl ?_⟩
      rw [← ee, h2]
    · exact .inr ⟨h1, .inr h2⟩
  · have hx := hlo (by omega)
    have hlt : (j : ℝ) * (2 : ℝ) ^ e < 2 ^ 23 * (2 : ℝ) ^ q := by
      have h1 : (j : ℝ) < 2 ^ 24 := by
        have := (abs_lt.1 hj).2
        exact_mod_cast this
      have h2 : (2 : ℝ) ^ (e + 1) ≤ (2 : ℝ) ^ q := zpow_le_zpow_right₀ (by norm_num) (by omega)
      rw [zpow_add₀ (by norm_num)] at h2
      have h3 : (0 : ℝ) < (2 : ℝ) ^ e := by positivity
      nlinarith
    have h1 := nearest_multiple hu hn (2 ^ 23)
    rw [show (((2 : ℤ) ^ 23 : ℤ) : ℝ) = 2 ^ 23 by norm_num] at h1
    have h2 : |n * (2 : ℝ) ^ q - x| ≤ |2 ^ 23 * (2 : ℝ) ^ q - x| := by
      rcases h1 with h | h
      · exact le_of_lt h
      · exact le_of_eq h.1
    rw [abs_of_nonpos (by linarith : 2 ^ 23 * (2 : ℝ) ^ q - x ≤ 0)] at h2
    left
    rw [abs_of_neg (by linarith : (j : ℝ) * (2 : ℝ) ^ e - x < 0)]
    linarith

/-- The unit and the multiple that `f32Round` takes, and what they satisfy. -/
theorem f32Round_unit (m : Nat) (e : Int) (hm : m ≠ 0) :
    ∃ (q : Int) (n : Nat), (∀ neg, f32Round neg m e = f32Pack neg (min ((q + 149).toNat * 2 ^ 23 + n) f32InfMag)) ∧
      -149 ≤ q ∧ (m.log2 : Int) + e - 23 ≤ q ∧ 2 * |(n : ℝ) * (2 : ℝ) ^ q - m * (2 : ℝ) ^ e| ≤ (2 : ℝ) ^ q ∧
      (2 * |(n : ℝ) * (2 : ℝ) ^ q - m * (2 : ℝ) ^ e| = (2 : ℝ) ^ q → n % 2 = 0) ∧
      (m : ℝ) * (2 : ℝ) ^ e < 2 ^ 24 * (2 : ℝ) ^ q ∧ (-149 < q → 2 ^ 23 * (2 : ℝ) ^ q ≤ m * (2 : ℝ) ^ e) := by
  obtain ⟨q, hqd⟩ : ∃ q, q = max (Int.ofNat m.log2 + e - 23) (-149) := ⟨_, rfl⟩
  refine ⟨q, if q ≤ e then m * 2 ^ (e - q).toNat else rneShift m (q - e).toNat, ?_, ?_, ?_⟩
  · intro neg; simp only [f32Round, hm, if_false, ← hqd]
  · omega
  refine ⟨by simp at hqd; omega, ?_⟩
  have hl1 : 2 ^ m.log2 ≤ m := Nat.log2_self_le hm
  have hl2 : m < 2 ^ (m.log2 + 1) := Nat.lt_log2_self
  have hu : (0 : ℝ) < (2 : ℝ) ^ q := by positivity
  have he : (0 : ℝ) < (2 : ℝ) ^ e := by positivity
  have hup : (m : ℝ) * (2 : ℝ) ^ e < 2 ^ 24 * (2 : ℝ) ^ q := by
    have h1 : (m : ℝ) < (2 : ℝ) ^ (m.log2 + 1) := by exact_mod_cast hl2
    have h2 : (2 : ℝ) ^ (((m.log2 + 1 : Nat) : Int) + e) ≤ (2 : ℝ) ^ ((24 : Int) + q) :=
      zpow_le_zpow_right₀ (by norm_num) (by push_cast; simp at hqd; omega)
    rw [zpow_add₀ (by norm_num), zpow_add₀ (by norm_num), zpow_natCast] at h2
    norm_num at h2
    have h3 := mul_lt_mul_of_pos_right h1 he
    norm_num
    linarith
  have hlow : -149 < q → 2 ^ 23 * (2 : ℝ) ^ q ≤ m * (2 : ℝ) ^ e := by
    intro h
    have h1 : (2 : ℝ) ^ m.log2 ≤ (m : ℝ) := by exact_mod_cast hl1
    have h2 : (2 : ℝ) ^ ((23 : Int) + q) = (2 : ℝ) ^ (((m.log2 : Nat) : Int) + e) := by
      congr 1; simp at hqd; omega
    rw [zpow_add₀ (by norm_num), zpow_add₀ (by norm_num), zpow_natCast] at h2
    norm_num at h2
    have h3 := mul_le_mul_of_nonneg_right h1 (le_of_lt he)
    norm_num
    linarith
  refine ⟨?_, ?_, hup, hlow⟩
  · split
    · next hqe =>
      have : ((m * 2 ^ (e - q).toNat : Nat) : ℝ) * (2 : ℝ) ^ q = m * (2 : ℝ) ^ e := by
        have : e = ((e - q).toNat : Int) + q := by omega
        conv_rhs => rw [this, zpow_add₀ (by norm_num), zpow_natCast]
        push_cast; ring
      rw [this]; simp; exact le_of_lt hu
    · next hqe =>
      have hk : 1 ≤ (q - e).toNat := by omega
      have h1 := (rneShift_spec m (q - e).toNat hk).1
      have h2 : (2 : ℝ) ^ q = (2 : ℝ) ^ (q - e).toNat * (2 : ℝ) ^ e := by
        have : q = ((q - e).toNat : Int) + e := by omega
        conv_lhs => rw [this, zpow_add₀ (by norm_num), zpow_natCast]
      have h3 : 2 * |((rneShift m (q - e).toNat : Nat) : ℝ) * 2 ^ (q - e).toNat - m| ≤ 2 ^ (q - e).toNat := by
        exact_mod_cast h1
      rw [h2, ← mul_assoc, ← sub_mul, abs_mul, abs_of_pos he, ← mul_assoc]
      exact mul_le_mul_of_nonneg_right h3 (le_of_lt he)
  · split
    · next hqe =>
      have : ((m * 2 ^ (e - q).toNat : Nat) : ℝ) * (2 : ℝ) ^ q = m * (2 : ℝ) ^ e := by
        have : e = ((e - q).toNat : Int) + q := by omega
        conv_rhs => rw [this, zpow_add₀ (by norm_num), zpow_natCast]
        push_cast; ring
      rw [this]
      intro h; simp at h; exact absurd h.symm (by positivity)
    · next hqe =>
      have hk : 1 ≤ (q - e).toNat := by omega
      have h1 := (rneShift_spec m (q - e).toNat hk).2
      have h2 : (2 : ℝ) ^ q = (2 : ℝ) ^ (q - e).toNat * (2 : ℝ) ^ e := by
        have : q = ((q - e).toNat : Int) + e := by omega
        conv_lhs => rw [this, zpow_add₀ (by norm_num), zpow_natCast]
      intro h
      apply h1
      rw [h2, ← mul_assoc, ← sub_mul, abs_mul, abs_of_pos he, ← mul_assoc] at h
      have := mul_right_cancel₀ (ne_of_gt he) h
      exact_mod_cast this

/-- A rounded magnitude is finite exactly below the threshold of overflow. -/
theorem overflow_iff {x : ℝ} {q : Int} {n : Nat} (hq : -149 ≤ q) (hn : 2 * |(n : ℝ) * (2 : ℝ) ^ q - x| ≤ (2 : ℝ) ^ q)
    (he : 2 * |(n : ℝ) * (2 : ℝ) ^ q - x| = (2 : ℝ) ^ q → n % 2 = 0)
    (hup : x < 2 ^ 24 * (2 : ℝ) ^ q) (hlo : -149 < q → 2 ^ 23 * (2 : ℝ) ^ q ≤ x) :
    (n ≤ 2 ^ 24 ∧ (-149 < q → 2 ^ 23 ≤ n)) ∧
      (x < 2 ^ 128 - 2 ^ 103 ↔ (q + 149).toNat * 2 ^ 23 + n < f32InfMag) := by
  have hu : (0 : ℝ) < (2 : ℝ) ^ q := by positivity
  have habs := abs_le.1 (show |(n : ℝ) * (2 : ℝ) ^ q - x| ≤ (2 : ℝ) ^ q / 2 by linarith)
  have hn24 : n ≤ 2 ^ 24 := by
    have : (n : ℝ) < 2 ^ 24 + 1 := by
      have : (n : ℝ) * (2 : ℝ) ^ q < (2 ^ 24 + 1) * (2 : ℝ) ^ q := by linarith [habs.2]
      exact lt_of_mul_lt_mul_right this (le_of_lt hu)
    have : n < 2 ^ 24 + 1 := by exact_mod_cast this
    omega
  have hn23 : -149 < q → 2 ^ 23 ≤ n := by
    intro h
    have : (2 ^ 23 : ℝ) < n + 1 := by
      have : (2 ^ 23 : ℝ) * (2 : ℝ) ^ q < (n + 1) * (2 : ℝ) ^ q := by linarith [habs.1, hlo h]
      exact lt_of_mul_lt_mul_right this (le_of_lt hu)
    have : 2 ^ 23 < n + 1 := by exact_mod_cast this
    omega
  refine ⟨⟨hn24, hn23⟩, ?_⟩
  simp only [f32InfMag]
  constructor
  · intro hx
    have hq104 : q ≤ 104 := by
      by_contra hc
      have h1 := hlo (by omega)
      have h2 : (2 : ℝ) ^ (105 : Int) ≤ (2 : ℝ) ^ q := zpow_le_zpow_right₀ (by norm_num) (by omega)
      norm_num at h2 hx h1
      linarith
    by_cases h103 : q ≤ 103
    · omega
    · obtain rfl : q = 104 := by omega
      have : (n : ℝ) < 2 ^ 24 := by
        have h2 : (n : ℝ) * (2 : ℝ) ^ (104 : Int) < 2 ^ 24 * (2 : ℝ) ^ (104 : Int) := by
          have := habs.2
          norm_num at hx this ⊢
          linarith
        exact lt_of_mul_lt_mul_right h2 (le_of_lt hu)
      have : n < 2 ^ 24 := by exact_mod_cast this
      simp
      omega
  · intro hmag
    by_contra hc
    have hx : (2 : ℝ) ^ 128 - 2 ^ 103 ≤ x := not_lt.1 hc
    have hq104 : 104 ≤ q := by
      by_contra hc
      have h2 : (2 : ℝ) ^ q ≤ (2 : ℝ) ^ (103 : Int) := zpow_le_zpow_right₀ (by norm_num) (by omega)
      norm_num at h2 hx hup
      linarith
    by_cases h105 : 105 ≤ q
    · have := hn23 (by omega)
      omega
    · obtain rfl : q = 104 := by omega
      have hge : 2 ^ 24 - 1 ≤ n := by
        have : (2 ^ 24 - 2 : ℝ) < n := by
          have h2 : (2 ^ 24 - 2 : ℝ) * (2 : ℝ) ^ (104 : Int) < n * (2 : ℝ) ^ (104 : Int) := by
            have := habs.1
            norm_num at hx this ⊢
            linarith
          exact lt_of_mul_lt_mul_right h2 (le_of_lt hu)
        have : (2 ^ 24 : ℝ) < n + 2 := by linarith
        have : 2 ^ 24 < n + 2 := by exact_mod_cast this
        omega
      by_cases heq : n = 2 ^ 24 - 1
      · have htie : 2 * |(n : ℝ) * (2 : ℝ) ^ (104 : Int) - x| = (2 : ℝ) ^ (104 : Int) := by
          refine le_antisymm hn ?_
          subst heq
          rw [abs_of_nonpos (by norm_num at hx ⊢; linarith)]
          norm_num at hx ⊢
          linarith
        have := he htie
        omega
      · simp at hmag
        omega

/-- A number with the unit and the multiple nearest to it is rounded to the pattern of that multiple. -/
theorem roundsTo_of_unit {x : ℝ} {q : Int} {n : Nat} (neg : Bool) (hx : 0 < x) (hq : -149 ≤ q)
    (hn : 2 * |(n : ℝ) * (2 : ℝ) ^ q - x| ≤ (2 : ℝ) ^ q)
    (hev : 2 * |(n : ℝ) * (2 : ℝ) ^ q - x| = (2 : ℝ) ^ q → n % 2 = 0)
    (hup : x < 2 ^ 24 * (2 : ℝ) ^ q) (hlo : -149 < q → 2 ^ 23 * (2 : ℝ) ^ q ≤ x) :
    RoundsTo ((if neg = true then -1 else 1) * x) (f32Pack neg (min ((q + 149).toNat * 2 ^ 23 + n) f32InfMag)) := by
  obtain ⟨⟨hn24, hn23⟩, hov⟩ := overflow_iff hq hn hev hup hlo
  obtain ⟨g, hg, hg2⟩ : ∃ g : ℝ, g = (if neg = true then -1 else 1) ∧ g * g = 1 := ⟨_, rfl, by cases neg <;> simp⟩
  have hgabs : |g| = 1 := by rw [hg]; cases neg <;> simp
  have hd : ∀ a b : ℝ, |g * a - g * b| = |a - b| := by
    intro a b; rw [← mul_sub, abs_mul, hgabs, one_mul]
  rw [← hg]
  have habs : |g * x| = x := by rw [abs_mul, hgabs, one_mul, abs_of_pos hx]
  by_cases hfin : x < 2 ^ 128 - 2 ^ 103
  · have hmag := hov.1 hfin
    rw [min_eq_left (le_of_lt hmag)]
    have hval := isValue_f32Pack neg n q hq hn24 hn23 hmag
    rw [← hg] at hval
    refine .inl ⟨by rw [habs]; exact hfin, _, hval, fun r' v' hv' => ?_⟩
    have hrep : IsRep (g * v') := by
      rw [hg]
      cases neg
      · simpa using hv'.isRep
      · simpa using hv'.isRep.neg
    have := nearest_rep (n := (n : ℤ)) hq (by exact_mod_cast hn) hlo hrep
    have e1 : |g * ↑n * (2 : ℝ) ^ q - g * x| = |(n : ℝ) * (2 : ℝ) ^ q - x| := by rw [mul_assoc, hd]
    have e2 : |v' - g * x| = |g * v' - x| := by rw [← hd v', ← mul_assoc, hg2, one_mul]
    rw [e1, e2]
    push_cast at this
    rcases this with h | ⟨h1, h2 | h2⟩
    · exact .inl h
    · refine .inr ⟨h1, .inl ?_⟩
      have := congrArg (g * ·) h2
      simp only [← mul_assoc, hg2, one_mul] at this
      exact this
    · refine .inr ⟨h1, .inr ?_⟩
      have hev' := hev h2
      rw [lsb_f32Pack neg _ (by simp only [f32InfMag] at hmag; omega)]
      simp; omega
  · have hmag : f32InfMag ≤ (q + 149).toNat * 2 ^ 23 + n := not_lt.1 (fun h => hfin (hov.2 h))
    rw [min_eq_right hmag]
    have hinf : f32Val (f32Pack neg f32InfMag) = .inf neg := by cases neg <;> decide
    refine .inr ⟨by rw [habs]; exact not_lt.1 hfin, ?_, ?_⟩
    · intro h
      rw [hinf]
      cases neg
      · simp at hg; subst hg; linarith
      · rfl
    · intro h
      rw [hinf]
      cases neg
      · rfl
      · simp at hg; subst hg; linarith

/-- `f32Round` rounds once, to nearest with ties to even (00_scope.md R15). -/
theorem f32Round_roundsTo (neg : Bool) (m : Nat) (e : Int) :
    RoundsTo ((if neg = true then -1 else 1) * ((m : ℝ) * (2 : ℝ) ^ e)) (f32Round neg m e) := by
  by_cases hm : m = 0
  · subst hm
    have hv : IsValue (f32Round neg 0 e) 0 := by
      have := isValue_f32Pack neg 0 (-149) (by omega) (by omega) (by omega) (by decide)
      simpa [f32Round] using this
    refine .inl ⟨by norm_num, 0, hv, fun r' v' _ => ?_⟩
    simp only [Nat.cast_zero, mul_zero, zero_mul, sub_zero, abs_zero]
    rcases eq_or_ne v' 0 with h | h
    · exact .inr ⟨by simp [h], .inl h⟩
    · exact .inl (abs_pos.2 h)
  · obtain ⟨q, n, hr, hq, -, hn, hev, hup, hlo⟩ := f32Round_unit m e hm
    have hx : (0 : ℝ) < (m : ℝ) * (2 : ℝ) ^ e := by
      have : (0 : ℝ) < m := by exact_mod_cast Nat.pos_of_ne_zero hm
      positivity
    rw [hr neg]
    exact roundsTo_of_unit neg hx hq hn hev hup hlo

/-- A bit below the last that says whether anything was left stands for what was left: the quotient and the root, cut to 25 bits or more, round as
the exact number does. -/
theorem f32Round_sticky (neg : Bool) (Q s : Nat) (e : Int) {x : ℝ} (hQ : 2 ^ 24 ≤ Q)
    (hs : (s = 0 ∧ x = 2 * Q * (2 : ℝ) ^ e) ∨ (s = 1 ∧ 2 * Q * (2 : ℝ) ^ e < x ∧ x < (2 * Q + 2) * (2 : ℝ) ^ e)) :
    RoundsTo ((if neg = true then -1 else 1) * x) (f32Round neg (2 * Q + s) e) := by
  rcases hs with ⟨rfl, rfl⟩ | ⟨rfl, hlo', hhi'⟩
  · have := f32Round_roundsTo neg (2 * Q + 0) e
    push_cast at this
    rwa [add_zero] at this
  · obtain ⟨q, n, hr, hq, hqe, hn, hev, hup, hlo⟩ := f32Round_unit (2 * Q + 1) e (by omega)
    have he : (0 : ℝ) < (2 : ℝ) ^ e := by positivity
    have hlog : 25 ≤ (2 * Q + 1).log2 := (Nat.le_log2 (by omega)).2 (by omega)
    obtain ⟨k, hk⟩ : ∃ k : Nat, q = (k : Int) + 2 + e := ⟨(q - e - 2).toNat, by omega⟩
    have hu : (2 : ℝ) ^ q = 2 * (2 * 2 ^ k * (2 : ℝ) ^ e) := by
      rw [hk, zpow_add₀ (by norm_num), zpow_add₀ (by norm_num), zpow_natCast]
      norm_num; ring
    -- a multiple of `2 * 2^e` is on the same side of the exact number as of the cut one
    have key : ∀ K : ℤ, ((2 * Q + 1 : Nat) : ℝ) * (2 : ℝ) ^ e ≤ 2 * K * (2 : ℝ) ^ e → x < 2 * K * (2 : ℝ) ^ e := by
      intro K h
      have h1 : ((2 * Q + 1 : Nat) : ℝ) ≤ 2 * K := le_of_mul_le_mul_right h he
      have h2 : ((2 * Q + 1 : Nat) : ℤ) ≤ 2 * K := by exact_mod_cast h1
      have h3 : (Q : ℤ) + 1 ≤ K := by omega
      have h4 : (Q : ℝ) + 1 ≤ K := by exact_mod_cast h3
      have h5 : (2 * (Q : ℝ) + 2) * (2 : ℝ) ^ e ≤ 2 * K * (2 : ℝ) ^ e := mul_le_mul_of_nonneg_right (by linarith) (le_of_lt he)
      linarith
    have key' : ∀ K : ℤ, 2 * K * (2 : ℝ) ^ e ≤ ((2 * Q + 1 : Nat) : ℝ) * (2 : ℝ) ^ e → 2 * K * (2 : ℝ) ^ e < x := by
      intro K h
      have h1 : 2 * (K : ℝ) ≤ ((2 * Q + 1 : Nat) : ℝ) := le_of_mul_le_mul_right h he
      have h2 : 2 * K ≤ ((2 * Q + 1 : Nat) : ℤ) := by exact_mod_cast h1
      have h3 : K ≤ (Q : ℤ) := by omega
      have h4 : (K : ℝ) ≤ Q := by exact_mod_cast h3
      have h5 : 2 * K * (2 : ℝ) ^ e ≤ 2 * (Q : ℝ) * (2 : ℝ) ^ e := mul_le_mul_of_nonneg_right (by linarith) (le_of_lt he)
      linarith
    have habs := abs_le.1 (show |(n : ℝ) * (2 : ℝ) ^ q - ((2 * Q + 1 : Nat) : ℝ) * (2 : ℝ) ^ e| ≤ (2 : ℝ) ^ q / 2 by linarith)
    have b1 := key (n * 2 * 2 ^ k + 2 ^ k) (by push_cast at habs ⊢; rw [hu] at habs; linarith [habs.1])
    have b2 := key' (n * 2 * 2 ^ k - 2 ^ k) (by push_cast at habs ⊢; rw [hu] at habs; linarith [habs.2])
    have b3 := key (2 ^ 24 * 2 * 2 ^ k) (by push_cast at hup ⊢; rw [hu] at hup; linarith)
    push_cast at b1 b2 b3
    have hlt : 2 * |(n : ℝ) * (2 : ℝ) ^ q - x| < (2 : ℝ) ^ q := by
      have : |(n : ℝ) * (2 : ℝ) ^ q - x| < (2 : ℝ) ^ q / 2 := by
        rw [abs_lt, hu]
        constructor <;> linarith
      linarith
    have hpos : (0 : ℝ) < x := by
      have : (0 : ℝ) ≤ 2 * Q * (2 : ℝ) ^ e := by positivity
      linarith
    rw [hr neg]
    refine roundsTo_of_unit neg hpos hq (le_of_lt hlt) (fun h => absurd h (ne_of_lt hlt)) ?_ ?_
    · rw [hu]; linarith
    · intro h
      have b4 := key' (2 ^ 23 * 2 * 2 ^ k) (by have := hlo h; push_cast at this ⊢; rw [hu] at this; linarith)
      push_cast at b4
      rw [hu]; linarith

/-- `isqrtFrom` finds the integer square root. -/
theorem isqrtFrom_spec (k n r : Nat) (h1 : r * r ≤ n) (h2 : n < (r + 2 ^ k) * (r + 2 ^ k)) :
    isqrtFrom k n r * isqrtFrom k n r ≤ n ∧ n < (isqrtFrom k n r + 1) * (isqrtFrom k n r + 1) := by
  induction k generalizing r with
  | zero => exact ⟨h1, by simpa [isqrtFrom] using h2⟩
  | succ k ih =>
    unfold isqrtFrom
    split
    · next h => exact ih _ h (by rwa [show r + 2 ^ k + 2 ^ k = r + 2 ^ (k + 1) by ring])
    · next h => exact ih _ h1 (by omega)

/-! ## The order of patterns -/

/-- The magnitude of a finite pattern, by its bits 30:0. -/
noncomputable def magVal (m : Nat) : ℝ :=
  if m / 2 ^ 23 = 0 then (m : ℝ) * 2 ^ (-149 : ℤ)
  else ((2 ^ 23 + m % 2 ^ 23 : Nat) : ℝ) * (2 : ℝ) ^ (((m / 2 ^ 23 : Nat) : ℤ) - 150)

theorem magVal_step (m : Nat) : magVal m < magVal (m + 1) := by
  unfold magVal
  have h2 : (0:ℝ) < 2 ^ (-149 : ℤ) := by positivity
  have hd := Nat.div_add_mod m (2 ^ 23)
  have hr := Nat.mod_lt m (show 0 < 2 ^ 23 by norm_num)
  by_cases hl : m % 2 ^ 23 + 1 < 2 ^ 23
  · have e1 : (m + 1) / 2 ^ 23 = m / 2 ^ 23 := by omega
    have e2 : (m + 1) % 2 ^ 23 = m % 2 ^ 23 + 1 := by omega
    rw [e1, e2]
    split
    · have : ((m:ℝ)) < ((m + 1 : Nat) : ℝ) := by push_cast; linarith
      exact mul_lt_mul_of_pos_right this h2
    · apply mul_lt_mul_of_pos_right _ (by positivity)
      push_cast; linarith
  · have e0 : m % 2 ^ 23 = 2 ^ 23 - 1 := by omega
    have e1 : (m + 1) / 2 ^ 23 = m / 2 ^ 23 + 1 := by omega
    have e2 : (m + 1) % 2 ^ 23 = 0 := by omega
    rw [e1, e2, if_neg (by omega : ¬ m / 2 ^ 23 + 1 = 0)]
    split
    · next hz =>
      have : m = 2 ^ 23 - 1 := by omega
      subst this
      norm_num
    · rw [e0]
      have : (2:ℝ) ^ ((((m / 2 ^ 23 + 1 : Nat)) : ℤ) - 150) = 2 * (2:ℝ) ^ (((m / 2 ^ 23 : Nat) : ℤ) - 150) := by
        rw [show ((((m / 2 ^ 23 + 1 : Nat)) : ℤ) - 150) = 1 + (((m / 2 ^ 23 : Nat) : ℤ) - 150) by push_cast; ring, zpow_add₀ (by norm_num)]
        norm_num
      rw [this]
      have hp : (0:ℝ) < (2:ℝ) ^ (((m / 2 ^ 23 : Nat) : ℤ) - 150) := by positivity
      generalize (2:ℝ) ^ (((m / 2 ^ 23 : Nat) : ℤ) - 150) = u at *
      norm_num
      linarith

/-- The magnitudes are in the order of bits 30:0. -/
theorem magVal_mono : StrictMono magVal := strictMono_nat_of_lt_succ magVal_step

theorem magVal_nonneg (m : Nat) : 0 ≤ magVal m := by
  have : magVal 0 = 0 := by simp [magVal]
  rw [← this]; exact magVal_mono.monotone (Nat.zero_le m)

/-- The value of a finite pattern is its signed magnitude. -/
theorem isValue_mag {a : F32} {x : ℝ} (h : IsValue a x) : f32IsNaN a = false ∧
    x = (if a.getLsbD 31 = true then -1 else 1) * magVal (a.extractLsb' 0 31).toNat := by
  obtain ⟨neg, m, e, hv, rfl⟩ := h
  have hx : (a.extractLsb' 23 8).toNat = (a.extractLsb' 0 31).toNat / 2 ^ 23 := by
    simp [BitVec.extractLsb'_toNat, Nat.shiftRight_eq_div_pow]; omega
  have hf : (a.extractLsb' 0 23).toNat = (a.extractLsb' 0 31).toNat % 2 ^ 23 := by
    simp [BitVec.extractLsb'_toNat]
  unfold f32Val at hv
  simp only at hv
  have hn : f32IsNaN a = false := by
    unfold f32IsNaN
    rw [decide_eq_false_iff_not]
    rintro ⟨h1, h2⟩
    rw [h1] at hv
    simp at hv
    split at hv
    · cases hv
    · cases hv
  refine ⟨hn, ?_⟩
  unfold magVal
  rw [hx, hf] at hv
  split at hv
  · split at hv <;> cases hv
  · split at hv
    · next h1 h2 =>
      cases hv
      rw [if_pos h2]
      have : (a.extractLsb' 0 31).toNat % 2 ^ 23 = (a.extractLsb' 0 31).toNat := by omega
      rw [this]
      ring
    · next h1 h2 =>
      cases hv
      rw [if_neg h2]
      simp only [Int.ofNat_eq_natCast]
      push_cast
      ring

end Sys2Proof.Machine
end

