-- ==== Sys2Proof/Laws/Cells.lean ====
section
/-! SUPPORT. The laws of a buffer: a read after a write, a write of consecutive cells, and the canonical form, which every
write inside the buffer keeps. -/

namespace Sys2Proof.Machine

variable {w : Nat}

theorem readCell_writeCell_self (m : List (Nat × BitVec w)) (i : Nat) (v : BitVec w) :
    readCell (writeCell m i v) i = some v := by
  induction m with
  | nil => simp [writeCell, readCell]
  | cons c cs ih =>
    simp only [writeCell]
    split
    · simp [readCell]
    · split
      · simp [readCell]
      · simp [readCell, *]

theorem readCell_writeCell_ne (m : List (Nat × BitVec w)) {i j : Nat} (v : BitVec w) (h : j ≠ i) :
    readCell (writeCell m i v) j = readCell m j := by
  induction m with
  | nil => simp [writeCell, readCell, Ne.symm h]
  | cons c cs ih =>
    simp only [writeCell]
    split
    · simp [readCell, Ne.symm h]
    · split
      · next hi => simp [readCell, hi, Ne.symm h]
      · simp [readCell, ih]

/-- A read after a write, in one equation. -/
theorem readCell_writeCell (m : List (Nat × BitVec w)) (i j : Nat) (v : BitVec w) :
    readCell (writeCell m i v) j = if j = i then some v else readCell m j := by
  split
  · next h => subst h; exact readCell_writeCell_self m j v
  · next h => exact readCell_writeCell_ne m v h

/-- A read after a write of consecutive cells. -/
theorem readCell_writeCells (m : List (Nat × BitVec w)) (i j : Nat) (vs : List (BitVec w)) :
    readCell (writeCells m i vs) j = if i ≤ j ∧ j < i + vs.length then vs[j - i]? else readCell m j := by
  induction vs generalizing m i with
  | nil => simp [writeCells]
  | cons v vs ih =>
    simp only [writeCells, ih, readCell_writeCell, List.length_cons]
    by_cases hj : j = i
    · subst hj; simp
    · by_cases hlt : i + 1 ≤ j
      · have : j - i = (j - (i + 1)) + 1 := by omega
        rw [this, List.getElem?_cons_succ]
        have e : (i + 1 ≤ j ∧ j < i + 1 + vs.length) ↔ (i ≤ j ∧ j < i + (vs.length + 1)) := by omega
        simp only [e, hj, if_false]
      · rw [if_neg (by omega), if_neg hj, if_neg (by omega)]

theorem mem_writeCell {m : List (Nat × BitVec w)} {i : Nat} {v : BitVec w} {c : Nat × BitVec w}
    (h : c ∈ writeCell m i v) : c = (i, v) ∨ c ∈ m := by
  induction m with
  | nil => simpa [writeCell] using h
  | cons d ds ih =>
    simp only [writeCell] at h
    split at h
    · simpa using h
    · split at h
      · simp only [List.mem_cons] at h ⊢; tauto
      · simp only [List.mem_cons] at h ⊢
        rcases h with h | h
        · exact .inr (.inl h)
        · rcases ih h with h | h
          · exact .inl h
          · exact .inr (.inr h)

/-- A write of a cell that exists keeps the canonical form. -/
theorem cellsWf_writeCell {n : Nat} {m : List (Nat × BitVec w)} {i : Nat} (v : BitVec w) (h : cellsWf n m)
    (hi : i < n) : cellsWf n (writeCell m i v) := by
  refine ⟨?_, ?_⟩
  · have hp := h.1
    clear h
    induction m with
    | nil => simp [writeCell]
    | cons d ds ih =>
      simp only [List.pairwise_cons] at hp
      simp only [writeCell]
      split
      · next hlt =>
        simp only [List.pairwise_cons, List.mem_cons]
        refine ⟨?_, hp⟩
        rintro a (rfl | ha)
        · exact hlt
        · exact lt_trans hlt (hp.1 a ha)
      · split
        · next heq => simp only [List.pairwise_cons]; exact ⟨heq ▸ hp.1, hp.2⟩
        · next hlt hne =>
          simp only [List.pairwise_cons]
          refine ⟨?_, ih hp.2⟩
          intro a ha
          rcases mem_writeCell ha with rfl | ha
          · simp only; omega
          · exact hp.1 a ha
  · intro c hc
    rcases mem_writeCell hc with rfl | hc
    · exact hi
    · exact h.2 c hc

/-- A write of consecutive cells that exist keeps the canonical form. -/
theorem cellsWf_writeCells {n : Nat} {m : List (Nat × BitVec w)} {i : Nat} (vs : List (BitVec w)) (h : cellsWf n m)
    (hi : i + vs.length ≤ n) : cellsWf n (writeCells m i vs) := by
  induction vs generalizing m i with
  | nil => exact h
  | cons v vs ih =>
    simp only [List.length_cons] at hi
    exact ih (cellsWf_writeCell v h (by omega)) (by omega)

theorem cellsWf_nil (n : Nat) : cellsWf n ([] : List (Nat × BitVec w)) := by simp [cellsWf]

/-- In canonical form a value read is a value listed. -/
theorem mem_of_readCell {m : List (Nat × BitVec w)} {i : Nat} {v : BitVec w} (h : readCell m i = some v) :
    (i, v) ∈ m := by
  induction m with
  | nil => simp [readCell] at h
  | cons c cs ih =>
    simp only [readCell] at h
    split at h
    · next hc => simp only [Option.some.injEq] at h; subst hc; subst h; simp
    · exact List.mem_cons_of_mem _ (ih h)

/-- Two buffers in canonical form that read alike at every cell are equal. -/
theorem cells_ext {n : Nat} {m m' : List (Nat × BitVec w)} (h : cellsWf n m) (h' : cellsWf n m')
    (e : ∀ i, readCell m i = readCell m' i) : m = m' := by
  have hnone : ∀ (l : List (Nat × BitVec w)) (i : Nat), (∀ c ∈ l, i < c.1) → readCell l i = none := by
    intro l i hl
    induction l with
    | nil => rfl
    | cons c cs ih =>
      have h1 := hl c (by simp)
      simp only [readCell, if_neg (Nat.ne_of_gt h1)]
      exact ih fun d hd => hl d (by simp [hd])
  have hp := h.1
  have hp' := h'.1
  clear h h'
  induction m generalizing m' with
  | nil =>
    cases m' with
    | nil => rfl
    | cons c cs => simpa [readCell] using e c.1
  | cons c cs ih =>
    cases m' with
    | nil => simpa [readCell] using e c.1
    | cons d ds =>
      simp only [List.pairwise_cons] at hp hp'
      have hcd : c.1 = d.1 := by
        rcases Nat.lt_trichotomy c.1 d.1 with hlt | heq | hgt
        · have hc := e c.1
          rw [hnone (d :: ds) c.1 (by
            intro x hx
            rcases List.mem_cons.1 hx with rfl | hx
            · exact hlt
            · exact lt_trans hlt (hp'.1 x hx))] at hc
          simp [readCell] at hc
        · exact heq
        · have hc := e d.1
          rw [hnone (c :: cs) d.1 (by
            intro x hx
            rcases List.mem_cons.1 hx with rfl | hx
            · exact hgt
            · exact lt_trans hgt (hp.1 x hx))] at hc
          simp [readCell] at hc
      have hv : c.2 = d.2 := by simpa [readCell, hcd] using e c.1
      have htail : cs = ds := by
        refine ih (fun i => ?_) hp.2 hp'.2
        by_cases hi : c.1 = i
        · subst hi
          rw [hnone cs c.1 hp.1, hnone ds c.1 (by rw [hcd]; exact hp'.1)]
        · have := e i
          simp only [readCell, if_neg hi, if_neg (show ¬ d.1 = i from hcd ▸ hi)] at this
          exact this
      rw [Prod.ext hcd hv, htail]

/-- The memory after reset is in canonical form. -/
theorem blank_wf (c : Cfg) : Memory.wf c Memory.blank :=
  ⟨cellsWf_nil _, cellsWf_nil _, cellsWf_nil _, cellsWf_nil _⟩

/-- A host write of CALMEM keeps the canonical form. -/
theorem wf_writeCal {c : Cfg} {m : Memory} {i : Nat} (b : Byte) (h : m.wf c) (hi : i < spaceSize c .calMem) :
    Memory.wf c { m with cal := writeCell m.cal i b } := ⟨cellsWf_writeCell b h.1 hi, h.2⟩

/-- A host write of RAWMEM keeps the canonical form. -/
theorem wf_writeRaw {c : Cfg} {m : Memory} {i : Nat} (x : Half) (h : m.wf c) (hi : i < spaceSize c .rawMem) :
    Memory.wf c { m with raw := writeCell m.raw i x } := ⟨h.1, cellsWf_writeCell x h.2.1 hi, h.2.2⟩

/-- A write of GEOMEM words keeps the canonical form. -/
theorem wf_writeGeo {c : Cfg} {m : Memory} (vs : List Half) (h : m.wf c) (hi : vs.length ≤ spaceSize c .geoMem) :
    Memory.wf c { m with geo := writeCells m.geo 0 vs } :=
  ⟨h.1, h.2.1, h.2.2.1, cellsWf_writeCells vs h.2.2.2 (by omega)⟩

end Sys2Proof.Machine
end

