-- ==== Sys2Proof/Laws/State.lean ====
section
/-! SUPPORT. One lemma per field per update of State, true by rfl, so that no proof unfolds a record update. -/

namespace Sys2Proof.Machine.State

/-! ### setCal -/

@[simp] theorem setCal_config (s : State) (m : List Host.Cell) : (s.setCal m).config = s.config := rfl
@[simp] theorem setCal_cmd (s : State) (m : List Host.Cell) : (s.setCal m).cmd = s.cmd := rfl
@[simp] theorem setCal_arg0 (s : State) (m : List Host.Cell) : (s.setCal m).arg0 = s.arg0 := rfl
@[simp] theorem setCal_arg1 (s : State) (m : List Host.Cell) : (s.setCal m).arg1 = s.arg1 := rfl
@[simp] theorem setCal_busy (s : State) (m : List Host.Cell) : (s.setCal m).busy = s.busy := rfl
@[simp] theorem setCal_done (s : State) (m : List Host.Cell) : (s.setCal m).done = s.done := rfl
@[simp] theorem setCal_err (s : State) (m : List Host.Cell) : (s.setCal m).err = s.err := rfl
@[simp] theorem setCal_fallback (s : State) (m : List Host.Cell) : (s.setCal m).fallback = s.fallback := rfl
@[simp] theorem setCal_seen (s : State) (m : List Host.Cell) : (s.setCal m).seen = s.seen := rfl
@[simp] theorem setCal_lastAp (s : State) (m : List Host.Cell) : (s.setCal m).lastAp = s.lastAp := rfl
@[simp] theorem setCal_errSticky (s : State) (m : List Host.Cell) : (s.setCal m).errSticky = s.errSticky := rfl
@[simp] theorem setCal_errCode (s : State) (m : List Host.Cell) : (s.setCal m).errCode = s.errCode := rfl
@[simp] theorem setCal_errInfo (s : State) (m : List Host.Cell) : (s.setCal m).errInfo = s.errInfo := rfl
@[simp] theorem setCal_res0 (s : State) (m : List Host.Cell) : (s.setCal m).res0 = s.res0 := rfl
@[simp] theorem setCal_res1 (s : State) (m : List Host.Cell) : (s.setCal m).res1 = s.res1 := rfl
@[simp] theorem setCal_corrCnt (s : State) (m : List Host.Cell) : (s.setCal m).corrCnt = s.corrCnt := rfl
@[simp] theorem setCal_calset (s : State) (m : List Host.Cell) : (s.setCal m).calset = s.calset := rfl
@[simp] theorem setCal_mem (s : State) (m : List Host.Cell) : (s.setCal m).mem = { s.mem with cal := m } := rfl
@[simp] theorem setCal_inbox (s : State) (m : List Host.Cell) : (s.setCal m).inbox = s.inbox := rfl
@[simp] theorem setCal_reply (s : State) (m : List Host.Cell) : (s.setCal m).reply = s.reply := rfl
@[simp] theorem setCal_epoch (s : State) (m : List Host.Cell) : (s.setCal m).epoch = s.epoch := rfl

/-! ### setRaw -/

@[simp] theorem setRaw_config (s : State) (m : List (Nat × Half)) : (s.setRaw m).config = s.config := rfl
@[simp] theorem setRaw_cmd (s : State) (m : List (Nat × Half)) : (s.setRaw m).cmd = s.cmd := rfl
@[simp] theorem setRaw_arg0 (s : State) (m : List (Nat × Half)) : (s.setRaw m).arg0 = s.arg0 := rfl
@[simp] theorem setRaw_arg1 (s : State) (m : List (Nat × Half)) : (s.setRaw m).arg1 = s.arg1 := rfl
@[simp] theorem setRaw_busy (s : State) (m : List (Nat × Half)) : (s.setRaw m).busy = s.busy := rfl
@[simp] theorem setRaw_done (s : State) (m : List (Nat × Half)) : (s.setRaw m).done = s.done := rfl
@[simp] theorem setRaw_err (s : State) (m : List (Nat × Half)) : (s.setRaw m).err = s.err := rfl
@[simp] theorem setRaw_fallback (s : State) (m : List (Nat × Half)) : (s.setRaw m).fallback = s.fallback := rfl
@[simp] theorem setRaw_seen (s : State) (m : List (Nat × Half)) : (s.setRaw m).seen = s.seen := rfl
@[simp] theorem setRaw_lastAp (s : State) (m : List (Nat × Half)) : (s.setRaw m).lastAp = s.lastAp := rfl
@[simp] theorem setRaw_errSticky (s : State) (m : List (Nat × Half)) : (s.setRaw m).errSticky = s.errSticky := rfl
@[simp] theorem setRaw_errCode (s : State) (m : List (Nat × Half)) : (s.setRaw m).errCode = s.errCode := rfl
@[simp] theorem setRaw_errInfo (s : State) (m : List (Nat × Half)) : (s.setRaw m).errInfo = s.errInfo := rfl
@[simp] theorem setRaw_res0 (s : State) (m : List (Nat × Half)) : (s.setRaw m).res0 = s.res0 := rfl
@[simp] theorem setRaw_res1 (s : State) (m : List (Nat × Half)) : (s.setRaw m).res1 = s.res1 := rfl
@[simp] theorem setRaw_corrCnt (s : State) (m : List (Nat × Half)) : (s.setRaw m).corrCnt = s.corrCnt := rfl
@[simp] theorem setRaw_calset (s : State) (m : List (Nat × Half)) : (s.setRaw m).calset = s.calset := rfl
@[simp] theorem setRaw_mem (s : State) (m : List (Nat × Half)) : (s.setRaw m).mem = { s.mem with raw := m } := rfl
@[simp] theorem setRaw_inbox (s : State) (m : List (Nat × Half)) : (s.setRaw m).inbox = s.inbox := rfl
@[simp] theorem setRaw_reply (s : State) (m : List (Nat × Half)) : (s.setRaw m).reply = s.reply := rfl
@[simp] theorem setRaw_epoch (s : State) (m : List (Nat × Half)) : (s.setRaw m).epoch = s.epoch := rfl

/-! ### setOut -/

@[simp] theorem setOut_config (s : State) (m : List (Nat × Word)) : (s.setOut m).config = s.config := rfl
@[simp] theorem setOut_cmd (s : State) (m : List (Nat × Word)) : (s.setOut m).cmd = s.cmd := rfl
@[simp] theorem setOut_arg0 (s : State) (m : List (Nat × Word)) : (s.setOut m).arg0 = s.arg0 := rfl
@[simp] theorem setOut_arg1 (s : State) (m : List (Nat × Word)) : (s.setOut m).arg1 = s.arg1 := rfl
@[simp] theorem setOut_busy (s : State) (m : List (Nat × Word)) : (s.setOut m).busy = s.busy := rfl
@[simp] theorem setOut_done (s : State) (m : List (Nat × Word)) : (s.setOut m).done = s.done := rfl
@[simp] theorem setOut_err (s : State) (m : List (Nat × Word)) : (s.setOut m).err = s.err := rfl
@[simp] theorem setOut_fallback (s : State) (m : List (Nat × Word)) : (s.setOut m).fallback = s.fallback := rfl
@[simp] theorem setOut_seen (s : State) (m : List (Nat × Word)) : (s.setOut m).seen = s.seen := rfl
@[simp] theorem setOut_lastAp (s : State) (m : List (Nat × Word)) : (s.setOut m).lastAp = s.lastAp := rfl
@[simp] theorem setOut_errSticky (s : State) (m : List (Nat × Word)) : (s.setOut m).errSticky = s.errSticky := rfl
@[simp] theorem setOut_errCode (s : State) (m : List (Nat × Word)) : (s.setOut m).errCode = s.errCode := rfl
@[simp] theorem setOut_errInfo (s : State) (m : List (Nat × Word)) : (s.setOut m).errInfo = s.errInfo := rfl
@[simp] theorem setOut_res0 (s : State) (m : List (Nat × Word)) : (s.setOut m).res0 = s.res0 := rfl
@[simp] theorem setOut_res1 (s : State) (m : List (Nat × Word)) : (s.setOut m).res1 = s.res1 := rfl
@[simp] theorem setOut_corrCnt (s : State) (m : List (Nat × Word)) : (s.setOut m).corrCnt = s.corrCnt := rfl
@[simp] theorem setOut_calset (s : State) (m : List (Nat × Word)) : (s.setOut m).calset = s.calset := rfl
@[simp] theorem setOut_mem (s : State) (m : List (Nat × Word)) : (s.setOut m).mem = { s.mem with out := m } := rfl
@[simp] theorem setOut_inbox (s : State) (m : List (Nat × Word)) : (s.setOut m).inbox = s.inbox := rfl
@[simp] theorem setOut_reply (s : State) (m : List (Nat × Word)) : (s.setOut m).reply = s.reply := rfl
@[simp] theorem setOut_epoch (s : State) (m : List (Nat × Word)) : (s.setOut m).epoch = s.epoch := rfl

/-! ### setGeo -/

@[simp] theorem setGeo_config (s : State) (m : List (Nat × Half)) : (s.setGeo m).config = s.config := rfl
@[simp] theorem setGeo_cmd (s : State) (m : List (Nat × Half)) : (s.setGeo m).cmd = s.cmd := rfl
@[simp] theorem setGeo_arg0 (s : State) (m : List (Nat × Half)) : (s.setGeo m).arg0 = s.arg0 := rfl
@[simp] theorem setGeo_arg1 (s : State) (m : List (Nat × Half)) : (s.setGeo m).arg1 = s.arg1 := rfl
@[simp] theorem setGeo_busy (s : State) (m : List (Nat × Half)) : (s.setGeo m).busy = s.busy := rfl
@[simp] theorem setGeo_done (s : State) (m : List (Nat × Half)) : (s.setGeo m).done = s.done := rfl
@[simp] theorem setGeo_err (s : State) (m : List (Nat × Half)) : (s.setGeo m).err = s.err := rfl
@[simp] theorem setGeo_fallback (s : State) (m : List (Nat × Half)) : (s.setGeo m).fallback = s.fallback := rfl
@[simp] theorem setGeo_seen (s : State) (m : List (Nat × Half)) : (s.setGeo m).seen = s.seen := rfl
@[simp] theorem setGeo_lastAp (s : State) (m : List (Nat × Half)) : (s.setGeo m).lastAp = s.lastAp := rfl
@[simp] theorem setGeo_errSticky (s : State) (m : List (Nat × Half)) : (s.setGeo m).errSticky = s.errSticky := rfl
@[simp] theorem setGeo_errCode (s : State) (m : List (Nat × Half)) : (s.setGeo m).errCode = s.errCode := rfl
@[simp] theorem setGeo_errInfo (s : State) (m : List (Nat × Half)) : (s.setGeo m).errInfo = s.errInfo := rfl
@[simp] theorem setGeo_res0 (s : State) (m : List (Nat × Half)) : (s.setGeo m).res0 = s.res0 := rfl
@[simp] theorem setGeo_res1 (s : State) (m : List (Nat × Half)) : (s.setGeo m).res1 = s.res1 := rfl
@[simp] theorem setGeo_corrCnt (s : State) (m : List (Nat × Half)) : (s.setGeo m).corrCnt = s.corrCnt := rfl
@[simp] theorem setGeo_calset (s : State) (m : List (Nat × Half)) : (s.setGeo m).calset = s.calset := rfl
@[simp] theorem setGeo_mem (s : State) (m : List (Nat × Half)) : (s.setGeo m).mem = { s.mem with geo := m } := rfl
@[simp] theorem setGeo_inbox (s : State) (m : List (Nat × Half)) : (s.setGeo m).inbox = s.inbox := rfl
@[simp] theorem setGeo_reply (s : State) (m : List (Nat × Half)) : (s.setGeo m).reply = s.reply := rfl
@[simp] theorem setGeo_epoch (s : State) (m : List (Nat × Half)) : (s.setGeo m).epoch = s.epoch := rfl

/-! ### setCorrCnt -/

@[simp] theorem setCorrCnt_config (s : State) (n : Half) : (s.setCorrCnt n).config = s.config := rfl
@[simp] theorem setCorrCnt_cmd (s : State) (n : Half) : (s.setCorrCnt n).cmd = s.cmd := rfl
@[simp] theorem setCorrCnt_arg0 (s : State) (n : Half) : (s.setCorrCnt n).arg0 = s.arg0 := rfl
@[simp] theorem setCorrCnt_arg1 (s : State) (n : Half) : (s.setCorrCnt n).arg1 = s.arg1 := rfl
@[simp] theorem setCorrCnt_busy (s : State) (n : Half) : (s.setCorrCnt n).busy = s.busy := rfl
@[simp] theorem setCorrCnt_done (s : State) (n : Half) : (s.setCorrCnt n).done = s.done := rfl
@[simp] theorem setCorrCnt_err (s : State) (n : Half) : (s.setCorrCnt n).err = s.err := rfl
@[simp] theorem setCorrCnt_fallback (s : State) (n : Half) : (s.setCorrCnt n).fallback = s.fallback := rfl
@[simp] theorem setCorrCnt_seen (s : State) (n : Half) : (s.setCorrCnt n).seen = s.seen := rfl
@[simp] theorem setCorrCnt_lastAp (s : State) (n : Half) : (s.setCorrCnt n).lastAp = s.lastAp := rfl
@[simp] theorem setCorrCnt_errSticky (s : State) (n : Half) : (s.setCorrCnt n).errSticky = s.errSticky := rfl
@[simp] theorem setCorrCnt_errCode (s : State) (n : Half) : (s.setCorrCnt n).errCode = s.errCode := rfl
@[simp] theorem setCorrCnt_errInfo (s : State) (n : Half) : (s.setCorrCnt n).errInfo = s.errInfo := rfl
@[simp] theorem setCorrCnt_res0 (s : State) (n : Half) : (s.setCorrCnt n).res0 = s.res0 := rfl
@[simp] theorem setCorrCnt_res1 (s : State) (n : Half) : (s.setCorrCnt n).res1 = s.res1 := rfl
@[simp] theorem setCorrCnt_corrCnt (s : State) (n : Half) : (s.setCorrCnt n).corrCnt = n := rfl
@[simp] theorem setCorrCnt_calset (s : State) (n : Half) : (s.setCorrCnt n).calset = s.calset := rfl
@[simp] theorem setCorrCnt_mem (s : State) (n : Half) : (s.setCorrCnt n).mem = s.mem := rfl
@[simp] theorem setCorrCnt_inbox (s : State) (n : Half) : (s.setCorrCnt n).inbox = s.inbox := rfl
@[simp] theorem setCorrCnt_reply (s : State) (n : Half) : (s.setCorrCnt n).reply = s.reply := rfl
@[simp] theorem setCorrCnt_epoch (s : State) (n : Half) : (s.setCorrCnt n).epoch = s.epoch := rfl

/-! ### setFallback -/

@[simp] theorem setFallback_config (s : State) (b : Bool) : (s.setFallback b).config = s.config := rfl
@[simp] theorem setFallback_cmd (s : State) (b : Bool) : (s.setFallback b).cmd = s.cmd := rfl
@[simp] theorem setFallback_arg0 (s : State) (b : Bool) : (s.setFallback b).arg0 = s.arg0 := rfl
@[simp] theorem setFallback_arg1 (s : State) (b : Bool) : (s.setFallback b).arg1 = s.arg1 := rfl
@[simp] theorem setFallback_busy (s : State) (b : Bool) : (s.setFallback b).busy = s.busy := rfl
@[simp] theorem setFallback_done (s : State) (b : Bool) : (s.setFallback b).done = s.done := rfl
@[simp] theorem setFallback_err (s : State) (b : Bool) : (s.setFallback b).err = s.err := rfl
@[simp] theorem setFallback_fallback (s : State) (b : Bool) : (s.setFallback b).fallback = b := rfl
@[simp] theorem setFallback_seen (s : State) (b : Bool) : (s.setFallback b).seen = s.seen := rfl
@[simp] theorem setFallback_lastAp (s : State) (b : Bool) : (s.setFallback b).lastAp = s.lastAp := rfl
@[simp] theorem setFallback_errSticky (s : State) (b : Bool) : (s.setFallback b).errSticky = s.errSticky := rfl
@[simp] theorem setFallback_errCode (s : State) (b : Bool) : (s.setFallback b).errCode = s.errCode := rfl
@[simp] theorem setFallback_errInfo (s : State) (b : Bool) : (s.setFallback b).errInfo = s.errInfo := rfl
@[simp] theorem setFallback_res0 (s : State) (b : Bool) : (s.setFallback b).res0 = s.res0 := rfl
@[simp] theorem setFallback_res1 (s : State) (b : Bool) : (s.setFallback b).res1 = s.res1 := rfl
@[simp] theorem setFallback_corrCnt (s : State) (b : Bool) : (s.setFallback b).corrCnt = s.corrCnt := rfl
@[simp] theorem setFallback_calset (s : State) (b : Bool) : (s.setFallback b).calset = s.calset := rfl
@[simp] theorem setFallback_mem (s : State) (b : Bool) : (s.setFallback b).mem = s.mem := rfl
@[simp] theorem setFallback_inbox (s : State) (b : Bool) : (s.setFallback b).inbox = s.inbox := rfl
@[simp] theorem setFallback_reply (s : State) (b : Bool) : (s.setFallback b).reply = s.reply := rfl
@[simp] theorem setFallback_epoch (s : State) (b : Bool) : (s.setFallback b).epoch = s.epoch := rfl

/-! ### setCalset -/

@[simp] theorem setCalset_config (s : State) (c : CalSet) : (s.setCalset c).config = s.config := rfl
@[simp] theorem setCalset_cmd (s : State) (c : CalSet) : (s.setCalset c).cmd = s.cmd := rfl
@[simp] theorem setCalset_arg0 (s : State) (c : CalSet) : (s.setCalset c).arg0 = s.arg0 := rfl
@[simp] theorem setCalset_arg1 (s : State) (c : CalSet) : (s.setCalset c).arg1 = s.arg1 := rfl
@[simp] theorem setCalset_busy (s : State) (c : CalSet) : (s.setCalset c).busy = s.busy := rfl
@[simp] theorem setCalset_done (s : State) (c : CalSet) : (s.setCalset c).done = s.done := rfl
@[simp] theorem setCalset_err (s : State) (c : CalSet) : (s.setCalset c).err = s.err := rfl
@[simp] theorem setCalset_fallback (s : State) (c : CalSet) : (s.setCalset c).fallback = s.fallback := rfl
@[simp] theorem setCalset_seen (s : State) (c : CalSet) : (s.setCalset c).seen = s.seen := rfl
@[simp] theorem setCalset_lastAp (s : State) (c : CalSet) : (s.setCalset c).lastAp = s.lastAp := rfl
@[simp] theorem setCalset_errSticky (s : State) (c : CalSet) : (s.setCalset c).errSticky = s.errSticky := rfl
@[simp] theorem setCalset_errCode (s : State) (c : CalSet) : (s.setCalset c).errCode = s.errCode := rfl
@[simp] theorem setCalset_errInfo (s : State) (c : CalSet) : (s.setCalset c).errInfo = s.errInfo := rfl
@[simp] theorem setCalset_res0 (s : State) (c : CalSet) : (s.setCalset c).res0 = s.res0 := rfl
@[simp] theorem setCalset_res1 (s : State) (c : CalSet) : (s.setCalset c).res1 = s.res1 := rfl
@[simp] theorem setCalset_corrCnt (s : State) (c : CalSet) : (s.setCalset c).corrCnt = s.corrCnt := rfl
@[simp] theorem setCalset_calset (s : State) (c : CalSet) : (s.setCalset c).calset = some c := rfl
@[simp] theorem setCalset_mem (s : State) (c : CalSet) : (s.setCalset c).mem = s.mem := rfl
@[simp] theorem setCalset_inbox (s : State) (c : CalSet) : (s.setCalset c).inbox = s.inbox := rfl
@[simp] theorem setCalset_reply (s : State) (c : CalSet) : (s.setCalset c).reply = s.reply := rfl
@[simp] theorem setCalset_epoch (s : State) (c : CalSet) : (s.setCalset c).epoch = s.epoch := rfl

/-! ### setTrack -/

@[simp] theorem setTrack_config (s : State) (v : BitVec 2) (ap : AccessPattern) : (s.setTrack v ap).config = s.config := rfl
@[simp] theorem setTrack_cmd (s : State) (v : BitVec 2) (ap : AccessPattern) : (s.setTrack v ap).cmd = s.cmd := rfl
@[simp] theorem setTrack_arg0 (s : State) (v : BitVec 2) (ap : AccessPattern) : (s.setTrack v ap).arg0 = s.arg0 := rfl
@[simp] theorem setTrack_arg1 (s : State) (v : BitVec 2) (ap : AccessPattern) : (s.setTrack v ap).arg1 = s.arg1 := rfl
@[simp] theorem setTrack_busy (s : State) (v : BitVec 2) (ap : AccessPattern) : (s.setTrack v ap).busy = s.busy := rfl
@[simp] theorem setTrack_done (s : State) (v : BitVec 2) (ap : AccessPattern) : (s.setTrack v ap).done = s.done := rfl
@[simp] theorem setTrack_err (s : State) (v : BitVec 2) (ap : AccessPattern) : (s.setTrack v ap).err = s.err := rfl
@[simp] theorem setTrack_fallback (s : State) (v : BitVec 2) (ap : AccessPattern) : (s.setTrack v ap).fallback = s.fallback := rfl
@[simp] theorem setTrack_seen (s : State) (v : BitVec 2) (ap : AccessPattern) : (s.setTrack v ap).seen = v := rfl
@[simp] theorem setTrack_lastAp (s : State) (v : BitVec 2) (ap : AccessPattern) : (s.setTrack v ap).lastAp = ap := rfl
@[simp] theorem setTrack_errSticky (s : State) (v : BitVec 2) (ap : AccessPattern) : (s.setTrack v ap).errSticky = s.errSticky := rfl
@[simp] theorem setTrack_errCode (s : State) (v : BitVec 2) (ap : AccessPattern) : (s.setTrack v ap).errCode = s.errCode := rfl
@[simp] theorem setTrack_errInfo (s : State) (v : BitVec 2) (ap : AccessPattern) : (s.setTrack v ap).errInfo = s.errInfo := rfl
@[simp] theorem setTrack_res0 (s : State) (v : BitVec 2) (ap : AccessPattern) : (s.setTrack v ap).res0 = s.res0 := rfl
@[simp] theorem setTrack_res1 (s : State) (v : BitVec 2) (ap : AccessPattern) : (s.setTrack v ap).res1 = s.res1 := rfl
@[simp] theorem setTrack_corrCnt (s : State) (v : BitVec 2) (ap : AccessPattern) : (s.setTrack v ap).corrCnt = s.corrCnt := rfl
@[simp] theorem setTrack_calset (s : State) (v : BitVec 2) (ap : AccessPattern) : (s.setTrack v ap).calset = s.calset := rfl
@[simp] theorem setTrack_mem (s : State) (v : BitVec 2) (ap : AccessPattern) : (s.setTrack v ap).mem = s.mem := rfl
@[simp] theorem setTrack_inbox (s : State) (v : BitVec 2) (ap : AccessPattern) : (s.setTrack v ap).inbox = s.inbox := rfl
@[simp] theorem setTrack_reply (s : State) (v : BitVec 2) (ap : AccessPattern) : (s.setTrack v ap).reply = s.reply := rfl
@[simp] theorem setTrack_epoch (s : State) (v : BitVec 2) (ap : AccessPattern) : (s.setTrack v ap).epoch = s.epoch := rfl

/-! ### startCommand -/

@[simp] theorem startCommand_config (s : State) (w : Word) : (s.startCommand w).config = s.config := rfl
@[simp] theorem startCommand_cmd (s : State) (w : Word) : (s.startCommand w).cmd = w := rfl
@[simp] theorem startCommand_arg0 (s : State) (w : Word) : (s.startCommand w).arg0 = s.arg0 := rfl
@[simp] theorem startCommand_arg1 (s : State) (w : Word) : (s.startCommand w).arg1 = s.arg1 := rfl
@[simp] theorem startCommand_busy (s : State) (w : Word) : (s.startCommand w).busy = true := rfl
@[simp] theorem startCommand_done (s : State) (w : Word) : (s.startCommand w).done = false := rfl
@[simp] theorem startCommand_err (s : State) (w : Word) : (s.startCommand w).err = false := rfl
@[simp] theorem startCommand_fallback (s : State) (w : Word) : (s.startCommand w).fallback = s.fallback := rfl
@[simp] theorem startCommand_seen (s : State) (w : Word) : (s.startCommand w).seen = s.seen := rfl
@[simp] theorem startCommand_lastAp (s : State) (w : Word) : (s.startCommand w).lastAp = s.lastAp := rfl
@[simp] theorem startCommand_errSticky (s : State) (w : Word) : (s.startCommand w).errSticky = s.errSticky := rfl
@[simp] theorem startCommand_errCode (s : State) (w : Word) : (s.startCommand w).errCode = 0 := rfl
@[simp] theorem startCommand_errInfo (s : State) (w : Word) : (s.startCommand w).errInfo = 0 := rfl
@[simp] theorem startCommand_res0 (s : State) (w : Word) : (s.startCommand w).res0 = s.res0 := rfl
@[simp] theorem startCommand_res1 (s : State) (w : Word) : (s.startCommand w).res1 = s.res1 := rfl
@[simp] theorem startCommand_corrCnt (s : State) (w : Word) : (s.startCommand w).corrCnt = s.corrCnt := rfl
@[simp] theorem startCommand_calset (s : State) (w : Word) : (s.startCommand w).calset = s.calset := rfl
@[simp] theorem startCommand_mem (s : State) (w : Word) : (s.startCommand w).mem = s.mem := rfl
@[simp] theorem startCommand_inbox (s : State) (w : Word) : (s.startCommand w).inbox = s.inbox := rfl
@[simp] theorem startCommand_reply (s : State) (w : Word) : (s.startCommand w).reply = s.reply := rfl
@[simp] theorem startCommand_epoch (s : State) (w : Word) : (s.startCommand w).epoch = s.epoch := rfl

/-! ### finish -/

@[simp] theorem finish_config (s : State) (a b : Word) : (s.finish a b).config = s.config := rfl
@[simp] theorem finish_cmd (s : State) (a b : Word) : (s.finish a b).cmd = s.cmd := rfl
@[simp] theorem finish_arg0 (s : State) (a b : Word) : (s.finish a b).arg0 = s.arg0 := rfl
@[simp] theorem finish_arg1 (s : State) (a b : Word) : (s.finish a b).arg1 = s.arg1 := rfl
@[simp] theorem finish_busy (s : State) (a b : Word) : (s.finish a b).busy = false := rfl
@[simp] theorem finish_done (s : State) (a b : Word) : (s.finish a b).done = true := rfl
@[simp] theorem finish_err (s : State) (a b : Word) : (s.finish a b).err = false := rfl
@[simp] theorem finish_fallback (s : State) (a b : Word) : (s.finish a b).fallback = s.fallback := rfl
@[simp] theorem finish_seen (s : State) (a b : Word) : (s.finish a b).seen = s.seen := rfl
@[simp] theorem finish_lastAp (s : State) (a b : Word) : (s.finish a b).lastAp = s.lastAp := rfl
@[simp] theorem finish_errSticky (s : State) (a b : Word) : (s.finish a b).errSticky = s.errSticky := rfl
@[simp] theorem finish_errCode (s : State) (a b : Word) : (s.finish a b).errCode = s.errCode := rfl
@[simp] theorem finish_errInfo (s : State) (a b : Word) : (s.finish a b).errInfo = s.errInfo := rfl
@[simp] theorem finish_res0 (s : State) (a b : Word) : (s.finish a b).res0 = a := rfl
@[simp] theorem finish_res1 (s : State) (a b : Word) : (s.finish a b).res1 = b := rfl
@[simp] theorem finish_corrCnt (s : State) (a b : Word) : (s.finish a b).corrCnt = s.corrCnt := rfl
@[simp] theorem finish_calset (s : State) (a b : Word) : (s.finish a b).calset = s.calset := rfl
@[simp] theorem finish_mem (s : State) (a b : Word) : (s.finish a b).mem = s.mem := rfl
@[simp] theorem finish_inbox (s : State) (a b : Word) : (s.finish a b).inbox = s.inbox := rfl
@[simp] theorem finish_reply (s : State) (a b : Word) : (s.finish a b).reply = s.reply := rfl
@[simp] theorem finish_epoch (s : State) (a b : Word) : (s.finish a b).epoch = s.epoch := rfl

/-! ### raiseError -/

@[simp] theorem raiseError_config (s : State) (k : ErrKind) (v : Word) : (s.raiseError k v).config = s.config := rfl
@[simp] theorem raiseError_cmd (s : State) (k : ErrKind) (v : Word) : (s.raiseError k v).cmd = s.cmd := rfl
@[simp] theorem raiseError_arg0 (s : State) (k : ErrKind) (v : Word) : (s.raiseError k v).arg0 = s.arg0 := rfl
@[simp] theorem raiseError_arg1 (s : State) (k : ErrKind) (v : Word) : (s.raiseError k v).arg1 = s.arg1 := rfl
@[simp] theorem raiseError_busy (s : State) (k : ErrKind) (v : Word) : (s.raiseError k v).busy = false := rfl
@[simp] theorem raiseError_done (s : State) (k : ErrKind) (v : Word) : (s.raiseError k v).done = false := rfl
@[simp] theorem raiseError_err (s : State) (k : ErrKind) (v : Word) : (s.raiseError k v).err = true := rfl
@[simp] theorem raiseError_fallback (s : State) (k : ErrKind) (v : Word) : (s.raiseError k v).fallback = s.fallback := rfl
@[simp] theorem raiseError_seen (s : State) (k : ErrKind) (v : Word) : (s.raiseError k v).seen = s.seen := rfl
@[simp] theorem raiseError_lastAp (s : State) (k : ErrKind) (v : Word) : (s.raiseError k v).lastAp = s.lastAp := rfl
@[simp] theorem raiseError_errSticky (s : State) (k : ErrKind) (v : Word) : (s.raiseError k v).errSticky = true := rfl
@[simp] theorem raiseError_errCode (s : State) (k : ErrKind) (v : Word) : (s.raiseError k v).errCode = k.code := rfl
@[simp] theorem raiseError_errInfo (s : State) (k : ErrKind) (v : Word) : (s.raiseError k v).errInfo = v := rfl
@[simp] theorem raiseError_res0 (s : State) (k : ErrKind) (v : Word) : (s.raiseError k v).res0 = 0 := rfl
@[simp] theorem raiseError_res1 (s : State) (k : ErrKind) (v : Word) : (s.raiseError k v).res1 = 0 := rfl
@[simp] theorem raiseError_corrCnt (s : State) (k : ErrKind) (v : Word) : (s.raiseError k v).corrCnt = s.corrCnt := rfl
@[simp] theorem raiseError_calset (s : State) (k : ErrKind) (v : Word) : (s.raiseError k v).calset = s.calset := rfl
@[simp] theorem raiseError_mem (s : State) (k : ErrKind) (v : Word) : (s.raiseError k v).mem = s.mem := rfl
@[simp] theorem raiseError_inbox (s : State) (k : ErrKind) (v : Word) : (s.raiseError k v).inbox = s.inbox := rfl
@[simp] theorem raiseError_reply (s : State) (k : ErrKind) (v : Word) : (s.raiseError k v).reply = s.reply := rfl
@[simp] theorem raiseError_epoch (s : State) (k : ErrKind) (v : Word) : (s.raiseError k v).epoch = s.epoch := rfl

/-! ### clearAll -/

@[simp] theorem clearAll_config (s : State) : (s.clearAll).config = s.config := rfl
@[simp] theorem clearAll_cmd (s : State) : (s.clearAll).cmd = 0x0000007F#32 := rfl
@[simp] theorem clearAll_arg0 (s : State) : (s.clearAll).arg0 = 0 := rfl
@[simp] theorem clearAll_arg1 (s : State) : (s.clearAll).arg1 = 0 := rfl
@[simp] theorem clearAll_busy (s : State) : (s.clearAll).busy = false := rfl
@[simp] theorem clearAll_done (s : State) : (s.clearAll).done = false := rfl
@[simp] theorem clearAll_err (s : State) : (s.clearAll).err = false := rfl
@[simp] theorem clearAll_fallback (s : State) : (s.clearAll).fallback = false := rfl
@[simp] theorem clearAll_seen (s : State) : (s.clearAll).seen = 0 := rfl
@[simp] theorem clearAll_lastAp (s : State) : (s.clearAll).lastAp = .interleaved := rfl
@[simp] theorem clearAll_errSticky (s : State) : (s.clearAll).errSticky = false := rfl
@[simp] theorem clearAll_errCode (s : State) : (s.clearAll).errCode = 0 := rfl
@[simp] theorem clearAll_errInfo (s : State) : (s.clearAll).errInfo = 0 := rfl
@[simp] theorem clearAll_res0 (s : State) : (s.clearAll).res0 = s.res0 := rfl
@[simp] theorem clearAll_res1 (s : State) : (s.clearAll).res1 = s.res1 := rfl
@[simp] theorem clearAll_corrCnt (s : State) : (s.clearAll).corrCnt = 0 := rfl
@[simp] theorem clearAll_calset (s : State) : (s.clearAll).calset = none := rfl
@[simp] theorem clearAll_mem (s : State) : (s.clearAll).mem = s.mem := rfl
@[simp] theorem clearAll_inbox (s : State) : (s.clearAll).inbox = s.inbox := rfl
@[simp] theorem clearAll_reply (s : State) : (s.clearAll).reply = s.reply := rfl
@[simp] theorem clearAll_epoch (s : State) : (s.clearAll).epoch = s.epoch := rfl

/-! ### hardReset -/

@[simp] theorem hardReset_config (s : State) : (s.hardReset).config = s.config := rfl
@[simp] theorem hardReset_cmd (s : State) : (s.hardReset).cmd = 0 := rfl
@[simp] theorem hardReset_arg0 (s : State) : (s.hardReset).arg0 = 0 := rfl
@[simp] theorem hardReset_arg1 (s : State) : (s.hardReset).arg1 = 0 := rfl
@[simp] theorem hardReset_busy (s : State) : (s.hardReset).busy = false := rfl
@[simp] theorem hardReset_done (s : State) : (s.hardReset).done = false := rfl
@[simp] theorem hardReset_err (s : State) : (s.hardReset).err = false := rfl
@[simp] theorem hardReset_fallback (s : State) : (s.hardReset).fallback = false := rfl
@[simp] theorem hardReset_seen (s : State) : (s.hardReset).seen = 0 := rfl
@[simp] theorem hardReset_lastAp (s : State) : (s.hardReset).lastAp = .interleaved := rfl
@[simp] theorem hardReset_errSticky (s : State) : (s.hardReset).errSticky = false := rfl
@[simp] theorem hardReset_errCode (s : State) : (s.hardReset).errCode = 0 := rfl
@[simp] theorem hardReset_errInfo (s : State) : (s.hardReset).errInfo = 0 := rfl
@[simp] theorem hardReset_res0 (s : State) : (s.hardReset).res0 = 0 := rfl
@[simp] theorem hardReset_res1 (s : State) : (s.hardReset).res1 = 0 := rfl
@[simp] theorem hardReset_corrCnt (s : State) : (s.hardReset).corrCnt = 0 := rfl
@[simp] theorem hardReset_calset (s : State) : (s.hardReset).calset = none := rfl
@[simp] theorem hardReset_mem (s : State) : (s.hardReset).mem = Memory.blank := rfl
@[simp] theorem hardReset_inbox (s : State) : (s.hardReset).inbox = s.inbox := rfl
@[simp] theorem hardReset_reply (s : State) : (s.hardReset).reply = .idle := rfl
@[simp] theorem hardReset_epoch (s : State) : (s.hardReset).epoch = s.epoch + 1 := rfl

/-! ### answer -/

@[simp] theorem answer_config (s : State) (r : Reply) : (s.answer r).config = s.config := rfl
@[simp] theorem answer_cmd (s : State) (r : Reply) : (s.answer r).cmd = s.cmd := rfl
@[simp] theorem answer_arg0 (s : State) (r : Reply) : (s.answer r).arg0 = s.arg0 := rfl
@[simp] theorem answer_arg1 (s : State) (r : Reply) : (s.answer r).arg1 = s.arg1 := rfl
@[simp] theorem answer_busy (s : State) (r : Reply) : (s.answer r).busy = s.busy := rfl
@[simp] theorem answer_done (s : State) (r : Reply) : (s.answer r).done = s.done := rfl
@[simp] theorem answer_err (s : State) (r : Reply) : (s.answer r).err = s.err := rfl
@[simp] theorem answer_fallback (s : State) (r : Reply) : (s.answer r).fallback = s.fallback := rfl
@[simp] theorem answer_seen (s : State) (r : Reply) : (s.answer r).seen = s.seen := rfl
@[simp] theorem answer_lastAp (s : State) (r : Reply) : (s.answer r).lastAp = s.lastAp := rfl
@[simp] theorem answer_errSticky (s : State) (r : Reply) : (s.answer r).errSticky = s.errSticky := rfl
@[simp] theorem answer_errCode (s : State) (r : Reply) : (s.answer r).errCode = s.errCode := rfl
@[simp] theorem answer_errInfo (s : State) (r : Reply) : (s.answer r).errInfo = s.errInfo := rfl
@[simp] theorem answer_res0 (s : State) (r : Reply) : (s.answer r).res0 = s.res0 := rfl
@[simp] theorem answer_res1 (s : State) (r : Reply) : (s.answer r).res1 = s.res1 := rfl
@[simp] theorem answer_corrCnt (s : State) (r : Reply) : (s.answer r).corrCnt = s.corrCnt := rfl
@[simp] theorem answer_calset (s : State) (r : Reply) : (s.answer r).calset = s.calset := rfl
@[simp] theorem answer_mem (s : State) (r : Reply) : (s.answer r).mem = s.mem := rfl
@[simp] theorem answer_inbox (s : State) (r : Reply) : (s.answer r).inbox = s.inbox := rfl
@[simp] theorem answer_reply (s : State) (r : Reply) : (s.answer r).reply = r := rfl
@[simp] theorem answer_epoch (s : State) (r : Reply) : (s.answer r).epoch = s.epoch := rfl

end Sys2Proof.Machine.State
end

