-- ==== Sys2Proof/Laws/Ops.lean ====
section
/-! SUPPORT. What the shared operations do, said once: the check at configuration time, the packing of bits, the reads of CALMEM and RAWMEM, the OUTMEM writes
of a conversion. -/

namespace Sys2Proof.Machine

/-! ## The check at configuration time -/

/-- The check answers the record it was given, and only if it passes (00_scope.md R11). -/
theorem check_eq_some {c : Cfg} {x : CheckedCfg} : c.check = some x ↔ x.record = c := by
  constructor
  · intro h
    unfold Cfg.check at h
    split at h
    · cases h; rfl
    · cases h
  · rintro rfl
    exact dif_pos x.ok

/-- An instance starts in the state after reset of the record it was given. -/
theorem configure_eq_some {c : Cfg} {s : State} : State.configure c = some s ↔ s.cfg = c ∧ s = State.resetOf s.config := by
  constructor
  · intro h
    obtain ⟨x, hx, rfl⟩ := Option.map_eq_some_iff.1 h
    exact ⟨check_eq_some.1 hx, rfl⟩
  · rintro ⟨h, hs⟩
    rw [State.configure, check_eq_some.2 h, Option.map_some, ← hs]

/-! ## Packed bits -/

theorem foldl_setBits (P : Nat → Bool) (l : List Nat) (v : Half) (k : Nat) (hk : k < 16) :
    (l.foldl (fun v i => if P i then v ||| (1#16 <<< i) else v) v).getLsbD k =
      (v.getLsbD k || (decide (k ∈ l) && P k)) := by
  induction l generalizing v with
  | nil => simp
  | cons i is ih =>
    rw [List.foldl_cons, ih]
    by_cases hp : P i
    · simp only [hp, if_true, BitVec.getLsbD_or, BitVec.getLsbD_shiftLeft, hk, decide_true, Bool.true_and,
        List.mem_cons]
      by_cases hki : k = i
      · subst hki; simp [hp]
      · have : (1#16).getLsbD (k - i) = decide (k - i = 0) := by simp [BitVec.getLsbD_one]
        rw [this]
        by_cases hlt : k < i
        · simp [hlt, hki]
        · simp [hlt, hki, show ¬ k - i = 0 by omega]
    · have hp' : P i = false := by simpa using hp
      simp only [hp', List.mem_cons]
      by_cases hki : k = i
      · subst hki; simp [hp']
      · simp [hki]

/-- Bit `i` of word `j` of a packed sequence is its element `16j + i` (42_geometry.md R228). -/
theorem getLsbD_packBits (n : Nat) (f : Nat → Bool) (j i : Nat) (hi : i < 16) :
    (packBits n f j).getLsbD i = (decide (16 * j + i < n) && f (16 * j + i)) := by
  have h := foldl_setBits (fun i => decide (16 * j + i < n) && f (16 * j + i)) (List.range 16) 0#16 i hi
  simp only [List.mem_range, hi, decide_true, Bool.true_and, BitVec.getLsbD_zero, Bool.false_or] at h
  rw [← h, packBits]
  congr 2
  funext v k
  simp

/-! ## Reads of CALMEM and RAWMEM -/

theorem readCal_ok {m : Memory} {i : Nat} {b : Byte} : readCal m i = .ok b ↔ readCell m.cal i = some b := by
  unfold readCal; split <;> simp [*]

theorem readCal_error {m : Memory} {i : Nat} {f : Fault} :
    readCal m i = .error f ↔ readCell m.cal i = none ∧ f = .unwrittenCell .calMem i := by
  unfold readCal; split <;> simp [*, eq_comm]

theorem readRaw_ok {m : Memory} {i : Nat} {h : Half} : readRaw m i = .ok h ↔ readCell m.raw i = some h := by
  unfold readRaw; split <;> simp [*]

theorem readRaw_error {m : Memory} {i : Nat} {f : Fault} :
    readRaw m i = .error f ↔ readCell m.raw i = none ∧ f = .unwrittenCell .rawMem i := by
  unfold readRaw; split <;> simp [*, eq_comm]

theorem calWord_ok {m : Memory} {i : Nat} {w : Half} : calWord m i = .ok w ↔
    ∃ hi lo : Byte, readCell m.cal (2 * i) = some hi ∧ readCell m.cal (2 * i + 1) = some lo ∧ w = hi ++ lo := by
  unfold calWord
  split
  · next f h => simp [(readCal_error.1 h).1]
  · next hi h =>
    split
    · next f h' => simp [(readCal_error.1 h').1]
    · next lo h' => simp [readCal_ok.1 h, readCal_ok.1 h', eq_comm]

theorem calWord_error {m : Memory} {i : Nat} {f : Fault} (h : calWord m i = .error f) :
    ∃ k, (k = 2 * i ∨ k = 2 * i + 1) ∧ readCell m.cal k = none ∧ f = .unwrittenCell .calMem k := by
  unfold calWord at h
  split at h
  · next g h' => cases h; exact ⟨_, .inl rfl, readCal_error.1 h'⟩
  · split at h
    · next g h' => cases h; exact ⟨_, .inr rfl, readCal_error.1 h'⟩
    · cases h

/-- The words read are those of the listed indices, in order. -/
theorem calWords_ok {m : Memory} {is : List Nat} {ws : List Half} :
    calWords m is = .ok ws ↔ List.Forall₂ (fun i w => calWord m i = .ok w) is ws := by
  induction is generalizing ws with
  | nil => simp [calWords, eq_comm]
  | cons i is ih =>
    unfold calWords
    split
    · next f h => simp [List.forall₂_cons_left_iff, h]
    · next w h =>
      split
      · next f h' =>
        simp only [reduceCtorEq, List.forall₂_cons_left_iff, false_iff, not_exists, not_and]
        intro v vs _ hvs
        rw [ih.2 hvs] at h'
        cases h'
      · next vs h' =>
        simp only [Except.ok.injEq, List.forall₂_cons_left_iff, h]
        constructor
        · rintro rfl; exact ⟨w, vs, rfl, ih.1 h', rfl⟩
        · rintro ⟨v, vs', rfl, hvs, rfl⟩
          rw [ih.2 hvs] at h'
          cases h'
          rfl

/-- A failed read of the image names an unwritten cell of a listed word. -/
theorem calWords_error {m : Memory} {is : List Nat} {f : Fault} (h : calWords m is = .error f) :
    ∃ i ∈ is, ∃ k, (k = 2 * i ∨ k = 2 * i + 1) ∧ readCell m.cal k = none ∧ f = .unwrittenCell .calMem k := by
  induction is with
  | nil => cases h
  | cons i is ih =>
    unfold calWords at h
    split at h
    · next g h' => cases h; exact ⟨i, by simp, calWord_error h'⟩
    · split at h
      · next g h' =>
        cases h
        obtain ⟨j, hj, r⟩ := ih h'
        exact ⟨j, by simp [hj], r⟩
      · cases h

/-- The image in CALMEM is what CAL.LOAD reads (41_calibration.md R164). -/
theorem calWords_image {s : State} {W : List Half} (h : ImageIs s W) :
    calWords s.mem (List.range s.cfg.calWords) = .ok W := by
  rw [calWords_ok, List.forall₂_iff_get]
  refine ⟨by simp [h.len], fun k hk hk' => ?_⟩
  simp only [List.length_range] at hk
  obtain ⟨hi, lo, h1, h2, h3⟩ := h.words k hk
  rw [calWord_ok]
  refine ⟨hi, lo, by simpa using h1, by simpa using h2, ?_⟩
  rw [List.getElem?_eq_getElem (by simpa using hk')] at h3
  simpa using h3

/-- What CAL.LOAD read is the image in CALMEM. -/
theorem image_of_calWords {s : State} {W : List Half} (h : calWords s.mem (List.range s.cfg.calWords) = .ok W) :
    ImageIs s W := by
  rw [calWords_ok, List.forall₂_iff_get] at h
  obtain ⟨hl, hw⟩ := h
  simp only [List.length_range] at hl
  refine ⟨hl.symm, fun k hk => ?_⟩
  have := hw k (by simpa using hk) (by omega)
  rw [calWord_ok] at this
  obtain ⟨hi, lo, h1, h2, h3⟩ := this
  refine ⟨hi, lo, by simpa using h1, by simpa using h2, ?_⟩
  rw [List.getElem?_eq_getElem (by omega)]
  simpa using h3

/-- CALMEM written whole holds an image. -/
theorem image_exists {s : State} (h : allWritten s.cfg.calBytes s.mem.cal) : ∃ W, ImageIs s W := by
  cases hw : calWords s.mem (List.range s.cfg.calWords) with
  | ok W => exact ⟨W, image_of_calWords hw⟩
  | error f =>
    obtain ⟨i, hi, k, hk, hn, -⟩ := calWords_error hw
    simp only [List.mem_range] at hi
    have := h k (by rcases hk with rfl | rfl <;> simp [Cfg.calBytes] <;> omega)
    simp [hn] at this

theorem readAux_error {m : Memory} {f : Fault} (h : readAux m = .error f) :
    ∃ k, 1 ≤ k ∧ k ≤ 5 ∧ readCell m.raw k = none ∧ f = .unwrittenCell .rawMem k := by
  unfold readAux at h
  repeat' split at h
  all_goals first
    | (cases h; done)
    | (rename_i hr; cases h; exact ⟨_, by omega, by omega, readRaw_error.1 hr⟩)

theorem readAux_ok {m : Memory} {x : RawAux} : readAux m = .ok x ↔
    readCell m.raw 1 = some x.taVbe ∧ readCell m.raw 2 = some x.taPtat ∧ readCell m.raw 3 = some x.gain ∧
      readCell m.raw 4 = some x.vddPix ∧ readCell m.raw 5 = some x.cp := by
  unfold readAux readRaw
  cases x
  cases readCell m.raw 1 <;> cases readCell m.raw 2 <;> cases readCell m.raw 3 <;> cases readCell m.raw 4 <;>
    cases readCell m.raw 5 <;> simp

/-! ## The OUTMEM writes of a conversion -/

variable {cfg : Cfg} {c : CalSet} {S : Shared} {sp : Nat} {ap : AccessPattern} {m : Memory}

/-- What a member pixel gets, once its raw word is written (43_convert.md R284, R286). -/
theorem pixelOut_ok {p : Nat} {v : Word} : pixelOut cfg c S sp ap m p = .ok v ↔
    ∃ raw, readCell m.raw (8 + rank cfg sp ap p) = some raw ∧
      v = if c.failedAt p then failedSentinel else (pixelStage c S sp (c.pixAt p) raw).temp := by
  unfold pixelOut readRaw
  cases readCell m.raw (8 + rank cfg sp ap p) <;> simp [eq_comm (a := v)]

/-- A member pixel whose raw word is unwritten, failed or not (70_reset_and_hazards.md R357). -/
theorem pixelOut_error {p : Nat} {f : Fault} : pixelOut cfg c S sp ap m p = .error f ↔
    readCell m.raw (8 + rank cfg sp ap p) = none ∧ f = .unwrittenCell .rawMem (8 + rank cfg sp ap p) := by
  unfold pixelOut readRaw
  cases readCell m.raw (8 + rank cfg sp ap p) <;> simp [eq_comm (a := f)]

/-- One pixel of the loop. -/
theorem convertPixels_cons (p : Nat) (ps : List Nat) (out : List (Nat × Word)) :
    convertPixels cfg c S sp ap m (p :: ps) out =
      match pixelOut cfg c S sp ap m p with
      | .error f => .error f
      | .ok v => convertPixels cfg c S sp ap m ps (writeCell out p v) := rfl

/-- What a conversion leaves in OUTMEM: the listed pixels' results, every other cell as it was (43_convert.md R283, R285). -/
theorem convertPixels_read {ps : List Nat} {out out' : List (Nat × Word)} (hnd : ps.Nodup)
    (h : convertPixels cfg c S sp ap m ps out = .ok out') (q : Nat) :
    if q ∈ ps then (∃ v, pixelOut cfg c S sp ap m q = .ok v ∧ readCell out' q = some v)
    else readCell out' q = readCell out q := by
  induction ps generalizing out with
  | nil => cases h; simp
  | cons p ps ih =>
    rw [convertPixels_cons] at h
    split at h
    · cases h
    · next v hv =>
      have hq := ih (List.nodup_cons.1 hnd).2 h
      by_cases hin : q ∈ ps
      · simpa [hin] using hq
      · simp only [hin, if_false] at hq
        by_cases hqp : q = p
        · subst hqp
          simp only [List.mem_cons, true_or, if_true]
          exact ⟨v, hv, by rw [hq, readCell_writeCell_self]⟩
        · simp only [List.mem_cons, hqp, hin, or_self, if_false]
          rw [hq, readCell_writeCell_ne _ _ hqp]

/-- A conversion whose words are all readable completes. -/
theorem convertPixels_total {ps : List Nat} (out : List (Nat × Word))
    (h : ∀ p ∈ ps, ∃ v, pixelOut cfg c S sp ap m p = .ok v) :
    ∃ out', convertPixels cfg c S sp ap m ps out = .ok out' := by
  induction ps generalizing out with
  | nil => exact ⟨out, rfl⟩
  | cons p ps ih =>
    obtain ⟨v, hv⟩ := h p (by simp)
    simp only [convertPixels_cons, hv]
    exact ih _ fun q hq => h q (by simp [hq])

/-- A failed conversion names the unwritten RAWMEM word of a listed pixel. -/
theorem convertPixels_error {ps : List Nat} {out : List (Nat × Word)} {f : Fault}
    (h : convertPixels cfg c S sp ap m ps out = .error f) :
    ∃ p ∈ ps, readCell m.raw (8 + rank cfg sp ap p) = none ∧
      f = .unwrittenCell .rawMem (8 + rank cfg sp ap p) := by
  induction ps generalizing out with
  | nil => cases h
  | cons p ps ih =>
    rw [convertPixels_cons] at h
    split at h
    · next g hg =>
      cases h
      exact ⟨p, by simp, pixelOut_error.1 hg⟩
    · obtain ⟨q, hq, r⟩ := ih h
      exact ⟨q, by simp [hq], r⟩

/-- A conversion of pixels of the grid keeps OUTMEM in canonical form. -/
theorem cellsWf_convertPixels {ps : List Nat} {out out' : List (Nat × Word)} {n : Nat} (hp : ∀ p ∈ ps, p < n)
    (hw : cellsWf n out) (h : convertPixels cfg c S sp ap m ps out = .ok out') : cellsWf n out' := by
  induction ps generalizing out with
  | nil => cases h; exact hw
  | cons p ps ih =>
    rw [convertPixels_cons] at h
    split at h
    · cases h
    · exact ih (fun q hq => hp q (by simp [hq])) (cellsWf_writeCell _ hw (hp p (by simp))) h

end Sys2Proof.Machine
end

