-- ==== Sys2Proof/Laws/Cal.lean ====
section
/-! SUPPORT. The laws of the calibration unit: what the ECC pass returns, and that a CalibrationSet that passed validation is a
valid one. -/

namespace Sys2Proof.Machine

/-! ## The ECC pass -/

/-- A pass that succeeds has decoded every word, in order. -/
theorem eccpassFrom_ok {i n : Nat} {W : List Half} {P : List Payload} (h : eccpassFrom i W = .ok P n) :
    n ≤ W.length ∧ List.Forall₂ (fun w p => ∃ cr pos S, eccdec w = .ok p cr pos S) W P := by
  induction W generalizing i n P with
  | nil => cases h; exact ⟨Nat.le_refl _, .nil⟩
  | cons w ws ih =>
    unfold eccpassFrom at h
    split at h
    · cases h
    · next p cr pos S hd =>
      split at h
      · cases h
      · next ps m hr =>
        cases h
        obtain ⟨hn, hf⟩ := ih hr
        refine ⟨?_, .cons ⟨cr, pos, S, hd⟩ hf⟩
        simp only [List.length_cons]
        split <;> omega

/-- A pass over words that all decode succeeds. -/
theorem eccpassFrom_total {W : List Half} (i : Nat) (h : ∀ w ∈ W, ∀ S, eccdec w ≠ .err S) : ∃ P n, eccpassFrom i W = .ok P n := by
  induction W generalizing i with
  | nil => exact ⟨[], 0, rfl⟩
  | cons w ws ih =>
    obtain ⟨P, n, hp⟩ := ih (i + 1) fun v hv => h v (List.mem_cons_of_mem _ hv)
    unfold eccpassFrom
    cases hd : eccdec w with
    | err S => exact absurd hd (h w List.mem_cons_self S)
    | ok p cr pos S => simp only [hp]; exact ⟨_, _, rfl⟩

/-- A pass that fails names the first word that fails (41_calibration.md R166). -/
theorem eccpassFrom_err {i j : Nat} {W : List Half} {v : Half} {S : BitVec 5} (h : eccpassFrom i W = .err j v S) :
    i ≤ j ∧ W[j - i]? = some v ∧ eccdec v = .err S ∧
      ∀ k, k < j - i → ∀ x, W[k]? = some x → ∀ S', eccdec x ≠ .err S' := by
  induction W generalizing i j v S with
  | nil => cases h
  | cons w ws ih =>
    unfold eccpassFrom at h
    split at h
    · next S' hd =>
      cases h
      exact ⟨Nat.le_refl _, by simp, hd, fun k hk => by omega⟩
    · next p cr pos S0 hd =>
      split at h
      · next j' v' S' hr =>
        cases h
        obtain ⟨h1, h2, h3, h4⟩ := ih hr
        have e : j - i = (j - (i + 1)) + 1 := by omega
        refine ⟨by omega, by rw [e]; simpa using h2, h3, fun k hk x hx S' => ?_⟩
        cases k with
        | zero =>
          simp only [List.getElem?_cons_zero, Option.some.injEq] at hx
          subst hx; simp [hd]
        | succ k => exact h4 k (by omega) x (by simpa using hx) S'
      · cases h

/-- The count of a pass is at most the number of words (10_state.md R40). -/
theorem eccpass_count {W : List Half} {P : List Payload} {n : Nat} (h : eccpass W = .ok P n) : n ≤ W.length :=
  (eccpassFrom_ok h).1

/-! ## Validation -/

theorem fieldS_range (P : List Payload) (i : Nat) : -1024 ≤ fieldS P i 10 0 ∧ fieldS P i 10 0 < 1024 := by
  have h1 := BitVec.le_toInt ((payloadAt P i).extractLsb' 0 (10 - 0 + 1))
  have h2 := BitVec.toInt_lt (x := (payloadAt P i).extractLsb' 0 (10 - 0 + 1))
  simpa [fieldS] using And.intro h1 h2

theorem f32OfInt_step : ∀ n : Fin 2048, f32IsNaN (f32OfInt ((n.val : Int) - 1024)) = false ∧
    f32Key (f32OfInt ((n.val : Int) - 1024)) < f32Key (f32OfInt ((n.val : Int) + 1 - 1024)) := by decide +kernel

/-- Conversion of 11-bit integers is strictly monotonic (41_calibration.md R200). -/
theorem f32Lt_f32OfInt {a b : Int} (ha : -1024 ≤ a) (hb : b < 1024) (h : a < b) : f32Lt (f32OfInt a) (f32OfInt b) = true := by
  have nan : ∀ x : Int, -1024 ≤ x → x < 1024 → f32IsNaN (f32OfInt x) = false := by
    intro x h1 h2
    have := (f32OfInt_step ⟨(x + 1024).toNat, by omega⟩).1
    rwa [show (((x + 1024).toNat : Nat) : Int) - 1024 = x by omega] at this
  have key : ∀ n : Nat, ∀ x : Int, -1024 ≤ x → x + (n : Int) < 1023 →
      f32Key (f32OfInt x) < f32Key (f32OfInt (x + n + 1)) := by
    intro n
    induction n with
    | zero =>
      intro x h1 h2
      have := (f32OfInt_step ⟨(x + 1024).toNat, by omega⟩).2
      rw [show (((x + 1024).toNat : Nat) : Int) - 1024 = x by omega,
        show (((x + 1024).toNat : Nat) : Int) + 1 - 1024 = x + 1 by omega] at this
      simpa using this
    | succ n ih =>
      intro x h1 h2
      push_cast at h2 ⊢
      have hs := (f32OfInt_step ⟨(x + n + 1 + 1024).toNat, by omega⟩).2
      rw [show (((x + n + 1 + 1024).toNat : Nat) : Int) - 1024 = x + n + 1 by omega,
        show (((x + n + 1 + 1024).toNat : Nat) : Int) + 1 - 1024 = x + (n + 1) + 1 by omega] at hs
      exact lt_trans (ih x h1 (by omega)) hs
  have hk := key (b - a - 1).toNat a ha (by omega)
  rw [show a + ((b - a - 1).toNat : Int) + 1 = b by omega] at hk
  simp [f32Lt, nan a ha (by omega), nan b (by omega) hb, hk]

theorem badCorner_none {npix nct : Nat} {P : List Payload} (h : badCorner npix P nct = none) (i : Nat) (h1 : i + 1 < nct) :
    rawField npix P (.ctRaw i) < rawField npix P (.ctRaw (i + 1)) := by
  unfold badCorner at h
  rw [List.find?_eq_none] at h
  have := h (i + 1) (by simp [List.mem_range']; exact ⟨i, by omega, by omega⟩)
  simpa using this

/-- What validation establishes (41_calibration.md R198 to R201). -/
theorem validate_none {cfg : Cfg} {P : List Payload} (h : validate cfg P = none) :
    1 ≤ (rawField cfg.npix P .ng).toNat ∧ (rawField cfg.npix P .ng).toNat ≤ 8 ∧
      (rawField cfg.npix P .nct).toNat + 1 = (rawField cfg.npix P .ng).toNat ∧
      badCorner cfg.npix P (rawField cfg.npix P .nct).toNat = none ∧ cfg.btr < (rawField cfg.npix P .ng).toNat := by
  unfold validate at h
  simp only at h
  split at h
  · cases h
  · next h1 =>
    split at h
    · cases h
    · next h2 =>
      split at h
      · cases h
      · next h3 =>
        split at h
        · cases h
        · next h4 => exact ⟨by omega, by omega, not_not.1 h2, h3, by omega⟩

theorem isFailed_isOutlier (cfg : Cfg) (P : List Payload) (p : Nat) :
    ¬(isFailed cfg.npix P p = true ∧ isOutlier cfg P p = true) := by
  simp only [isOutlier]
  cases isFailed cfg.npix P p <;> simp

/-- A CalibrationSet built from payloads that pass validation is valid (10_state.md R50). -/
theorem slice_wf {cfg : Cfg} {P : List Payload} (h : validate cfg P = none) : (slice cfg P).wf cfg := by
  obtain ⟨h1, h2, h3, h4, h5⟩ := validate_none h
  refine
    { ngPos := h1
      ngMax := h2
      nctEq := h3
      ctLen := by simp [slice]
      kstoLen := by simp [slice]
      gLen := by simp [slice]
      ctRising := ?_
      btrBand := h5
      pixLen := by simp [slice]
      disjoint := ?_ }
  · have mono : ∀ n i : Nat, i + n + 1 < (rawField cfg.npix P .nct).toNat →
        rawField cfg.npix P (.ctRaw i) < rawField cfg.npix P (.ctRaw (i + n + 1)) := by
      intro n
      induction n with
      | zero => intro i hi; exact badCorner_none h4 i hi
      | succ n ih =>
        intro i hi
        exact lt_trans (ih i (by omega)) (badCorner_none h4 (i + n + 1) (by omega))
    simp only [slice, List.pairwise_map]
    rw [List.pairwise_iff_getElem]
    intro i j hi hj hij
    simp only [List.length_range, List.getElem_range] at hi hj ⊢
    have hm := mono (j - i - 1) i (by omega)
    rw [show i + (j - i - 1) + 1 = j by omega] at hm
    exact f32Lt_f32OfInt (fieldS_range P (41 + i)).1 (fieldS_range P (41 + j)).2 hm
  · intro x hx
    simp only [slice, List.mem_map, List.mem_range] at hx
    obtain ⟨p, -, rfl⟩ := hx
    exact isFailed_isOutlier cfg P p

end Sys2Proof.Machine
end

