-- ==== Sys2Proof/Laws/Geo.lean ====
section
/-! SUPPORT. The laws of the geometry unit: members and their ranks, and what the span loop emits. -/

namespace Sys2Proof.Machine

variable {c : Cfg} {sp : Nat} {ap : AccessPattern}

/-! ## Members and ranks -/

theorem mem_members {p : Nat} : p ∈ members c sp ap ↔ p < c.npix ∧ member c sp ap p = true := by
  simp [members]

theorem members_nodup : (members c sp ap).Nodup := List.Nodup.filter _ List.nodup_range

theorem members_lt {p : Nat} (h : p ∈ members c sp ap) : p < c.npix := (mem_members.1 h).1

theorem nmem_le : nmem c sp ap ≤ c.npix := by
  have := List.length_filter_le (member c sp ap) (List.range c.npix)
  simpa [nmem, members] using this

/-- The subpage of a pixel is 0 or 1 (42_geometry.md R225). -/
theorem spOf_lt_two (p : Nat) : spOf c ap p < 2 := by
  unfold spOf
  split
  · omega
  · split <;> omega

theorem rank_succ (p : Nat) : rank c sp ap (p + 1) = rank c sp ap p + if member c sp ap p then 1 else 0 := by
  simp only [rank, List.range_succ, List.filter_append, List.length_append, List.filter_cons, List.filter_nil]
  split <;> simp

theorem rank_mono {p q : Nat} (h : p ≤ q) : rank c sp ap p ≤ rank c sp ap q := by
  induction q, h using Nat.le_induction with
  | base => exact Nat.le_refl _
  | succ n _ ih => rw [rank_succ]; omega

/-- The rank of a member is below the number of members: its raw word is inside RAWMEM. -/
theorem rank_lt_nmem {p : Nat} (h : p ∈ members c sp ap) : rank c sp ap p < nmem c sp ap := by
  obtain ⟨hp, hm⟩ := mem_members.1 h
  have h1 := rank_succ (c := c) (sp := sp) (ap := ap) p
  have h2 : rank c sp ap (p + 1) ≤ rank c sp ap c.npix := rank_mono hp
  have h3 : rank c sp ap c.npix = nmem c sp ap := rfl
  simp only [hm, if_true] at h1
  omega

/-! ## Spans -/

/-- The addresses of a span sequence, in order. -/
def spanAddrs (l : List (Nat × Nat)) : List Nat := l.flatMap fun x => List.range' x.1 x.2

/-- Every position below the number of members is the rank of one: RAWMEM words `8 .. 7 + NMEM` each belong to a member pixel (43_convert.md
R280). -/
theorem exists_rank {n r : Nat} (h : r < rank c sp ap n) : ∃ p, p < n ∧ member c sp ap p = true ∧ rank c sp ap p = r := by
  induction n with
  | zero => cases h
  | succ n ih =>
    rw [rank_succ] at h
    by_cases hr : r < rank c sp ap n
    · obtain ⟨p, hp, hm⟩ := ih hr
      exact ⟨p, by omega, hm⟩
    · by_cases hm : member c sp ap n = true
      · rw [if_pos hm] at h
        exact ⟨n, by omega, hm, by omega⟩
      · rw [if_neg hm] at h
        omega

/-- The same of the members of the grid. -/
theorem exists_member_rank {r : Nat} (h : r < nmem c sp ap) : ∃ p ∈ members c sp ap, rank c sp ap p = r := by
  obtain ⟨p, hp, hm, hr⟩ := exists_rank (n := c.npix) h
  exact ⟨p, mem_members.2 ⟨hp, hm⟩, hr⟩

theorem range'_append_one (a l : Nat) : List.range' a (l + 1) = List.range' a l ++ [a + l] := by
  rw [List.range'_concat]; simp

/-- The loop emits the addresses of the open span, then those of the members among the pixels still to come. -/
theorem spanAddrs_spansFrom (cur : Option (Nat × Nat)) (ps : List Nat) :
    spanAddrs (spansFrom c sp ap cur ps) =
      spanAddrs cur.toList ++ (ps.filter (member c sp ap)).map (pixAddr c) := by
  induction ps generalizing cur with
  | nil => cases cur <;> simp [spansFrom]
  | cons p ps ih =>
    cases cur with
    | none =>
      by_cases hm : member c sp ap p
      · have := ih (some (pixAddr c p, 1))
        simp only [spanAddrs] at this
        simp [spansFrom, hm, this, spanAddrs]
      · simp [spansFrom, hm, ih]
    | some x =>
      obtain ⟨a, l⟩ := x
      by_cases hm : member c sp ap p
      · by_cases ht : a + l = pixAddr c p
        · have := ih (some (a, l + 1))
          simp only [spanAddrs] at this
          simp [spansFrom, hm, ht, this, spanAddrs, range'_append_one]
        · have := ih (some (pixAddr c p, 1))
          simp only [spanAddrs, Option.toList_some, List.flatMap_cons, List.flatMap_nil, List.append_nil] at this ⊢
          simp [spansFrom, hm, ht, this]
      · simp [spansFrom, hm, ih]

/-- How many spans the loop can still emit over `n` consecutive pixels: a span needs a pixel, and two need a pixel between. -/
theorem length_spansFrom (k n : Nat) :
    2 * (spansFrom c sp ap none (List.range' k n)).length ≤ n + 1 ∧
      (∀ a l, a + l = pixAddr c k → 2 * (spansFrom c sp ap (some (a, l)) (List.range' k n)).length ≤ n + 2) ∧
      ∀ a l, 2 * (spansFrom c sp ap (some (a, l)) (List.range' k n)).length ≤ n + 3 := by
  induction n generalizing k with
  | zero => simp [spansFrom]
  | succ n ih =>
    obtain ⟨h0, h1, h2⟩ := ih (k + 1)
    have hk : pixAddr c (k + 1) = pixAddr c k + 1 := by simp [pixAddr]; omega
    have h1' := h1 (pixAddr c k) 1 hk.symm
    rw [List.range'_succ]
    refine ⟨?_, ?_, ?_⟩
    · simp only [spansFrom]; split <;> omega
    · intro a l hal
      simp only [spansFrom, hal, if_true]
      split
      · have := h1 a (l + 1) (by omega); omega
      · have := h2 a l; omega
    · intro a l
      simp only [spansFrom]
      split
      · split
        · next hal => have := h1 a (l + 1) (by omega); omega
        · simp only [List.length_cons]; omega
      · have := h2 a l; omega

/-- The shape of what the loop emits over consecutive pixels: spans of at least one word, each starting past the end of the one before,
with a word between. -/
theorem spansFrom_separated (k n : Nat) :
    ((spansFrom c sp ap none (List.range' k n)).Pairwise (fun x y => x.1 + x.2 < y.1) ∧
      ∀ x ∈ spansFrom c sp ap none (List.range' k n), 1 ≤ x.2 ∧ pixAddr c k ≤ x.1) ∧
    ∀ a l, 1 ≤ l → a + l ≤ pixAddr c k →
      ((spansFrom c sp ap (some (a, l)) (List.range' k n)).Pairwise (fun x y => x.1 + x.2 < y.1) ∧
        ∀ x ∈ spansFrom c sp ap (some (a, l)) (List.range' k n), 1 ≤ x.2 ∧ a ≤ x.1) := by
  induction n generalizing k with
  | zero => simp +contextual [spansFrom]
  | succ n ih =>
    obtain ⟨⟨h0, h0'⟩, h1⟩ := ih (k + 1)
    have hk : pixAddr c (k + 1) = pixAddr c k + 1 := by simp [pixAddr]; omega
    obtain ⟨hn, hn'⟩ := h1 (pixAddr c k) 1 (by omega) (by omega)
    rw [List.range'_succ]
    refine ⟨?_, ?_⟩
    · simp only [spansFrom]
      split
      · exact ⟨hn, hn'⟩
      · exact ⟨h0, fun x hx => ⟨(h0' x hx).1, by have := (h0' x hx).2; omega⟩⟩
    · intro a l hl hal
      simp only [spansFrom]
      split
      · split
        · next ht => exact h1 a (l + 1) (by omega) (by omega)
        · next ht =>
          refine ⟨List.pairwise_cons.2 ⟨fun x hx => ?_, hn⟩, fun x hx => ?_⟩
          · have := (hn' x hx).2; simp only; omega
          · rcases List.mem_cons.1 hx with rfl | hx
            · exact ⟨hl, Nat.le_refl _⟩
            · exact ⟨(hn' x hx).1, by have := (hn' x hx).2; omega⟩
      · exact h1 a l hl (by omega)

theorem length_spanWords (l : List (Nat × Nat)) : (spanWords l).length = 2 * l.length := by
  induction l with
  | nil => rfl
  | cons x xs ih => simp [spanWords, ih]; omega

/-- Span `k` stands in words `2k` and `2k + 1` (42_geometry.md R234). -/
theorem getElem?_spanWords (l : List (Nat × Nat)) (k : Nat) :
    (spanWords l)[2 * k]? = l[k]?.map (fun x => BitVec.ofNat 16 x.1) ∧
      (spanWords l)[2 * k + 1]? = l[k]?.map (fun x => BitVec.ofNat 16 x.2) := by
  induction l generalizing k with
  | nil => simp [spanWords]
  | cons x xs ih =>
    cases k with
    | zero => simp [spanWords]
    | succ k =>
      have := ih k
      simp only [spanWords, show 2 * (k + 1) = 2 * k + 1 + 1 by omega, List.getElem?_cons_succ]
      exact this

/-- The span words fit GEOMEM (42_geometry.md R234). -/
theorem spanWords_fit : (spanWords (spans c sp ap)).length ≤ spaceSize c .geoMem := by
  have h := (length_spansFrom (c := c) (sp := sp) (ap := ap) 0 c.npix).1
  rw [← List.range_eq_range'] at h
  rw [length_spanWords]
  simp only [spans, spaceSize]
  omega

/-- The bitmap words fit GEOMEM (42_geometry.md R228). -/
theorem memberWords_fit : (memberWords c sp ap).length ≤ spaceSize c .geoMem := by
  simp only [memberWords, List.length_map, List.length_range, flagWords, spaceSize]
  omega

end Sys2Proof.Machine
end

