-- ==== Sys2Proof/Laws/Commands.lean ====
section
/-! SUPPORT. Inversion of the commands: for each command with more than one end, the cases in which it answers a next state, and the
cells an access that has no result names. Provers cite these instead of unfolding a meaning. -/

namespace Sys2Proof.Machine

variable {s t : State}

/-- The ends of ECC.DEC (40_ecc.md R136). -/
theorem execEccDec_cases {tag : Half} (h : execEccDec tag s = .next t) :
    (∃ S, eccdec (eccWordOf s) = .err S ∧
      t = (s.setCorrCnt 0).raiseError .checksumError (infoChecksum (eccWordOf s) tag)) ∨
    ∃ payload corrected pos S, eccdec (eccWordOf s) = .ok payload corrected pos S ∧
      t = ((s.setCorrCnt 0).setCorrCnt (if corrected then 1 else 0)).finish (payload.setWidth 32)
        (eccDiag corrected pos S) := by
  unfold execEccDec at h
  split at h
  · next S hd => cases h; exact .inl ⟨S, hd, rfl⟩
  · next p cr pos S hd => cases h; exact .inr ⟨p, cr, pos, S, hd, rfl⟩

/-- The ends of GEO.CONST (42_geometry.md R222). -/
theorem execGeoConst_cases {idx : Half} {ap : AccessPattern} (h : execGeoConst idx ap s = .next t) :
    (∃ v, geoConstant s.cfg idx.toNat ap = some v ∧ t = s.finish v 0) ∨
    (geoConstant s.cfg idx.toNat ap = none ∧ t = s.raiseError .illegalCommand (infoIllegal s.cmd)) := by
  unfold execGeoConst at h
  split at h
  · next v hv => cases h; exact .inl ⟨v, hv, rfl⟩
  · next hv => cases h; exact .inr ⟨hv, rfl⟩

/-- The two ends once the payloads are there (41_calibration.md R167, R198, R204). -/
theorem calCommit_cases (s : State) (P : List Payload) (n : Nat) :
    (∃ sub k, validate s.cfg P = some (sub, k) ∧
      calCommit s P n = (s.setCorrCnt (BitVec.ofNat 16 n)).raiseError .configurationError
        (infoConfiguration (BitVec.ofNat 8 sub) (BitVec.ofNat 8 k))) ∨
    (validate s.cfg P = none ∧
      calCommit s P n = ((s.setCorrCnt (BitVec.ofNat 16 n)).setCalset (slice s.cfg P)).finish
        ((BitVec.ofNat 16 n).setWidth 32) (if s.fallback then 1 else 0)) := by
  unfold calCommit
  simp only [State.cfg, State.setCorrCnt_config]
  split
  · next sub k hv => exact .inl ⟨sub, k, hv, rfl⟩
  · next hv => exact .inr ⟨hv, rfl⟩

/-- What the ECC passes lead to (41_calibration.md R165, R169, R171). -/
theorem calDecode_cases (s : State) (W : List Half) :
    (∃ P n, eccpass W = .ok P n ∧ calDecode s W = calCommit s P n) ∨
    (∃ i w S, eccpass W = .err i w S ∧ s.cfg.eccFallback = false ∧ calDecode s W = calChecksumError s i w) ∨
    (∃ i w S, eccpass W = .err i w S ∧ s.cfg.eccFallback = true ∧
      ((∃ P n, eccpass (synthesized W) = .ok P n ∧ calDecode s W = calCommit (s.setFallback true) P n) ∨
        ∃ j v S', eccpass (synthesized W) = .err j v S' ∧
          calDecode s W = calChecksumError (s.setFallback true) j v)) := by
  unfold calDecode
  split
  · next P n h => exact .inl ⟨P, n, h, rfl⟩
  · next i w S h =>
    split
    · next hf =>
      refine .inr (.inr ⟨i, w, S, h, hf, ?_⟩)
      split
      · next P n h' => exact .inl ⟨P, n, h', rfl⟩
      · next j v S' h' => exact .inr ⟨j, v, S', h', rfl⟩
    · next hf => exact .inr (.inl ⟨i, w, S, h, by simpa using hf, rfl⟩)

/-- The ends of CAL.LOAD (41_calibration.md R160). -/
theorem execCalLoad_cases (h : execCalLoad s = .next t) :
    (s.calset.isSome = true ∧ t = ((s.setCorrCnt 0).setFallback false).raiseError .calLocked 0) ∨
    (s.calset = none ∧ s.arg0.toNat ≠ s.cfg.calBytes ∧
      t = ((s.setCorrCnt 0).setFallback false).raiseError .invalidData s.arg0) ∨
    (s.calset = none ∧ s.arg0.toNat = s.cfg.calBytes ∧
      ∃ W, ImageIs s W ∧ t = calDecode ((s.setCorrCnt 0).setFallback false) W) := by
  unfold execCalLoad at h
  simp only at h
  split at h
  · next hc => cases h; exact .inl ⟨hc, rfl⟩
  · next hc =>
    have hn : s.calset = none := by simpa using hc
    split at h
    · next hl => cases h; exact .inr (.inl ⟨hn, hl, rfl⟩)
    · next hl =>
      split at h
      · cases h
      · next W hW => cases h; exact .inr (.inr ⟨hn, not_not.1 hl, W, image_of_calWords hW, rfl⟩)

/-- CAL.LOAD on a CALMEM that holds an image (41_calibration.md R160). -/
theorem execCalLoad_image {W : List Half} (hc : s.calset = none) (ha : s.arg0.toNat = s.cfg.calBytes) (hW : ImageIs s W) :
    execCalLoad s = .next (calDecode ((s.setCorrCnt 0).setFallback false) W) := by
  simp [execCalLoad, hc, ha, calWords_image hW]

/-- The one way CAL.LOAD has no result (70_reset_and_hazards.md R357). -/
theorem execCalLoad_fault {f : Fault} (h : execCalLoad s = .fault f) :
    ∃ k, k < s.cfg.calBytes ∧ readCell s.mem.cal k = none ∧ f = .unwrittenCell .calMem k := by
  unfold execCalLoad at h
  simp only at h
  split at h
  · cases h
  · split at h
    · cases h
    · split at h
      · next g hg =>
        cases h
        obtain ⟨i, hi, k, hk, hn, rfl⟩ := calWords_error hg
        simp only [List.mem_range] at hi
        exact ⟨k, by simp only [Cfg.calBytes]; omega, hn, rfl⟩
      · cases h

/-- The ends of the converting part of CVT.SUBPAGE (43_convert.md R255). -/
theorem convertFrame_cases {c : CalSet} {sp : Nat} {ap : AccessPattern} {res : BitVec 2}
    (h : convertFrame c sp ap res s = .next t) :
    ∃ x out, readAux s.mem = .ok x ∧
      convertPixels s.cfg c (shared s.cfg c sp ap res x) sp ap s.mem (members s.cfg sp ap) s.mem.out = .ok out ∧
      t = ((s.setOut out).setTrack (track s.cfg s.seen s.lastAp sp ap).1 ap).finish
        (if (track s.cfg s.seen s.lastAp sp ap).2 then 1 else 0) (BitVec.ofNat 32 sp) := by
  unfold convertFrame at h
  split at h
  · cases h
  · next x hx =>
    split at h
    · cases h
    · next out ho => cases h; exact ⟨x, out, hx, ho, rfl⟩

/-- The ends of CVT.SUBPAGE, in the order of its checks (43_convert.md R255). -/
theorem execCvtSubpage_cases {ap : AccessPattern} {res : BitVec 2} (h : execCvtSubpage ap res s = .next t) :
    (s.calset = none ∧ t = s.raiseError .noCalibration 0) ∨
    ∃ c, s.calset = some c ∧
      ((s.arg0.toNat ≠ s.cfg.npix ∧ t = s.raiseError .invalidData s.arg0) ∨
      (s.arg0.toNat = s.cfg.npix ∧ ∃ st, readCell s.mem.raw 0 = some st ∧
        ((s.cfg.nsub ap ≤ statusSubpage st ∧ t = s.raiseError .statusError (infoStatus st)) ∨
        (statusSubpage st < s.cfg.nsub ap ∧ statusReady st = false ∧ t = s.finish 2 0) ∨
        (statusSubpage st < s.cfg.nsub ap ∧ statusReady st = true ∧
          s.arg1.toNat ≠ nmem s.cfg (statusSubpage st) ap ∧ t = s.raiseError .invalidData s.arg1) ∨
        (statusSubpage st < s.cfg.nsub ap ∧ statusReady st = true ∧
          s.arg1.toNat = nmem s.cfg (statusSubpage st) ap ∧
          convertFrame c (statusSubpage st) ap res s = .next t)))) := by
  unfold execCvtSubpage at h
  split at h
  · next hc => cases h; exact .inl ⟨hc, rfl⟩
  · next c hc =>
    refine .inr ⟨c, hc, ?_⟩
    split at h
    · next hl => cases h; exact .inl ⟨hl, rfl⟩
    · next hl =>
      refine .inr ⟨not_not.1 hl, ?_⟩
      split at h
      · cases h
      · next st hst =>
        refine ⟨st, readRaw_ok.1 hst, ?_⟩
        split at h
        · next hs => cases h; exact .inl ⟨hs, rfl⟩
        · next hs =>
          split at h
          · next hr => cases h; exact .inr (.inl ⟨by omega, by simpa using hr, rfl⟩)
          · next hr =>
            split at h
            · next hq => cases h; exact .inr (.inr (.inl ⟨by omega, by simpa using hr, hq, rfl⟩))
            · next hq => exact .inr (.inr (.inr ⟨by omega, by simpa using hr, not_not.1 hq, h⟩))

/-- The one way CVT.SUBPAGE has no result (70_reset_and_hazards.md R357): it names a RAWMEM cell the command reads. -/
theorem execCvtSubpage_fault {ap : AccessPattern} {res : BitVec 2} {f : Fault} (h : execCvtSubpage ap res s = .fault f) :
    ∃ k, k < 8 + s.cfg.npix ∧ k ≠ 6 ∧ k ≠ 7 ∧ readCell s.mem.raw k = none ∧ f = .unwrittenCell .rawMem k := by
  unfold execCvtSubpage at h
  split at h
  · cases h
  · split at h
    · cases h
    · split at h
      · next g hg =>
        cases h
        obtain ⟨hn, rfl⟩ := readRaw_error.1 hg
        exact ⟨0, by omega, by omega, by omega, hn, rfl⟩
      · next st hst =>
        split at h
        · cases h
        · split at h
          · cases h
          · split at h
            · cases h
            · unfold convertFrame at h
              split at h
              · next g hg =>
                cases h
                obtain ⟨k, h1, h2, hn, rfl⟩ := readAux_error hg
                exact ⟨k, by omega, by omega, by omega, hn, rfl⟩
              · split at h
                · next g hg =>
                  cases h
                  obtain ⟨p, hp, hn, rfl⟩ := convertPixels_error hg
                  have h1 := rank_lt_nmem hp
                  have h2 := nmem_le (c := s.cfg) (sp := statusSubpage st) (ap := ap)
                  exact ⟨_, by omega, by omega, by omega, hn, rfl⟩
                · cases h

/-- The tracking never stores a full image (43_convert.md R288). -/
theorem track_open {cfg : Cfg} {seen : BitVec 2} {la ap : AccessPattern} {sp : Nat} (hw : cfg.wf)
    (ho : seen.toNat + 1 < 2 ^ cfg.nsub la) (hs : sp < cfg.nsub ap) :
    (track cfg seen la sp ap).1.toNat + 1 < 2 ^ cfg.nsub ap := by
  obtain ⟨-, -, -, -, -, -, hi, hc⟩ := hw
  have hn : ∀ a, cfg.nsub a = 1 ∨ cfg.nsub a = 2 := fun a => by cases a <;> simpa [Cfg.nsub]
  unfold track
  simp only
  rcases hn ap with h1 | h2
  · have hsp : sp = 0 := by omega
    subst hsp
    have hk : (if seen ≠ 0 ∧ ap ≠ la then 0#2 else seen) = 0#2 := by
      split
      · rfl
      · next hk =>
        by_cases he : ap = la
        · subst he; rw [h1] at ho; exact BitVec.eq_of_toNat_eq (by simp; omega)
        · simp only [ne_eq, he, not_false_eq_true, and_true, not_not] at hk; exact hk
    rw [hk, h1]
    decide
  · rw [h2]
    generalize ((if seen ≠ 0 ∧ ap ≠ la then 0#2 else seen) ||| 1#2 <<< sp) = x
    split
    · simp
    · next hne =>
      have key : ∀ x : BitVec 2, x ≠ BitVec.ofNat 2 (2 ^ 2 - 1) → x.toNat + 1 < 2 ^ 2 := by decide
      exact key _ hne

end Sys2Proof.Machine
end

