-- ==== Sys2Proof/Laws/Decode.lean ====
section
/-! SUPPORT. The fields of a command word read back, and what a decoded word says of its own fields. -/

namespace Sys2Proof

section Fields

variable (idx : Half) (res : BitVec 2) (sp ap : BitVec 1) (opc : Byte)

/-- The bits of a command word, field by field. -/
theorem getLsbD_cmdWord (i : Nat) : (cmdWord idx res sp ap opc).getLsbD i =
    if i < 8 then opc.getLsbD i
    else if i - 8 < 1 then ap.getLsbD (i - 8)
    else if i - 9 < 1 then sp.getLsbD (i - 9)
    else if i - 10 < 2 then res.getLsbD (i - 10)
    else if i - 12 < 4 then false
    else idx.getLsbD (i - 16) := by
  show BitVec.getLsbD (w := 16 + 4 + 2 + 1 + 1 + 8) (idx ++ 0#4 ++ res ++ sp ++ ap ++ opc) i = _
  rw [BitVec.getLsbD_append, BitVec.getLsbD_append, BitVec.getLsbD_append, BitVec.getLsbD_append, BitVec.getLsbD_append]
  simp only [BitVec.getLsbD_zero, Nat.sub_sub, Nat.reduceAdd]

@[simp] theorem cmdOpc_cmdWord : cmdOpc (cmdWord idx res sp ap opc) = opc := by
  ext i hi
  rw [cmdOpc, BitVec.getElem_extractLsb', Nat.zero_add, getLsbD_cmdWord, if_pos hi, BitVec.getLsbD_eq_getElem hi]

@[simp] theorem cmdZ_cmdWord : cmdZ (cmdWord idx res sp ap opc) = 0#4 := by
  ext i hi
  rw [cmdZ, BitVec.getElem_extractLsb', getLsbD_cmdWord, if_neg (by omega), if_neg (by omega), if_neg (by omega),
    if_neg (by omega), if_pos (by omega), BitVec.getElem_zero]

@[simp] theorem cmdSp_cmdWord : cmdSp (cmdWord idx res sp ap opc) = sp := by
  ext i hi
  obtain rfl : i = 0 := by omega
  simp [cmdSp, ← BitVec.getLsbD_eq_getElem, getLsbD_cmdWord]

@[simp] theorem cmdRes_cmdWord : cmdRes (cmdWord idx res sp ap opc) = res := by
  ext i hi
  rw [cmdRes, BitVec.getElem_extractLsb', getLsbD_cmdWord, if_neg (by omega), if_neg (by omega), if_neg (by omega),
    if_pos (by omega), Nat.add_sub_cancel_left, BitVec.getLsbD_eq_getElem hi]

@[simp] theorem cmdIdx_cmdWord : cmdIdx (cmdWord idx res sp ap opc) = idx := by
  ext i hi
  rw [cmdIdx, BitVec.getElem_extractLsb', getLsbD_cmdWord, if_neg (by omega), if_neg (by omega), if_neg (by omega),
    if_neg (by omega), if_neg (by omega), Nat.add_sub_cancel_left, BitVec.getLsbD_eq_getElem hi]

@[simp] theorem cmdAp_cmdWord : cmdAp (cmdWord idx res sp ap opc) = if ap = 1#1 then .chess else .interleaved := by
  have h : ap = 0#1 ∨ ap = 1#1 := by revert ap; decide
  simp only [cmdAp, getLsbD_cmdWord]
  rcases h with rfl | rfl <;> rfl

end Fields

@[simp] theorem apBit_eq_one (ap : AccessPattern) : (apBit ap = 1#1) ↔ ap = .chess := by cases ap <;> decide

/-- A pattern read back from its bit. -/
@[simp] theorem ite_chess (ap : AccessPattern) : (if ap = .chess then AccessPattern.chess else .interleaved) = ap := by
  cases ap <;> rfl

/-- One row of a chain of tests: it is the row taken, or the chain goes on. -/
theorem row_ok {c : Prop} [Decidable c] {x i : Instr} {e : Except Illegal Instr} (h : (if c then .ok x else e) = .ok i) :
    (c ∧ x = i) ∨ e = .ok i := by
  by_cases hc : c
  · rw [if_pos hc] at h; exact .inl ⟨hc, Except.ok.inj h⟩
  · rw [if_neg hc] at h; exact .inr h

/-- What the decoder accepts: no `Z`, the row's opcode, and the fields of the word. -/
theorem decode_ok_fields {w : Word} {i : Instr} (h : decode w = .ok i) : cmdZ w = 0#4 ∧ cmdOpc w = i.opcode := by
  unfold decode at h
  by_cases hz : cmdZ w ≠ 0#4
  · rw [if_pos hz] at h; cases h
  rw [if_neg hz] at h
  refine ⟨not_not.1 hz, ?_⟩
  iterate 10
    rcases row_ok h with ⟨ho, rfl⟩ | h
    · exact ho
  cases h

end Sys2Proof
end

