-- ==== Sys2Proof/Laws/Ecc.lean ====
section
/-! SUPPORT. The laws of the code the ECC statements rest on: parity and syndrome are linear over exclusive or, the syndrome
of each single bit, and the code word of each payload. -/

namespace Sys2Proof.Machine

theorem foldl_xor_add (f g : Nat → Bool) (l : List Nat) (x y : Bool) :
    l.foldl (fun b i => b ^^ (f i ^^ g i)) (x ^^ y) =
      (l.foldl (fun b i => b ^^ f i) x ^^ l.foldl (fun b i => b ^^ g i) y) := by
  induction l generalizing x y with
  | nil => rfl
  | cons i is ih =>
    simp only [List.foldl_cons]
    rw [← ih]
    congr 1
    cases x <;> cases y <;> cases f i <;> cases g i <;> rfl

/-- Parity is linear. -/
theorem par_xor (a b : Half) : par (a ^^^ b) = (par a ^^ par b) := by
  have := foldl_xor_add a.getLsbD b.getLsbD (List.range 16) false false
  simpa [par] using this

theorem ofBool_xor (a b : Bool) : BitVec.ofBool (a ^^ b) = BitVec.ofBool a ^^^ BitVec.ofBool b := by
  cases a <;> cases b <;> rfl

theorem and_xor_right (a b m : Half) : (a ^^^ b) &&& m = (a &&& m) ^^^ (b &&& m) := by
  ext i hi; simp [Bool.and_xor_distrib_right]

/-- The syndrome is linear. -/
theorem syndrome_xor (a b : Half) : syndrome (a ^^^ b) = syndrome a ^^^ syndrome b := by
  simp only [syndrome, and_xor_right, par_xor, ofBool_xor]
  ext i hi
  simp only [BitVec.getElem_append, BitVec.getElem_xor]
  repeat' split
  all_goals rfl

/-- The syndromes of the sixteen single bits name the bits, as the table of 40_ecc.md R134 says. -/
theorem syndrome_bit : ∀ i : Fin 16, 16 ≤ (syndrome (1#16 <<< i.val)).toNat ∧
    (eccPos (syndrome (1#16 <<< i.val))).toNat = i.val := by decide +kernel

/-- Two different single bits have different syndromes. -/
theorem syndrome_bits_ne : ∀ i j : Fin 16, i ≠ j →
    syndrome (1#16 <<< i.val) ^^^ syndrome (1#16 <<< j.val) ≠ 0#5 ∧
      (syndrome (1#16 <<< i.val) ^^^ syndrome (1#16 <<< j.val)).toNat < 16 := by decide +kernel

/-- The parity of a payload under a check mask (40_ecc.md R140). -/
def checkOf (m : Half) (p : Payload) : Bool := par (p.setWidth 16 &&& m)

theorem checkOf_xor (m : Half) (p q : Payload) : checkOf m (p ^^^ q) = (checkOf m p ^^ checkOf m q) := by
  have hq : (p ^^^ q).setWidth 16 = p.setWidth 16 ^^^ q.setWidth 16 := by ext i hi; simp
  simp only [checkOf, hq, and_xor_right, par_xor]

/-- The bits 14:0 of an encoded payload (40_ecc.md R140). -/
def eccLow (p : Payload) : BitVec 15 :=
  BitVec.ofBool (checkOf 0x7F0#16 p) ++ BitVec.ofBool (checkOf 0x78E#16 p) ++ BitVec.ofBool (checkOf 0x66D#16 p) ++
    BitVec.ofBool (checkOf 0x55B#16 p) ++ p

theorem eccenc_eq (p : Payload) : eccenc p = BitVec.ofBool (par ((eccLow p).setWidth 16)) ++ eccLow p := rfl

theorem getLsbD_eccLow (p : Payload) (i : Nat) : (eccLow p).getLsbD i =
    if i < 11 then p.getLsbD i
    else if i - 11 < 1 then (BitVec.ofBool (checkOf 0x55B#16 p)).getLsbD (i - 11)
    else if i - 12 < 1 then (BitVec.ofBool (checkOf 0x66D#16 p)).getLsbD (i - 12)
    else if i - 13 < 1 then (BitVec.ofBool (checkOf 0x78E#16 p)).getLsbD (i - 13)
    else (BitVec.ofBool (checkOf 0x7F0#16 p)).getLsbD (i - 14) := by
  show BitVec.getLsbD (w := 1 + 1 + 1 + 1 + 11) (BitVec.ofBool _ ++ BitVec.ofBool _ ++ BitVec.ofBool _ ++
    BitVec.ofBool _ ++ p) i = _
  rw [BitVec.getLsbD_append, BitVec.getLsbD_append, BitVec.getLsbD_append, BitVec.getLsbD_append]
  simp only [Nat.sub_sub, Nat.reduceAdd]

theorem getLsbD_eccenc (p : Payload) (i : Nat) : (eccenc p).getLsbD i =
    if i < 15 then (eccLow p).getLsbD i
    else (BitVec.ofBool (par ((eccLow p).setWidth 16))).getLsbD (i - 15) := by
  rw [eccenc_eq]
  show BitVec.getLsbD (w := 1 + 15) (BitVec.ofBool _ ++ eccLow p) i = _
  rw [BitVec.getLsbD_append]

theorem eccLow_xor (p q : Payload) : eccLow (p ^^^ q) = eccLow p ^^^ eccLow q := by
  apply BitVec.eq_of_getLsbD_eq
  intro i hi
  simp only [BitVec.getLsbD_xor, getLsbD_eccLow, checkOf_xor, ofBool_xor]
  repeat' split
  all_goals rfl

/-- The encoder keeps the payload in bits 10:0 (40_ecc.md R140). -/
theorem eccenc_payload (p : Payload) : (eccenc p).extractLsb' 0 11 = p := by
  ext i hi
  simp only [BitVec.getElem_extractLsb', Nat.zero_add, getLsbD_eccenc, getLsbD_eccLow, show i < 15 by omega, hi, if_true]
  exact BitVec.getLsbD_eq_getElem hi

theorem setWidth_xor (a b : BitVec 15) : (a ^^^ b).setWidth 16 = a.setWidth 16 ^^^ b.setWidth 16 := by
  ext i hi; simp

/-- The encoder is additive (the last sentence but one of 40_ecc.md R142 states it as a law). -/
theorem eccenc_add (p q : Payload) (i : Nat) :
    (eccenc (p ^^^ q)).getLsbD i = ((eccenc p).getLsbD i ^^ (eccenc q).getLsbD i) := by
  simp only [getLsbD_eccenc, eccLow_xor, setWidth_xor, par_xor, ofBool_xor, BitVec.getLsbD_xor]
  split <;> rfl

/-- What a word that decodes answers (40_ecc.md R135). -/
theorem eccdec_ok {w : Half} {p : Payload} {cr : Bool} {pos : BitVec 4} {S : BitVec 5} (h : eccdec w = .ok p cr pos S) :
    S = syndrome w ∧ cr = decide (16 ≤ (syndrome w).toNat) ∧
      ((syndrome w = 0 ∧ p = w.extractLsb' 0 11) ∨
        (16 ≤ (syndrome w).toNat ∧ p = (w ^^^ (1#16 <<< (eccPos (syndrome w)).toNat)).extractLsb' 0 11)) := by
  unfold eccdec at h
  simp only at h
  split at h
  · next h0 => cases h; exact ⟨rfl, by rw [h0]; rfl, .inl ⟨h0, rfl⟩⟩
  · split at h
    · next h16 => cases h; exact ⟨rfl, (decide_eq_true h16).symm, .inr ⟨h16, rfl⟩⟩
    · cases h

/-- A single flipped bit of a code word is corrected (40_ecc.md R142). -/
theorem eccdec_flip {w : Half} (hw : syndrome w = 0) {k : Nat} (hk : k < 16) :
    ∃ pos S, eccdec (w ^^^ (1#16 <<< k)) = .ok (w.extractLsb' 0 11) true pos S := by
  obtain ⟨h1, h2⟩ := syndrome_bit ⟨k, hk⟩
  have e : syndrome (w ^^^ (1#16 <<< k)) = syndrome (1#16 <<< k) := by rw [syndrome_xor, hw]; exact BitVec.zero_xor
  have hne : syndrome (1#16 <<< k) ≠ 0 := by intro h0; rw [h0] at h1; exact absurd h1 (by decide)
  refine ⟨eccPos (syndrome (1#16 <<< k)), syndrome (1#16 <<< k), ?_⟩
  unfold eccdec
  simp only [e]
  rw [if_neg hne, if_pos h1, h2, BitVec.xor_assoc, BitVec.xor_self, BitVec.xor_zero]

end Sys2Proof.Machine
end

