-- ==== Sys2Proof/Laws/PerInstr.lean ====
section
/-! SUPPORT. A family of facts made per command: the word the encoder gives carries its row's opcode and no `Z`
(30_encoding.md R101, R103). -/

namespace Sys2Proof.Laws.EncodeRow

/-- The selecting bits of a command's word are its row's (30_encoding.md R102). -/
def Statement (i : Instr) : Prop := cmdOpc (encode i) = i.opcode ∧ cmdZ (encode i) = 0#4

theorem sysNop : Statement .sysNop := by simp [Statement, encode, Instr.opcode]

theorem eccDec (tag : Half) : Statement (.eccDec tag) := by simp [Statement, encode, Instr.opcode]

theorem eccEnc : Statement .eccEnc := by simp [Statement, encode, Instr.opcode]

theorem calLoad : Statement .calLoad := by simp [Statement, encode, Instr.opcode]

theorem geoConst (idx : Half) (ap : AccessPattern) : Statement (.geoConst idx ap) := by
  simp [Statement, encode, Instr.opcode]

theorem geoMember (sp : BitVec 1) (ap : AccessPattern) : Statement (.geoMember sp ap) := by
  simp [Statement, encode, Instr.opcode]

theorem geoRanges (sp : BitVec 1) (ap : AccessPattern) : Statement (.geoRanges sp ap) := by
  simp [Statement, encode, Instr.opcode]

theorem geoRescorr : Statement .geoRescorr := by simp [Statement, encode, Instr.opcode]

theorem cvtSubpage (ap : AccessPattern) (res : BitVec 2) : Statement (.cvtSubpage ap res) := by
  simp [Statement, encode, Instr.opcode]

theorem sysReset : Statement .sysReset := by simp [Statement, encode, Instr.opcode]

end Sys2Proof.Laws.EncodeRow
end

