-- ==== Sys2Proof/Tests/Slice0.lean ====
section
/-! SUPPORT. The model's own tests. Expected values are those of 95_test_vectors.md, which its header derives from the rules (sections 2
to 8), or are read off the encoding table 30_encoding.md R101. After them, a witness for the hypotheses of every obligation. -/

open Sys2Proof Sys2Proof.Machine Sys2Proof.Claims

namespace Sys2Proof.Tests

set_option Elab.async false

/-! ## Helpers -/

/-- The outcome is a next state that passes `f`. -/
def holds (o : Host.Outcome State Fault Refusal) (f : State → Bool) : Bool :=
  match o with
  | .next t => f t
  | .fault _ => false
  | .refused _ => false

theorem next_of {o : Host.Outcome State Fault Refusal} {f : State → Bool} (h : holds o f = true) :
    ∃ t, o = .next t ∧ f t = true := by
  cases o with
  | next t => exact ⟨t, rfl, h⟩
  | fault _ => cases h
  | refused _ => cases h

/-- A fresh instance with the operands set and `w` about to be written to `CMD`. -/
def fresh (c : CheckedCfg) (a0 a1 w : Word) : State :=
  { State.resetOf c with arg0 := a0, arg1 := a1, inbox := [.writeCsr 0 w] }

/-- What a host reads after a command: STATUS, ERRCODE, ERRINFO, RES0, RES1. -/
def shows (t : State) (status : Word) (code : BitVec 8) (info r0 r1 : Word) : Bool :=
  t.statusWord = status && t.errCode = code && t.errInfo = info && t.res0 = r0 && t.res1 = r1

/-- The image words of 95_test_vectors.md section 4.3, words 0 to 47. -/
def toyHead : List Half :=
  [0x8923, 0x0000, 0x0000, 0x0000, 0x0000, 0x0000, 0x0000, 0xA220] ++
  [0x5D26, 0x784E, 0xB004, 0x701F, 0x37B5, 0x701F, 0x8FBA, 0xC810] ++
  [0x0F28, 0x2054, 0x3808, 0x3003, 0xD0EF, 0x2805, 0xDFF1, 0x5152] ++
  [0xD016, 0x1C80, 0x3E68, 0xDF9D, 0x0000, 0x5840, 0x5FC0, 0x701F] ++
  [0x37B5, 0x67FE, 0x3808, 0x4C5E, 0x2C4C, 0xC826, 0x4046, 0x3808] ++
  [0xA834, 0x0000, 0x6819, 0xB032, 0x0000, 0x0000, 0x0000, 0x0000]

/-- Words 48 to 95. -/
def toyTail : List Half :=
  [0x94E0, 0x3CB8, 0xD490, 0x4C68, 0x0000, 0x0000, 0x0000, 0x0000] ++
  [0x01E0, 0x7200, 0xA220, 0x2A40, 0x0000, 0x0000, 0x0000, 0x0000] ++
  [0x0000, 0x9801, 0xFFFF, 0xA802, 0x67FE, 0x3003, 0x57FD, 0xB004] ++
  [0x0000, 0x900A, 0x5FF6, 0xFC00, 0x7814, 0x13F2, 0x07EC, 0x2805] ++
  [0x0000, 0xD020, 0x17E1, 0x0000, 0x285F, 0x0000, 0x5FC0, 0x2062] ++
  [0x0000, 0xFFFF, 0x9801, 0x67FE, 0xA802, 0x57FD, 0x3003, 0xCFFC]

/-- The toy image. -/
def toy : List Half := toyHead ++ toyTail

/-- The toy image with word `i` replaced. -/
def toyWith (i : Nat) (v : Half) : List Half := toy.set i v

/-- The low eleven bits of every word: the stripped image. -/
def stripped (ws : List Half) : List Half := ws.map fun w => w &&& 0x07FF#16

/-- An instance with the image `ws` in CALMEM and a CAL.LOAD of its length about to start. -/
def withImage (c : CheckedCfg) (ws : List Half) : State :=
  { fresh c (BitVec.ofNat 32 c.record.calBytes) 0 0x00000010#32 with
    mem := { Memory.blank with
      cal := (ws.flatMap fun w => [w.extractLsb' 8 8, w.extractLsb' 0 8]).zipIdx.map Prod.swap } }

/-- The CalibrationSet of the toy image. -/
def toySet : CalSet := slice Cfg.VT (toy.map payloadOf)

/-- RAWMEM of a frame with the given status word: trace A of section 6, pixel words `px`. -/
def frameRaw (st : Half) (px : List Half) : List (Nat × Half) :=
  writeCells (writeCells [] 0 [st, 0x4BF2, 0x06AF, 0x184E, 0xCCC5, 0xFFC9]) 8 px

/-- Trace A's pixel words. -/
def pixA : List Half := [609, 615, 620, 598]

/-- VT calibrated with the toy set, a frame in RAWMEM, and `w` about to be written to `CMD`. -/
def ready (st : Half) (a0 a1 w : Word) : State :=
  { fresh CheckedCfg.VT a0 a1 w with
    calset := some toySet
    mem := { Memory.blank with raw := frameRaw st pixA } }

/-! ## Well-formed commands: the one check refuses the ill-formed term -/

theorem test_wf_refuses_selector_18 : Instr.wf (.geoConst 18#16 .interleaved) = false := by decide

theorem test_wf_accepts_selector_17 : Instr.wf (.geoConst 17#16 .chess) = true := by decide

/-! ## Decoding: each word written out as IDX, Z, RES, SP, AP, OPC (30_encoding.md R101, R103) -/

theorem test_decode_sysNop : decode 0b0000000000000000_0000_00_0_0_00000000#32 = .ok .sysNop := by decide

theorem test_decode_eccDec : decode 0b0000000000000101_0000_00_0_0_00000001#32 = .ok (.eccDec 5#16) := by decide

theorem test_decode_eccEnc : decode 0b0000000000000000_0000_00_0_0_00000010#32 = .ok .eccEnc := by decide

theorem test_decode_calLoad : decode 0b0000000000000000_0000_00_0_0_00010000#32 = .ok .calLoad := by decide

theorem test_decode_geoConst :
    decode 0b0000000000010001_0000_00_0_1_00100000#32 = .ok (.geoConst 17#16 .chess) := by decide

theorem test_decode_geoMember :
    decode 0b0000000000000000_0000_00_1_0_00100001#32 = .ok (.geoMember 1#1 .interleaved) := by decide

theorem test_decode_geoRanges :
    decode 0b0000000000000000_0000_00_0_1_00100010#32 = .ok (.geoRanges 0#1 .chess) := by decide

theorem test_decode_geoRescorr : decode 0b0000000000000000_0000_00_0_0_00100011#32 = .ok .geoRescorr := by decide

theorem test_decode_cvtSubpage :
    decode 0b0000000000000000_0000_11_0_0_00110000#32 = .ok (.cvtSubpage .interleaved 3#2) := by decide

theorem test_decode_sysReset : decode 0b0000000000000000_0000_00_0_0_01111111#32 = .ok .sysReset := by decide

/-- Section 3, "Illegal encodings". -/
theorem test_decode_illegal :
    decode 0x00001001#32 = .error .reservedBits ∧ decode 0x0000107F#32 = .error .reservedBits ∧
    decode 0x00000003#32 = .error .unlistedOpcode ∧ decode 0xFFFFFFFF#32 = .error .reservedBits := by decide

/-- Section 3, "Legal despite unused fields being set". -/
theorem test_decode_unused : decode 0xFFFF0F00#32 = .ok .sysNop ∧ decode 0xABCD0F02#32 = .ok .eccEnc := by decide

/-! ## One step of each command -/

/-- Case E19: the error of a failed CAL.LOAD is cleared, ERR_STICKY stays. -/
theorem test_sysNop :
    holds (step { fresh CheckedCfg.VT 0 0 0 with err := true, errSticky := true, errCode := 3, errInfo := 0x01230000#32 })
      (fun t => shows t 0x202 0 0 0 0) = true := by decide

/-- Section 2.4: 0x9800, and bits 31:16 of ARG0 ignored. -/
theorem test_eccDec_corrects :
    holds (step (fresh CheckedCfg.VT 0x12349800#32 0 0x00000001#32)) (fun t => shows t 0x012 0 0 1 0x113 && t.corrCnt = 1) =
      true := by decide

/-- Section 2.3: a double flip, tag 7. -/
theorem test_eccDec_detects :
    holds (step (fresh CheckedCfg.VT 0x35BD#32 0 0x00070001#32)) (fun t => shows t 0x204 3 0x35BD0007 0 0 && t.corrCnt = 0) =
      true := by decide

/-- Section 2.1: bits 31:11 of ARG0 ignored. -/
theorem test_eccEnc :
    holds (step (fresh CheckedCfg.VT 0xFFFFF923#32 0 0x00000002#32)) (fun t => shows t 0x002 0 0 0x8923 0) = true := by decide +kernel

/-- Case L7: two corrected words, and two fields of section 4.5. -/
theorem test_calLoad_corrects :
    holds (step (withImage CheckedCfg.VT ((toyWith 12 0x37BD).set 70 0xD7FD)))
      (fun t => shows t 0x01A 0 0 2 0 && t.corrCnt = 2 &&
        decide (t.calset.map (fun c => (c.gain, c.g)) =
          some (0x45C77800#32, [0x3F700000#32, 0x3F800000#32, 0x3F880000#32, 0x3F900000#32]))) = true := by
  decide +kernel

/-- Case L16: sub-code 3 with index 2. -/
theorem test_calLoad_bands :
    holds (step (withImage CheckedCfg.VT (toyWith 43 0x6819))) (fun t => shows t 0x204 4 0x203 0 0 && t.calset.isNone) = true := by
  decide +kernel

/-- Section 7.1, VA: selector 9. -/
theorem test_geoConst :
    holds (step (fresh CheckedCfg.VA 0 0 0x00090020#32)) (fun t => shows t 0x002 0 0 0x40A00000 0) = true := by decide

/-- Case E18: selector 18. -/
theorem test_geoConst_illegal :
    holds (step (fresh CheckedCfg.VA 0 0 0x00120020#32)) (fun t => shows t 0x204 8 0x20 0 0) = true := by decide

/-- Section 7.2: VT, SP = 1, CHESS. -/
theorem test_geoMember :
    holds (step (fresh CheckedCfg.VT 0 0 0x00000321#32)) (fun t => shows t 0x002 0 0 4 0 && t.mem.geo = [(0, 0x005A#16)]) =
      true := by decide +kernel

/-- Section 7.3: VT, SP = 1, CHESS: a merged span of two words. -/
theorem test_geoRanges :
    holds (step (fresh CheckedCfg.VT 0 0 0x00000322#32))
      (fun t => shows t 0x002 0 0 3 4 &&
        t.mem.geo = [(0, 0x0401#16), (1, 1#16), (2, 0x0403#16), (3, 2#16), (4, 0x0406#16), (5, 1#16)]) = true := by
  decide +kernel

/-- Section 7.4: the codes are ARG0[1:0] = 0 and ARG1[1:0] = 3. -/
theorem test_geoRescorr :
    holds (step (fresh CheckedCfg.VT 0xFFFFFFF0#32 7 0x00000023#32)) (fun t => shows t 0x002 0 0 0x3E000000 0) = true := by
  decide +kernel

/-- Trace A of section 6. -/
theorem test_cvtSubpage_traceA :
    holds (step (ready 0x0008 8 4 0x00000930#32))
      (fun t => shows t 0x14A 0 0 0 0 &&
        t.mem.out = [(0, 0x42A15B3C#32), (2, 0x42A230AC#32), (5, 0x429A6020#32), (7, 0x429FBE2C#32)]) = true := by
  decide +kernel

/-- Trace A's auxiliary words with subpage 1: pixel 3 is failed and gets the sentinel; it completes an image whose subpage 0 is seen. -/
theorem test_cvtSubpage_failed_pixel :
    holds (step { ready 0x0009 8 4 0x00000930#32 with seen := 1, lastAp := .chess })
      (fun t => shows t 0x10A 0 0 1 1 && readCell t.mem.out 3 = some 0x7FC00000#32) = true := by
  decide +kernel

/-- Case E20. -/
theorem test_sysReset :
    holds (step { ready 0x0008 8 4 0x0000007F#32 with done := true, seen := 1, lastAp := .chess })
      (fun t => shows t 0x002 0 0 0 0 && t.cmd = 0x7F && t.calset.isNone && t.mem.raw.length = 10) = true := by
  decide +kernel

/-- 10_state.md R62, 90_conflicts.md C9: unused bits of the word that started SYS.RESET do not stay in `CMD`. -/
theorem test_sysReset_unused_bits :
    holds (step (ready 0x0008 8 4 0xFFFF0F7F#32)) (fun t => shows t 0x002 0 0 0 0 && t.cmd = 0x0000007F#32) = true := by
  decide +kernel

/-- The host's checks: a row's word is decoded, and run as the first command after reset. -/
theorem test_first_command :
    decodeTableWord 32 0x20020 = some (.geoConst 2#16 .interleaved) ∧
    holds (step (State.reset.withFetchWord 32 0x20020)) (fun t => t.res0 = 192) = true := by decide

/-! ## Witnesses: for each obligation with hypotheses, a state and operands that meet them, one for each clause -/

theorem ok_of {o : Host.Outcome State Fault Refusal} (h : holds o (fun _ => true) = true) : ∃ t, o = .next t :=
  (next_of h).imp fun _ ht => ht.1

theorem faults_of {o : Host.Outcome State Fault Refusal} {f : Fault}
    (h : (match o with | .fault g => decide (g = f) | .next _ => false | .refused _ => false) = true) : o = .fault f := by
  cases o with
  | fault g => exact congrArg _ (of_decide_eq_true h)
  | next _ => cases h
  | refused _ => cases h

/-- The image of a state that `withImage` builds. -/
theorem imageIs_withImage {c : CheckedCfg} {W : List Half}
    (h : (match calWords (withImage c W).mem (List.range c.record.calWords) with | .ok V => decide (V = W) | .error _ => false) = true) :
    ImageIs (withImage c W) W := by
  refine image_of_calWords ?_
  show calWords (withImage c W).mem (List.range c.record.calWords) = .ok W
  cases hv : calWords (withImage c W).mem (List.range c.record.calWords) with
  | ok V => rw [hv] at h; exact congrArg _ (of_decide_eq_true h)
  | error _ => rw [hv] at h; cases h

/-- The toy image, whole or altered, gets as far as the ECC pass. -/
theorem loads_of {c : CheckedCfg} {W : List Half} (hc : c.record.calBytes < 2 ^ 32)
    (h : (match calWords (withImage c W).mem (List.range c.record.calWords) with | .ok V => decide (V = W) | .error _ => false) = true) :
    Loads (withImage c W) W where
  free := rfl
  length := by
    show (BitVec.ofNat 32 c.record.calBytes).toNat = c.record.calBytes
    rw [BitVec.toNat_ofNat, Nat.mod_eq_of_lt hc]
  image := imageIs_withImage h

theorem loads_toy : Loads (withImage CheckedCfg.VT toy) toy := loads_of (by decide) (by decide +kernel)

theorem loads_doubleFlip : Loads (withImage CheckedCfg.VT (toyWith 12 0x35BD)) (toyWith 12 0x35BD) :=
  loads_of (by decide) (by decide +kernel)

theorem next_toy : ∃ t, exec .calLoad (withImage CheckedCfg.VT toy) = .next t := ok_of (by decide +kernel)

/-- A stored CalibrationSet, a frame, an image half built: the invariant holds away from reset too. -/
theorem inv_ready :
    Machine.Inv { ready 0x0008 8 4 0x00000930#32 with seen := 2, lastAp := .chess, corrCnt := 96, done := true } where
  memWf := by decide +kernel
  idle := rfl
  calWf := by
    intro c hc
    cases hc
    exact slice_wf (by decide +kernel)
  seenOpen := by decide
  corrMax := by decide
  oneEnd := by decide
  codeErr := by decide
  codeRange := by decide
  infoErr := by decide
  errResults := by decide

/-- A frame of trace A on the toy set is converted. -/
theorem converts_ready :
    Converts (ready 0x0008 8 4 0x00000930#32) .chess toySet 0x0008#16
      { taVbe := 0x4BF2, taPtat := 0x06AF, gain := 0x184E, vddPix := 0xCCC5, cp := 0xFFC9 } where
  calibrated := rfl
  outLen := by decide
  status := by decide +kernel
  subpage := by decide
  ready := by decide
  rawLen := by decide +kernel
  taVbe := by decide +kernel
  taPtat := by decide +kernel
  gain := by decide +kernel
  vddPix := by decide +kernel
  cp := by decide +kernel
  words := by decide +kernel

theorem witness_UnusedFieldsAreIgnored :
    (decode 0x00000000#32 = .ok .sysNop ∧
      0xFFFF0F00#32 &&& Instr.usedBits .sysNop = 0x00000000#32 &&& Instr.usedBits .sysNop) ∧
    (decode 0x00110120#32 = .ok (.geoConst 17#16 .chess) ∧
      0x00000020#32 &&& 0x0000F0FF#32 = 0x00110120#32 &&& 0x0000F0FF#32) ∧
    (16#16).toNat ≠ 17 ∧ (18#16).toNat ≠ 17 := by decide

theorem witness_IllegalWordsOnlyRaise :
    State.reset.busy = false ∧ ¬ legalWord 0x00001000#32 ∧ ¬ legalWord 0x00000003#32 ∧ ¬ legalWord 0x0000007E#32 ∧
    legalWord 0x0000007F#32 ∧ legalWord 0xFFFF0FFF#32 = legalWord 0x000000FF#32 ∧ Instr.eccEnc ≠ .sysNop := by
  simp only [legalWord, opcodes]
  decide

theorem witness_StepRunsDecodedCommand :
    ((fresh CheckedCfg.VT 0 0 0x00050001#32).busy = false ∧
      (fresh CheckedCfg.VT 0 0 0x00050001#32).inbox = .writeCsr 0 0x00050001#32 :: [] ∧
      decode 0x00050001#32 = .ok (.eccDec 5#16)) ∧
    decodeTableWord 8 0x7F = some .sysReset ∧ decodeTableWord 32 0x00050001 = some (.eccDec 5#16) ∧
    State.reset.inbox = [] := by decide

theorem witness_CommandLifeCycle :
    State.busy { State.reset with busy := true } = true ∧
    (State.reset.busy = false ∧ decode 0x00000021#32 = .ok (.geoMember 0#1 .interleaved)) ∧
    (∃ t, perform (.writeCsr 0 0x00001000#32) State.reset = .next t) ∧
    (∃ t, perform (.writeCsr 0 0x00000000#32) State.reset = .next t) :=
  ⟨rfl, by decide, ok_of (by decide), ok_of (by decide)⟩

theorem witness_CmdReadsBack :
    ((∃ t, perform (.writeCsr 0 0xFFFF0F7F#32) State.reset = .next t) ∧ decode 0xFFFF0F7F#32 = .ok .sysReset) ∧
    ((∃ t, perform (.writeCsr 0 0xFFFF0F00#32) State.reset = .next t) ∧ decode 0xFFFF0F00#32 ≠ .ok .sysReset) ∧
    (∃ t, perform (.writeCsr 0 0x0000007F#32) { State.reset with busy := true } = .next t) ∧
    ((∃ t, perform (.writeCsr 1 0xFFFFFFFF#32) State.reset = .next t) ∧
      (∀ w, HostAction.writeCsr 1 0xFFFFFFFF#32 ≠ .writeCsr 0 w) ∧ HostAction.writeCsr 1 0xFFFFFFFF#32 ≠ .hardReset) ∧
    (∃ t, perform .hardReset State.reset = .next t) :=
  ⟨⟨ok_of (by decide), by decide⟩, ⟨ok_of (by decide), by decide⟩, ok_of (by decide),
    ⟨ok_of (by decide), by simp, by simp⟩, ok_of (by decide)⟩

theorem witness_CsrFile :
    10 ≤ 10 ∧ (State.reset.busy = false ∧ decode 0x00000002#32 = .ok .eccEnc) ∧ 3 ≤ 3 := by decide

/-- One command per clause of the frame, and the first cell past what the three storing commands write: a pixel of the other subpage, word
`ceil(NPIX/16)`, word `2 * nspans`. -/
theorem witness_CommandsWriteOnlyTheirRow :
    ((∃ t, exec (.geoMember 1#1 .chess) (fresh CheckedCfg.VT 0 0 0) = .next t) ∧ (Cfg.VT.npix + 15) / 16 ≤ 1) ∧
    ((∃ t, exec (.geoRanges 1#1 .chess) (fresh CheckedCfg.VT 0 0 0) = .next t) ∧
      2 * (spans Cfg.VT (1#1).toNat .chess).length ≤ 6) ∧
    ((∃ t, exec (.cvtSubpage .chess 2#2) (ready 0x0008 8 4 0) = .next t) ∧
      ¬ (1 < (ready 0x0008 8 4 0).cfg.npix ∧ ∃ st : Half, readCell (ready 0x0008 8 4 0).mem.raw 0 = some st ∧
        spOf (ready 0x0008 8 4 0).cfg .chess 1 = (st.extractLsb' 0 3).toNat)) ∧
    (∃ t, exec .calLoad (withImage CheckedCfg.VT toy) = .next t) ∧
    (∃ t, exec (.eccDec 0#16) (fresh CheckedCfg.VT 0x9800 0 0) = .next t ∧ t.err = false) ∧
    (∃ t, exec .sysReset (ready 0x0008 8 4 0) = .next t) :=
  ⟨⟨ok_of (by decide +kernel), by decide⟩, ⟨ok_of (by decide +kernel), by decide +kernel⟩,
    ⟨ok_of (by decide +kernel), by
      rintro ⟨-, st, hst, hsp⟩
      have h0 : readCell (ready 0x0008 8 4 0).mem.raw 0 = some 0x0008#16 := by decide +kernel
      rw [h0] at hst
      cases hst
      exact absurd hsp (by decide)⟩, next_toy,
    (next_of (f := fun t => !t.err) (by decide +kernel)).imp fun _ h => ⟨h.1, by simpa using h.2⟩, ok_of (by decide +kernel)⟩

theorem witness_CalibrationIsWrittenOnce :
    (∃ t c, step (withImage CheckedCfg.VT toy) = .next t ∧ (withImage CheckedCfg.VT toy).calset = none ∧ t.calset = some c) ∧
    (∃ t, step (ready 0x0008 8 4 0x0000007F#32) = .next t ∧ (ready 0x0008 8 4 0x0000007F#32).calset = some toySet) ∧
    (∃ t, step (ready 0x0008 8 4 0x00000010#32) = .next t ∧ (ready 0x0008 8 4 0x00000010#32).calset = some toySet) := by
  refine ⟨?_, ?_, ?_⟩
  · obtain ⟨t, h, hc⟩ := next_of (o := step (withImage CheckedCfg.VT toy)) (f := fun t => t.calset.isSome) (by decide +kernel)
    obtain ⟨c, hc⟩ := Option.isSome_iff_exists.1 hc
    exact ⟨t, c, h, rfl, hc⟩
  · exact (ok_of (by decide +kernel)).imp fun _ h => ⟨h, rfl⟩
  · exact (ok_of (by decide +kernel)).imp fun _ h => ⟨h, rfl⟩

theorem witness_VariantIsConstant : (∃ t, step (fresh CheckedCfg.VT 0 0 0x0000007F#32) = .next t) ∧ ∃ t, step State.reset = .next t :=
  ⟨ok_of (by decide), ok_of (by decide)⟩

theorem witness_TrackingHasThreeWriters :
    (∃ t, step (ready 0x0008 8 4 0x00000930#32) = .next t ∧
      ¬ (t.seen = (ready 0x0008 8 4 0x00000930#32).seen ∧ t.lastAp = (ready 0x0008 8 4 0x00000930#32).lastAp)) ∧
    (∃ t, step (fresh CheckedCfg.VT 0 0 0x0000007F#32) = .next t ∧ (fresh CheckedCfg.VT 0 0 0x0000007F#32).busy = false ∧
      startsNext (fresh CheckedCfg.VT 0 0 0x0000007F#32) .sysReset) ∧
    (∃ t, step { State.reset with inbox := [.hardReset] } = .next t ∧
      resetsNext { State.reset with inbox := [.hardReset] }) :=
  ⟨(next_of (f := fun t => t.seen = 1) (by decide +kernel)).imp
      fun t h => ⟨h.1, fun hs => by rw [of_decide_eq_true h.2] at hs; exact absurd hs.1 (by decide)⟩,
    (ok_of (by decide)).imp fun _ h => ⟨h, rfl, _, _, rfl, by decide⟩,
    (ok_of (by decide)).imp fun _ h => ⟨h, _, rfl⟩⟩

/-- `eccdec` answers a payload. -/
def decodes (w : Half) : Bool :=
  match eccdec w with
  | .ok _ _ _ _ => true
  | .err _ => false

/-- Words that decode and words that do not, in the toy image and in its stripped form. -/
theorem toy_decodes : decodesBelow toy toy.length := by
  have h : toy.all decodes = true := by decide +kernel
  intro k _ x hx S hS
  have := List.all_eq_true.1 h x (List.mem_of_getElem? hx)
  rw [decodes, hS] at this
  cases this

theorem bad_word {W : List Half} (h : (match W[12]? with | some w => decide (w = 0x35BD#16) | none => false) = true) :
    W[12]? = some 0x35BD#16 := by
  cases hw : W[12]? with
  | none => rw [hw] at h; cases h
  | some w => rw [hw] at h; exact congrArg _ (of_decide_eq_true h)

theorem eccdec_35BD : eccdec 0x35BD#16 = .err 9#5 := by decide +kernel

/-- The toy image is of code words. -/
theorem toy_syndromes : ∀ w ∈ toy, syndrome w = 0 := fun w hw =>
  of_decide_eq_true ((List.all_eq_true (p := fun w => decide (syndrome w = 0))).1 (by decide +kernel) w hw)

/-- The double flip of case L8. -/
theorem double_flip_fails : ¬ decodesBelow (toyWith 12 0x35BD) (toyWith 12 0x35BD).length := fun h =>
  h 12 (by decide) _ (bad_word (by decide +kernel)) _ eccdec_35BD

/-- Word 0 of the stripped image, 0x0123. -/
theorem stripped_fails : ¬ decodesBelow (stripped toy) toy.length := fun h =>
  h 0 (by decide) 0x0123#16 (by decide +kernel) 1#5 (by decide +kernel)

theorem witness_CorrCntCountsCorrectedWords :
    (∃ t, exec (.eccDec 0#16) (fresh CheckedCfg.VT 0x9800 0 0) = .next t) ∧
    ((∃ t, exec .calLoad (ready 0x0008 8 4 0) = .next t) ∧ (ready 0x0008 8 4 0).calset ≠ none) ∧
    ((∃ t, exec .calLoad (fresh CheckedCfg.VT 194 0 0) = .next t) ∧ (fresh CheckedCfg.VT 194 0 0).arg0.toNat ≠ Cfg.VT.calBytes) ∧
    ((∃ t, exec .calLoad (withImage CheckedCfg.VT toy) = .next t) ∧ Loads (withImage CheckedCfg.VT toy) toy ∧
      decodesBelow toy toy.length) ∧
    ((∃ t, exec .calLoad (withImage CheckedCfg.VT (toyWith 12 0x35BD)) = .next t) ∧
      Loads (withImage CheckedCfg.VT (toyWith 12 0x35BD)) (toyWith 12 0x35BD) ∧
      ¬ decodesBelow (toyWith 12 0x35BD) (toyWith 12 0x35BD).length) ∧
    (∃ t, exec .eccEnc (fresh CheckedCfg.VT 0 0 0) = .next t) :=
  ⟨ok_of (by decide +kernel), ⟨ok_of (by decide +kernel), by simp [ready]⟩, ⟨ok_of (by decide +kernel), by decide⟩,
    ⟨next_toy, loads_toy, toy_decodes⟩,
    ⟨ok_of (by decide +kernel), loads_doubleFlip, double_flip_fails⟩, ok_of (by decide +kernel)⟩

theorem witness_ErrStickyAccumulates :
    (State.reset.busy = false ∧ (∃ t, perform (.writeCsr 0 0x0000007F#32) State.reset = .next t) ∧
      decode 0x0000007F#32 = .ok .sysReset) ∧
    ((∃ t, perform (.writeCsr 0 0x0000107F#32) State.reset = .next t) ∧ decode 0x0000107F#32 ≠ .ok .sysReset) ∧
    ((∃ t, perform (.readCsr 3) State.reset = .next t) ∧ (∀ w, HostAction.readCsr 3 ≠ .writeCsr 0 w) ∧
      HostAction.readCsr 3 ≠ .hardReset) ∧
    (∃ t, perform .hardReset State.reset = .next t) ∧ (∃ t, exec (.geoConst 18#16 .chess) State.reset = .next t) :=
  ⟨⟨rfl, ok_of (by decide), by decide⟩, ⟨ok_of (by decide), by decide⟩, ⟨ok_of (by decide), by simp, by simp⟩,
    ok_of (by decide), ok_of (by decide)⟩

theorem witness_DiagnosticsAreNeverRead :
    (∃ t, exec .calLoad (withImage CheckedCfg.VTF (stripped toy)) = .next t) ∧
    ∃ t, exec (.cvtSubpage .chess 2#2) (ready 0x0008 8 4 0) = .next t :=
  ⟨ok_of (by decide +kernel), ok_of (by decide +kernel)⟩

/-- The last cell of each buffer of VA, and a written cell of OUTMEM and of GEOMEM. -/
theorem witness_AccessesAreOfWholeCells :
    (isRead (.readOut 191) = true ∧ ∃ t, perform (.readOut 191) State.reset = .next t) ∧
    1663 < State.reset.cfg.calBytes ∧ 199 < 8 + State.reset.cfg.npix ∧ 191 < State.reset.cfg.npix ∧
    193 < State.reset.cfg.npix + 2 ∧ readCell (writeCells [] 191 [0x7FC00000#32]) 191 = some 0x7FC00000#32 ∧
    readCell (writeCells [] 193 [0x005A#16]) 193 = some 0x005A#16 :=
  ⟨⟨rfl, ⟨_, rfl⟩⟩, by decide⟩

/-- The first and the last word of FLAGMEM of VA and of VT, with and without a CalibrationSet. -/
theorem witness_FlagMemShowsTheBitmaps :
    (0 < 2 * ((Cfg.VA.npix + 15) / 16) ∧ 23 < 2 * ((Cfg.VA.npix + 15) / 16) ∧ State.reset.calset = none) ∧
    (1 < 2 * ((Cfg.VT.npix + 15) / 16) ∧ (ready 0x0008 8 4 0).calset = some toySet ∧ 15 < 16 ∧
      0 < (Cfg.VT.npix + 15) / 16 ∧ (Cfg.VT.npix + 15) / 16 ≤ 1) :=
  ⟨by decide, by decide, rfl, by decide⟩

/-- A conversion of right lengths on VT in chess order, with the given RAWMEM. -/
def readyWith (raw : List (Nat × Half)) : State :=
  { ready 0x0009 8 4 0 with mem := { Memory.blank with raw := raw } }

/-- For the last clause, on a ready frame of subpage 1: the boundary cells 1, 5, 8 and 11 unwritten one at a time, and cell 9, the raw word of
the failed pixel 3. -/
theorem witness_OnlyUnwrittenCellsFault_frame :
    (∀ k ∈ [1, 5, 8, 9, 11], ∃ f, exec (.cvtSubpage .chess 2#2)
      (readyWith ((frameRaw 0x0009 pixA).filter fun e => e.1 != k)) = .fault f) ∧
    (∀ k ∈ [1, 5, 8, 9, 11],
      readCell (readyWith ((frameRaw 0x0009 pixA).filter fun e => e.1 != k)).mem.raw 0 = some 0x0009#16 ∧
      readCell (readyWith ((frameRaw 0x0009 pixA).filter fun e => e.1 != k)).mem.raw k = none ∧
      ((1 ≤ k ∧ k ≤ 5) ∨ (8 ≤ k ∧ k < 8 + nmem Cfg.VT ((0x0009#16).extractLsb' 0 3).toNat .chess))) ∧
    (readyWith []).calset = some toySet ∧ (readyWith []).arg0.toNat = Cfg.VT.npix ∧
    ((0x0009#16).extractLsb' 0 3).toNat < Cfg.VT.nsub .chess ∧ (0x0009#16).getLsbD 3 = true ∧
    (readyWith []).arg1.toNat = nmem Cfg.VT ((0x0009#16).extractLsb' 0 3).toNat .chess ∧
    rank Cfg.VT 1 .chess 3 = 1 ∧ toySet.failedAt 3 = true := by
  refine ⟨fun k hk => ⟨.unwrittenCell .rawMem k, faults_of ?_⟩, by decide +kernel, rfl, by decide, by decide, by decide,
    by decide +kernel, by decide +kernel, by decide +kernel⟩
  revert k
  decide +kernel

theorem witness_OnlyUnwrittenCellsFault :
    (∃ f, exec .calLoad (fresh CheckedCfg.VT 192 0 0) = .fault f) ∧
    (∃ f, exec (.cvtSubpage .chess 2#2) { ready 0x0008 8 4 0 with mem := Memory.blank } = .fault f) ∧
    ((fresh CheckedCfg.VT 192 0 0).calset = none ∧ (fresh CheckedCfg.VT 192 0 0).arg0.toNat = Cfg.VT.calBytes ∧
      ¬ allWritten Cfg.VT.calBytes (fresh CheckedCfg.VT 192 0 0).mem.cal) ∧
    (State.calset { ready 0x0008 8 4 0 with mem := Memory.blank } = some toySet ∧
      (ready 0x0008 8 4 0).arg0.toNat = Cfg.VT.npix ∧ readCell Memory.blank.raw 0 = none) :=
  ⟨⟨_, faults_of (f := .unwrittenCell .calMem 0) (by decide +kernel)⟩,
    ⟨_, faults_of (f := .unwrittenCell .rawMem 0) (by decide +kernel)⟩,
    ⟨rfl, by decide, fun h => absurd (h 0 (by decide)) (by decide)⟩, rfl, by decide, rfl⟩

theorem witness_SyndromeTable : syndrome 0x37B5#16 = 0 ∧ 0 < 16 ∧ 15 < 16 := by decide +kernel

theorem witness_EncoderGivesTheUniqueCodeWord : syndrome 0xFFFF#16 = 0 ∧ payloadOf 0xFFFF#16 = 0x7FF#11 := by decide +kernel

theorem witness_CodeCorrectsOneDetectsTwo :
    (0 : Fin 16) ≠ 15 ∧ syndrome 0x0000#16 = 0 ∧ syndrome 0x9801#16 = 0 ∧ 0x0000#16 ≠ 0x9801#16 := by decide +kernel

/-- A code word, the recognised syndromes 16 and 31, the unrecognised 1 and 15. -/
theorem witness_EccDecDecodesOneWord :
    syndrome 0x37B5#16 = 0 ∧ syndrome 0xB7B5#16 = 16 ∧ syndrome 0x33B5#16 = 31 ∧ syndrome 0x0123#16 = 1 ∧
    syndrome 0x004E#16 = 15 := by decide +kernel

theorem witness_CalLoadRefusals :
    (ready 0x0008 8 4 0).calset ≠ none ∧
    (State.reset.calset = none ∧ (fresh CheckedCfg.VT 191 0 0).arg0.toNat ≠ Cfg.VT.calBytes ∧
      (fresh CheckedCfg.VT 193 0 0).arg0.toNat ≠ Cfg.VT.calBytes) :=
  ⟨by simp [ready], rfl, by decide, by decide⟩

/-- The ECC pass of a list of words answers `P` and `n`. -/
def passes (W : List Half) (f : List Payload → Nat → Bool) : Bool :=
  match eccpass W with
  | .ok P n => f P n
  | .err _ _ _ => false

theorem pass_of {W : List Half} {f : List Payload → Nat → Bool} (h : passes W f = true) :
    ∃ P n, eccpass W = .ok P n ∧ f P n = true := by
  unfold passes at h
  split at h
  · next P n hp => exact ⟨P, n, hp, h⟩
  · cases h

/-- Cases L1 and L7 of section 5. -/
theorem witness_CalLoadStoresTheCalibration :
    (∃ P n, Loads (withImage CheckedCfg.VT toy) toy ∧ eccpass toy = .ok P n ∧ validate Cfg.VT P = none) ∧
    ∃ P, Loads (withImage CheckedCfg.VT ((toyWith 12 0x37BD).set 70 0xD7FD)) ((toyWith 12 0x37BD).set 70 0xD7FD) ∧
      eccpass ((toyWith 12 0x37BD).set 70 0xD7FD) = .ok P 2 ∧ validate Cfg.VT P = none := by
  constructor
  · obtain ⟨P, n, h, hv⟩ := pass_of (W := toy) (f := fun P _ => decide (validate Cfg.VT P = none)) (by decide +kernel)
    exact ⟨P, n, loads_toy, h, of_decide_eq_true hv⟩
  · obtain ⟨P, n, h, hv⟩ := pass_of (W := (toyWith 12 0x37BD).set 70 0xD7FD)
      (f := fun P n => decide (n = 2 ∧ validate Cfg.VT P = none)) (by decide +kernel)
    obtain ⟨hn, hok⟩ := of_decide_eq_true hv
    exact ⟨P, loads_of (by decide) (by decide +kernel), hn ▸ h, hok⟩

/-- For the other clauses: case L7 decodes; its words 12 and 70 are the words of the toy image with one bit flipped, the others are the same. -/
theorem witness_CalLoadStoresTheCalibration_flips :
    decodesBelow toy toy.length ∧ Loads (withImage CheckedCfg.VT toy) toy ∧
    Loads (withImage CheckedCfg.VT ((toyWith 12 0x37BD).set 70 0xD7FD)) ((toyWith 12 0x37BD).set 70 0xD7FD) ∧
    (withImage CheckedCfg.VT ((toyWith 12 0x37BD).set 70 0xD7FD)).cfg = (withImage CheckedCfg.VT toy).cfg ∧
    (∀ w ∈ toy, syndrome w = 0) ∧
    (∀ (i : Nat) w, toy[i]? = some w → ((toyWith 12 0x37BD).set 70 0xD7FD)[i]? = some w ∨
      ∃ k, k < 16 ∧ ((toyWith 12 0x37BD).set 70 0xD7FD)[i]? = some (w ^^^ (1#16 <<< k))) ∧
    ∃ t, exec .calLoad (withImage CheckedCfg.VT toy) = .next t := by
  refine ⟨toy_decodes, loads_toy, loads_of (by decide) (by decide +kernel), rfl, toy_syndromes, fun i w hw => ?_, next_toy⟩
  by_cases h12 : i = 12
  · subst h12
    obtain rfl : w = 0x37B5#16 := Option.some.inj (hw.symm.trans (by decide +kernel))
    exact .inr ⟨3, by decide, by decide +kernel⟩
  by_cases h70 : i = 70
  · subst h70
    obtain rfl : w = 0x57FD#16 := Option.some.inj (hw.symm.trans (by decide +kernel))
    exact .inr ⟨15, by decide, by decide +kernel⟩
  · refine .inl ?_
    rw [toyWith, List.getElem?_set_ne (Ne.symm h70), List.getElem?_set_ne (Ne.symm h12), hw]

/-- For the error clause: case L13 ends in an error, with no bit flipped. -/
theorem witness_CalLoadStoresTheCalibration_error :
    (∃ t, exec .calLoad (withImage CheckedCfg.VT (toyWith 40 0x6024)) = .next t ∧ t.err = true) ∧
    ∀ w ∈ toyWith 40 0x6024, syndrome w = 0 :=
  ⟨next_of (by decide +kernel), fun w hw => of_decide_eq_true
    ((List.all_eq_true (p := fun w => decide (syndrome w = 0))).1 (by decide +kernel) w hw)⟩

/-- Case L8. -/
theorem witness_FirstBadWordEndsTheLoad :
    Loads (withImage CheckedCfg.VT (toyWith 12 0x35BD)) (toyWith 12 0x35BD) ∧ Cfg.VT.eccFallback = false ∧
    (toyWith 12 0x35BD)[12]? = some 0x35BD#16 ∧ eccdec 0x35BD#16 = .err 9#5 ∧ decodesBelow (toyWith 12 0x35BD) 12 := by
  refine ⟨loads_doubleFlip, rfl, bad_word (by decide +kernel), eccdec_35BD, ?_⟩
  have h : ∀ k, k < 12 → ((toyWith 12 0x35BD)[k]?).all decodes = true := by decide +kernel
  intro k hk x hx S hS
  have := h k hk
  rw [hx, Option.all_some, decodes, hS] at this
  cases this

/-- Cases L3 and L14. -/
theorem witness_FallbackTakesBarePayloads :
    (Loads (withImage CheckedCfg.VTF (stripped toy)) (stripped toy) ∧ Cfg.VTF.eccFallback = true ∧
      ¬ decodesBelow (stripped toy) (stripped toy).length ∧ validate Cfg.VTF ((stripped toy).map payloadOf) = none) ∧
    (Loads (withImage CheckedCfg.VTF (stripped (toyWith 40 0x6024))) (stripped (toyWith 40 0x6024)) ∧
      validate Cfg.VTF ((stripped (toyWith 40 0x6024)).map payloadOf) = some (2, 0)) :=
  ⟨⟨loads_of (by decide) (by decide +kernel), rfl, stripped_fails, by decide +kernel⟩,
    loads_of (by decide) (by decide +kernel), by decide +kernel⟩

theorem witness_StrippedImageLoadsTheSame :
    Loads (withImage CheckedCfg.VT toy) toy ∧ Loads (withImage CheckedCfg.VTF (stripped toy)) (stripped toy) ∧
    (withImage CheckedCfg.VTF (stripped toy)).cfg = { (withImage CheckedCfg.VT toy).cfg with eccFallback := true } ∧
    (∀ w ∈ toy, syndrome w = 0) ∧ stripped toy = toy.map (fun w => w &&& 0x07FF#16) ∧ ¬ decodesBelow (stripped toy) toy.length :=
  ⟨loads_toy, loads_of (by decide) (by decide +kernel), by decide +kernel,
    toy_syndromes, rfl,
    stripped_fails⟩

/-- The image passes the ECC and its fields are as `f` says. -/
theorem loads_pass {W : List Half} {f : List Payload → Bool} (hw : (match calWords (withImage CheckedCfg.VT W).mem
      (List.range Cfg.VT.calWords) with | .ok V => decide (V = W) | .error _ => false) = true)
    (h : passes W (fun P _ => f P) = true) :
    ∃ P n, Loads (withImage CheckedCfg.VT W) W ∧ eccpass W = .ok P n ∧ f P = true := by
  obtain ⟨P, n, hp, hf⟩ := pass_of h
  exact ⟨P, n, loads_of (by decide) hw, hp, hf⟩

/-- Cases L11 and L12: NG = 0 and NG = 9. -/
theorem witness_ValidationReportsTheFirstFailure_bands :
    (∃ P n, Loads (withImage CheckedCfg.VT (toyWith 40 0x1830)) (toyWith 40 0x1830) ∧ eccpass (toyWith 40 0x1830) = .ok P n ∧
      decide (fieldU P 40 3 0 = 0) = true) ∧
    ∃ P n, Loads (withImage CheckedCfg.VT (toyWith 40 0x4089)) (toyWith 40 0x4089) ∧ eccpass (toyWith 40 0x4089) = .ok P n ∧
      decide (fieldU P 40 3 0 = 9) = true :=
  ⟨loads_pass (by decide +kernel) (by decide +kernel), loads_pass (by decide +kernel) (by decide +kernel)⟩

/-- Case L13: NCT ≠ NG - 1. -/
theorem witness_ValidationReportsTheFirstFailure_count :
    ∃ P n, Loads (withImage CheckedCfg.VT (toyWith 40 0x6024)) (toyWith 40 0x6024) ∧ eccpass (toyWith 40 0x6024) = .ok P n ∧
      decide (1 ≤ fieldU P 40 3 0 ∧ fieldU P 40 3 0 ≤ 8 ∧ fieldU P 40 7 4 ≠ fieldU P 40 3 0 - 1) = true :=
  loads_pass (by decide +kernel) (by decide +kernel)

/-- Case L16: the last corner temperature is not above its predecessor; the one before is. -/
theorem witness_ValidationReportsTheFirstFailure_corner :
    ∃ P n, Loads (withImage CheckedCfg.VT (toyWith 43 0x6819)) (toyWith 43 0x6819) ∧ eccpass (toyWith 43 0x6819) = .ok P n ∧
      decide (fieldU P 40 3 0 = 4 ∧ fieldU P 40 7 4 = 3 ∧ fieldS P (41 + 2) 10 0 ≤ fieldS P (41 + (2 - 1)) 10 0 ∧
        fieldS P (41 + (1 - 1)) 10 0 < fieldS P (41 + 1) 10 0) = true :=
  loads_pass (by decide +kernel) (by decide +kernel)

/-- Case L18 (NG = 1 = BTR, no corner) and case L1. -/
theorem witness_ValidationReportsTheFirstFailure_range :
    (∃ P n, Loads (withImage CheckedCfg.VT (toyWith 40 0x9801)) (toyWith 40 0x9801) ∧ eccpass (toyWith 40 0x9801) = .ok P n ∧
      decide (fieldU P 40 3 0 = 1 ∧ fieldU P 40 7 4 = 0 ∧ fieldU P 40 3 0 ≤ Cfg.VT.btr) = true) ∧
    ∃ P n, Loads (withImage CheckedCfg.VT toy) toy ∧ eccpass toy = .ok P n ∧
      decide (fieldU P 40 3 0 = 4 ∧ fieldU P 40 7 4 = 3 ∧ fieldS P (41 + (1 - 1)) 10 0 < fieldS P (41 + 1) 10 0 ∧
        fieldS P (41 + (2 - 1)) 10 0 < fieldS P (41 + 2) 10 0 ∧ Cfg.VT.btr < fieldU P 40 3 0) = true :=
  ⟨loads_pass (by decide +kernel) (by decide +kernel), loads_pass (by decide +kernel) (by decide +kernel)⟩

/-- Extraction by 41_calibration.md R181, by hand: words 11 and 12 of the toy image are 0x701F and 0x37B5, payloads 0x01F and 0x7B5, so
HL = 31 * 2048 + 1973 = 65461 and SHL = -75; payload 0x7B5 is 1973 unsigned and -75 signed, its bits 10:8 are 7, or -1. -/
theorem test_extraction :
    fieldUHL (toy.map payloadOf) 11 = 65461 ∧ fieldSHL (toy.map payloadOf) 11 = -75 ∧ fieldU11 (toy.map payloadOf) 12 = 1973 ∧
    fieldS11 (toy.map payloadOf) 12 = -75 ∧ fieldU (toy.map payloadOf) 12 10 8 = 7 ∧ fieldS (toy.map payloadOf) 12 10 8 = -1 := by
  decide +kernel

/-- Two words to extract from, the fields at both ends of a word. -/
theorem witness_ExtractsFields : (toy.map payloadOf)[11]? = some 0x01F#11 ∧ (toy.map payloadOf)[11 + 1]? = some 0x7B5#11 ∧
    (0 : Nat) ≤ 0 ∧ (0 : Nat) ≤ 10 ∧ (10 : Nat) ≤ 10 := by decide +kernel

/-- The last corner temperature and the last band of the toy image. -/
theorem witness_ScalarFieldFormulas : 2 < fieldU (toy.map payloadOf) 40 7 4 ∧ 3 < fieldU (toy.map payloadOf) 40 3 0 := by
  decide +kernel

theorem witness_PixelFieldFormulas : 0 < Cfg.VT.npix ∧ 7 < Cfg.VT.npix := by decide

theorem witness_ParserScalingIsExact :
    (2 ^ 26 - 1 : Int).natAbs < 2 ^ 26 ∧ (-5 : Int) ≤ -5 ∧ (-5 : Int) ≤ 63 ∧ (63 : Int) ≤ 63 ∧
    (2 ^ 24 : Int).natAbs ≤ 2 ^ 24 := by decide

theorem witness_CalLoadIsDeterministic :
    ((ready 0x0008 192 0 0).cfg = (ready 0x0008 192 4 0x10).cfg ∧
      (∃ t, exec .calLoad (ready 0x0008 192 4 0) = .next t ∧ t.err = true)) ∧
    (∃ t u, (withImage CheckedCfg.VT toy).calset = none ∧ exec .calLoad (withImage CheckedCfg.VT toy) = .next t ∧
      exec .sysReset t = .next u) :=
  ⟨⟨rfl, next_of (f := fun t => t.err) (by decide +kernel)⟩,
    next_toy.imp fun _ h => ⟨_, rfl, h, rfl⟩⟩

/-- The last selector of the table, and the first and the last beyond it. -/
theorem witness_GeoConstTable : (17#16).toNat < 18 ∧ 17 < (18#16).toNat ∧ 17 < (65535#16).toNat := by decide

/-- The last word of the bitmap of VT and the first cell past it. -/
theorem witness_GeoMemberWritesTheBitmap :
    0 < (Cfg.VT.npix + 15) / 16 ∧ 15 < 16 ∧ (Cfg.VT.npix + 15) / 16 ≤ 1 := by decide

/-- A record with one subpage in one pattern, and VT with two in both. -/
def oneSubpage : CheckedCfg := ⟨{ Cfg.VT with nsubInterleaved := 1 }, by decide⟩

theorem witness_SubpagesPartitionThePixels :
    oneSubpage.record.nsub .interleaved = 1 ∧ Cfg.VT.nsub .interleaved = 2 ∧ oneSubpage.record.nsub .chess = 2 := by decide

theorem witness_MemberCounts : Cfg.VC.wf ∧ Cfg.VC.nsub .interleaved = 2 ∧ Cfg.VC.nsub .chess = 2 := by decide

theorem witness_GeoRangesWritesTheSpans :
    (spans Cfg.VT (1#1).toNat .chess)[2]? = some (0x0406, 1) ∧ 2 * (spans Cfg.VT (1#1).toNat .chess).length ≤ 6 := by
  decide +kernel

theorem witness_SpansAreMaximalRuns :
    (3 < Cfg.VT.npix ∧ spOf Cfg.VT .chess 3 = (1#1).toNat) ∧ (0x0403, 2) ∈ spans Cfg.VT (1#1).toNat .chess ∧
    oneSubpage.record.nsub .interleaved = 1 ∧ 1 ≤ oneSubpage.record.npix := by decide +kernel

theorem witness_SpansAgreeWithTheBitmap :
    Cfg.VT.pixBase.toNat + Cfg.VT.npix ≤ 65536 ∧
    (∃ t, exec (.geoRanges 1#1 .chess) (fresh CheckedCfg.VT 0 0 0) = .next t) ∧
    ∃ t, exec (.geoMember 1#1 .chess) (fresh CheckedCfg.VT 0 0 0) = .next t :=
  ⟨by decide, ok_of (by decide +kernel), ok_of (by decide +kernel)⟩

theorem witness_GeoRescorrGivesTheFactor : Cfg.VTF ∈ [Cfg.VA, Cfg.VB, Cfg.VC, Cfg.VT, Cfg.VTF] := by decide

theorem witness_SiblingVariantDelegates :
    State.reset.cfg = Cfg.VA ∧ (∃ t, exec (.geoRanges 0#1 .chess) State.reset = .next t) ∧
    (∃ t, exec (.geoConst 14#16 .chess) State.reset = .next t) ∧ (14#16).toNat ≠ 15 ∧ (17#16).toNat ≠ 16 :=
  ⟨rfl, ok_of (by decide +kernel), ok_of (by decide), by decide, by decide⟩

theorem witness_GeometryIsIndependent :
    (∃ t, exec (.geoMember 1#1 .chess) (ready 0x0008 8 4 0) = .next t) ∧ ∃ t, exec .geoRescorr State.reset = .next t :=
  ⟨ok_of (by decide +kernel), ok_of (by decide +kernel)⟩

/-- Lengths one off, the subpages 2 and 7, a frame that is not ready. -/
theorem witness_ConversionChecksInOrder :
    State.reset.calset = none ∧
    ((ready 0x0008 7 4 0).calset ≠ none ∧ (ready 0x0008 7 4 0).arg0.toNat ≠ Cfg.VT.npix) ∧
    ((ready 0x000A 8 4 0).calset ≠ none ∧ (ready 0x000A 8 4 0).arg0.toNat = Cfg.VT.npix ∧
      readCell (ready 0x000A 8 4 0).mem.raw 0 = some 0x000A#16 ∧
      Cfg.VT.nsub .chess ≤ ((0x000A#16).extractLsb' 0 3).toNat) ∧
    (readCell (ready 0x0007 8 4 0).mem.raw 0 = some 0x0007#16 ∧
      Cfg.VT.nsub .chess ≤ ((0x0007#16).extractLsb' 0 3).toNat) ∧
    (readCell (ready 0x0001 8 99 0).mem.raw 0 = some 0x0001#16 ∧
      ((0x0001#16).extractLsb' 0 3).toNat < Cfg.VT.nsub .chess ∧ (0x0001#16).getLsbD 3 = false) ∧
    (readCell (ready 0xFFF9 8 5 0).mem.raw 0 = some 0xFFF9#16 ∧
      ((0xFFF9#16).extractLsb' 0 3).toNat < Cfg.VT.nsub .chess ∧ (0xFFF9#16).getLsbD 3 = true ∧
      (ready 0xFFF9 8 5 0).arg1.toNat ≠ nmem Cfg.VT ((0xFFF9#16).extractLsb' 0 3).toNat .chess) :=
  ⟨rfl, ⟨by simp [ready], by decide⟩, ⟨by simp [ready], by decide, by decide +kernel, by decide⟩,
    ⟨by decide +kernel, by decide⟩, ⟨by decide +kernel, by decide, by decide⟩,
    by decide +kernel, by decide, by decide, by decide +kernel⟩

/-- A member that is not failed, the failed member of subpage 1, and a pixel of the other subpage. -/
theorem witness_ConvertsEveryMemberPixel :
    (∃ s ap c st x, Converts s ap c st x) ∧
    (5 < Cfg.VT.npix ∧ spOf Cfg.VT .chess 5 = 0 ∧ toySet.failedAt 5 = false ∧
      readCell (frameRaw 0x0008 pixA) (8 + rank Cfg.VT 0 .chess 5) = some 620#16) ∧
    (spOf Cfg.VT .chess 3 = 1 ∧ toySet.failedAt 3 = true) ∧ ¬ (8 < Cfg.VT.npix ∧ spOf Cfg.VT .chess 8 = 0) :=
  ⟨⟨_, _, _, _, _, converts_ready⟩, by decide +kernel, by decide +kernel, by decide⟩

theorem witness_StageFormulas : (toySet.ksto[3]?.isSome ∧ toySet.g[3]?.isSome ∧ toySet.pix[7]?.isSome) ∧ toySet.tgc = some 0x3F800000#32 ∧ toySet.emis = none ∧
    (slice Cfg.VT ((toyWith 29 0x0000).map payloadOf)).tgc = none ∧
    (slice Cfg.VT ((toyWith 28 0xC9F0).map payloadOf)).emis = some 0x3F780000#32 := by decide +kernel

/-- 1 and 0.5, as binary32 values. -/
theorem isValue_one_half : IsValue 0x3F800000#32 1 ∧ IsValue 0x3F000000#32 (1 / 2) := by
  refine ⟨⟨false, 2 ^ 23, -23, by decide, ?_⟩, ⟨false, 2 ^ 23, -24, by decide, ?_⟩⟩ <;> norm_num [zpow_neg]

/-- Section 6.3: the corner 25 belongs to the band above it, the number below it does not. -/
theorem witness_BandHoldsTheAmbientTemperature :
    (∃ a b x y, IsValue a x ∧ IsValue b y) ∧ 2 < toySet.nct ∧
    validate Cfg.VT (toy.map payloadOf) = none ∧ 1 < toySet.nct ∧ f32Ge 0x41C80000#32 (toySet.ctAt 1) = true ∧
    f32Ge 0x41C7FFFF#32 (toySet.ctAt 1) = false ∧ bandOf toySet 0x41C80000#32 = 2 ∧ bandOf toySet 0x41C7FFFF#32 = 1 ∧
    f32IsNaN 0x7FC00000#32 = true :=
  ⟨⟨_, _, _, _, isValue_one_half⟩, by decide +kernel⟩

/-- An error, a frame that is not ready, a first subpage, a second, a change of pattern, a pattern of one subpage. -/
theorem witness_CompletionNeedsEverySubpage :
    ((0#2).toNat + 1 < 2 ^ Cfg.VT.nsub .interleaved ∧
      (2#2).toNat + 1 < 2 ^ Cfg.VT.nsub .chess) ∧
    (∃ t, exec (.cvtSubpage .chess 2#2) (ready 0x0008 7 4 0) = .next t ∧ t.err = true) ∧
    (∃ t, exec (.cvtSubpage .chess 2#2) (ready 0x0000 8 4 0) = .next t ∧ decide (t.res0 = 2) = true) ∧
    (∃ t, exec (.cvtSubpage .chess 2#2) (ready 0x0008 8 4 0) = .next t ∧
      decide (t.err = false ∧ t.res0 = 0 ∧ t.seen = 1) = true) ∧
    (∃ t, exec (.cvtSubpage .chess 2#2) { ready 0x0008 8 4 0 with seen := 2, lastAp := .chess } = .next t ∧
      decide (t.err = false ∧ t.res0 = 1 ∧ t.seen = 0) = true) ∧
    (∃ t, exec (.cvtSubpage .chess 2#2) { ready 0x0008 8 4 0 with seen := 2 } = .next t ∧
      decide (t.err = false ∧ t.res0 = 0 ∧ t.seen = 1) = true) ∧
    (∃ t, exec (.cvtSubpage .interleaved 2#2)
      { ready 0x0008 8 8 0 with config := oneSubpage, mem := { Memory.blank with raw := frameRaw 0x0008 (pixA ++ pixA) } } =
        .next t ∧ decide (t.err = false ∧ t.res0 = 1 ∧ t.seen = 0) = true) :=
  ⟨by decide, next_of (by decide +kernel), next_of (by decide +kernel), next_of (by decide +kernel),
    next_of (by decide +kernel), next_of (by decide +kernel), next_of (by decide +kernel)⟩

theorem witness_FloatSpecialValues :
    f32IsNaN 0x7F800001#32 = true ∧ f32IsNaN 0x7F800000#32 = false ∧ (0x7F800000#32).extractLsb' 0 31 ≠ 0 ∧
    (0x80000000#32).extractLsb' 0 31 = 0 ∧ (0xFF800000#32).getLsbD 31 = true ∧ (0x80000001#32).extractLsb' 0 31 ≠ 0 := by
  decide

theorem witness_SumsAndProductsRoundOnce : ∃ a b x y, IsValue a x ∧ IsValue b y :=
  ⟨_, _, _, _, isValue_one_half⟩

theorem witness_QuotientsAndRootsRoundOnce :
    (∃ a b x y, IsValue a x ∧ IsValue b y ∧ y ≠ 0) ∧ ∃ a x, IsValue a x ∧ 0 ≤ x :=
  ⟨⟨_, _, _, _, isValue_one_half.1, isValue_one_half.2, by norm_num⟩, ⟨_, _, isValue_one_half.1, by norm_num⟩⟩

theorem witness_NopOnlyClearsTheError : (fresh CheckedCfg.VT 0 0 0).busy = false := rfl

theorem witness_SysResetRestoresTheResetState :
    (ready 0x0008 8 4 0).busy = false ∧ decode 0x0000007F#32 = .ok .sysReset ∧ decode 0xFFFF0F7F#32 = .ok .sysReset :=
  ⟨rfl, by decide, by decide⟩

/-- One error of each command that can raise one. -/
theorem witness_ErrorsArePrecise :
    (∃ t, exec (.eccDec 7#16) (fresh CheckedCfg.VT 0x35BD 0 0) = .next t ∧ t.err = true) ∧
    (∃ t, exec .calLoad (fresh CheckedCfg.VT 191 0 0) = .next t ∧ t.err = true) ∧
    (∃ t, exec (.geoConst 18#16 .chess) State.reset = .next t ∧ t.err = true) ∧
    (∃ t, exec (.cvtSubpage .chess 2#2) (ready 0x000A 8 4 0) = .next t ∧ t.err = true) :=
  ⟨next_of (by decide +kernel), next_of (by decide +kernel), next_of (by decide), next_of (by decide +kernel)⟩

theorem witness_WhichCommandRaisesWhich :
    (∃ t, exec (.eccDec 7#16) (fresh CheckedCfg.VT 0x35BD 0 0) = .next t ∧ t.err = true) ∧
    (State.reset.busy = false ∧ decode 0x00000003#32 = .error .unlistedOpcode) ∧ 7#8 ∈ [2#8, 3#8, 4#8, 7#8] ∧
    6#8 ∈ [2#8, 5#8, 6#8] :=
  ⟨next_of (by decide +kernel), ⟨rfl, by decide⟩, by decide, by decide⟩

/-- A record that fails each check, and one at the boundary of each range. -/
theorem witness_ConfigurationIsChecked :
    State.configure { Cfg.VT with npix := 7 } = none ∧ State.configure { Cfg.VT with calWords := 97 } = none ∧
    State.configure { Cfg.VT with btr := 8 } = none ∧
    (State.configure { Cfg.VT with height := 1, width := 1, npix := 1, calWords := 68, btr := 7 }).isSome = true ∧
    (State.configure { Cfg.VT with height := 120, width := 136, npix := 16320, calWords := 65344, btr := 7 }).isSome = true ∧
    (∀ ap, Cfg.VT.nsub ap = 1 ∨ Cfg.VT.nsub ap = 2) :=
  ⟨by decide, by decide, by decide, by decide, by decide, fun ap => by cases ap <;> decide⟩

theorem witness_EveryStepKeepsTheInvariant :
    ∃ s t, Machine.Inv s ∧ s.inbox ≠ [] ∧ step s = .next t :=
  ⟨_, _, inv_ready, by simp [ready, fresh], (ok_of (by decide +kernel)).choose_spec⟩

end Sys2Proof.Tests
end

section
/-! PROOFS. Configuration and reset (00_scope.md R10, R11; 10_state.md R60): O58 and O60. -/

namespace Sys2Proof.Machine

/-- The subpage counts of a checked record are 1 or 2 (00_scope.md R10). -/
theorem nsub_of_wf {c : Cfg} (hw : c.wf) (ap : AccessPattern) : c.nsub ap = 1 ∨ c.nsub ap = 2 := by
  obtain ⟨-, -, -, -, -, -, hi, hc⟩ := hw
  cases ap
  case interleaved => exact hi
  case chess => exact hc

/-- The state after reset meets the invariant (10_state.md R60). -/
theorem inv_resetOf (c : CheckedCfg) : Inv (State.resetOf c) where
  memWf := blank_wf c.record
  idle := rfl
  calWf := fun _ h => nomatch h
  seenOpen := by
    show 0 + 1 < 2 ^ c.record.nsub .interleaved
    rcases nsub_of_wf c.ok .interleaved with h | h <;> rw [h] <;> decide
  corrMax := Nat.zero_le _
  oneEnd := fun h => nomatch h.1
  codeErr := ⟨(nomatch ·), fun h => absurd rfl h⟩
  codeRange := ⟨Nat.zero_le _, (by decide : (0 : BitVec 8) ≠ 1)⟩
  infoErr := fun _ => rfl
  errResults := fun h => nomatch h

/-- The record of every state meets the three relations that are checked (00_scope.md R11). -/
theorem config_relations (s : State) :
    s.cfg.npix = s.cfg.height * s.cfg.width ∧ s.cfg.calWords = 64 + 4 * s.cfg.npix ∧ s.cfg.btr ≤ 7 := by
  obtain ⟨-, -, hn, -, hw, hb, -, -⟩ := s.config.ok
  exact ⟨hn, hw, hb⟩

/-- A record that breaks one of the three relations cannot be configured: no state holds it (00_scope.md R11). -/
theorem configure_eq_none {c : Cfg} (h : c.npix ≠ c.height * c.width ∨ c.calWords ≠ 64 + 4 * c.npix ∨ 7 < c.btr) :
    State.configure c = none := by
  refine Option.eq_none_iff_forall_ne_some.2 fun s hs => ?_
  obtain ⟨rfl, -⟩ := configure_eq_some.1 hs
  obtain ⟨hn, hw, hb⟩ := config_relations s
  omega

/-- A record that passes the check is configured, and starts in the state after reset (00_scope.md R11). -/
theorem configure_of_wf {c : Cfg} (hw : c.wf) :
    ∃ s, State.configure c = some s ∧ s.cfg = c ∧ s = State.resetOf s.config :=
  ⟨State.resetOf ⟨c, hw⟩, configure_eq_some.2 ⟨rfl, rfl⟩, rfl, rfl⟩

end Sys2Proof.Machine

namespace Sys2Proof.Proofs

open Sys2Proof.Machine

/-- Settles O58: the invariant holds at reset of every record, VA's among them. -/
theorem invariantHoldsAtReset : Obligations.InvariantHoldsAtReset :=
  ⟨inv_resetOf, inv_resetOf CheckedCfg.VA⟩

/-- Settles O60: a record is configured exactly when it passes the check, which the record of every state has passed. -/
theorem configurationIsChecked : Obligations.ConfigurationIsChecked := by
  refine ⟨fun c => ⟨rfl, fun sp ap => rfl⟩, fun c h => configure_eq_none h, ?_, config_relations⟩
  intro c hn hw hb hh hwd hmax hsub
  exact configure_of_wf ⟨hh, hwd, hn, hmax, hw, hb, hsub .interleaved, hsub .chess⟩

end Sys2Proof.Proofs
end

section
/-! PROOFS. Which commands can have no result (20_memory.md R78, 70_reset_and_hazards.md R357): O19. -/

namespace Sys2Proof.Machine

variable {s t : State}

/-! ## No command is refused -/

theorem execEccDec_answers (tag : Half) (s : State) : ∃ t, execEccDec tag s = .next t := by
  unfold execEccDec
  split
  · exact ⟨_, rfl⟩
  · exact ⟨_, rfl⟩

theorem execGeoConst_answers (idx : Half) (ap : AccessPattern) (s : State) :
    ∃ t, execGeoConst idx ap s = .next t := by
  unfold execGeoConst
  split
  · exact ⟨_, rfl⟩
  · exact ⟨_, rfl⟩

theorem execCalLoad_ne_refused (s : State) (r : Refusal) : execCalLoad s ≠ .refused r := by
  unfold execCalLoad
  intro h
  dsimp only at h
  split at h
  · cases h
  · split at h
    · cases h
    · split at h
      · cases h
      · cases h

theorem convertFrame_ne_refused (c : CalSet) (sp : Nat) (ap : AccessPattern) (res : BitVec 2) (s : State)
    (r : Refusal) : convertFrame c sp ap res s ≠ .refused r := by
  unfold convertFrame
  intro h
  split at h
  · cases h
  · split at h
    · cases h
    · cases h

theorem execCvtSubpage_ne_refused (ap : AccessPattern) (res : BitVec 2) (s : State) (r : Refusal) :
    execCvtSubpage ap res s ≠ .refused r := by
  unfold execCvtSubpage
  intro h
  split at h
  · cases h
  · split at h
    · cases h
    · split at h
      · cases h
      · split at h
        · cases h
        · split at h
          · cases h
          · split at h
            · cases h
            · exact convertFrame_ne_refused _ _ _ _ _ _ h

/-- Every command but CAL.LOAD and CVT.SUBPAGE ends in every state (00_scope.md R24). -/
theorem exec_cases (i : Instr) (s : State) :
    (∃ t, exec i s = .next t) ∨ i = .calLoad ∨ ∃ ap res, i = .cvtSubpage ap res := by
  cases i with
  | calLoad => exact .inr (.inl rfl)
  | cvtSubpage ap res => exact .inr (.inr ⟨ap, res, rfl⟩)
  | eccDec tag => exact .inl (execEccDec_answers tag s)
  | geoConst idx ap => exact .inl (execGeoConst_answers idx ap s)
  | sysNop | eccEnc | geoMember | geoRanges | geoRescorr | sysReset => exact .inl ⟨_, rfl⟩

theorem exec_cvtSubpage (ap : AccessPattern) (res : BitVec 2) (s : State) :
    exec (.cvtSubpage ap res) s = execCvtSubpage ap res s := rfl

theorem exec_ne_refused (i : Instr) (s : State) (r : Refusal) : exec i s ≠ .refused r := by
  rcases exec_cases i s with ⟨t, ht⟩ | rfl | ⟨ap, res, rfl⟩
  · rw [ht]; exact fun h => nomatch h
  · exact execCalLoad_ne_refused s r
  · exact execCvtSubpage_ne_refused ap res s r

/-- A command that cannot end in a next state faults, there being no refusal. -/
theorem exec_faults {i : Instr} (h : ∀ t, exec i s ≠ .next t) : ∃ f, exec i s = .fault f := by
  cases ho : exec i s with
  | next t => exact absurd ho (h t)
  | fault f => exact ⟨f, rfl⟩
  | refused r => exact absurd ho (exec_ne_refused i s r)

/-! ## The cells a command must find written -/

/-- A CALMEM that holds an image is written whole (20_memory.md R77). -/
theorem allWritten_of_image {W : List Half} (h : ImageIs s W) : allWritten s.cfg.calBytes s.mem.cal := by
  intro i hi
  have hk : i / 2 < s.cfg.calWords := by simp only [Cfg.calBytes] at hi; omega
  obtain ⟨hi8, lo8, hhi, hlo, -⟩ := h.words (i / 2) hk
  rcases Nat.mod_two_eq_zero_or_one i with he | ho
  · rw [show i = 2 * (i / 2) by omega, hhi]; rfl
  · rw [show i = 2 * (i / 2) + 1 by omega, hlo]; rfl

/-- A conversion that ends has found written the auxiliary words it uses and the words of all members (70_reset_and_hazards.md R357). -/
theorem convertFrame_reads {c : CalSet} {sp : Nat} {ap : AccessPattern} {res : BitVec 2} {k : Nat}
    (h : convertFrame c sp ap res s = .next t) (hk : (1 ≤ k ∧ k ≤ 5) ∨ (8 ≤ k ∧ k < 8 + nmem s.cfg sp ap)) :
    readCell s.mem.raw k ≠ none := by
  obtain ⟨x, out, hx, hout, -⟩ := convertFrame_cases h
  rcases hk with haux | hpix
  · obtain ⟨h1, h2, h3, h4, h5⟩ := readAux_ok.1 hx
    obtain rfl | rfl | rfl | rfl | rfl : k = 1 ∨ k = 2 ∨ k = 3 ∨ k = 4 ∨ k = 5 := by omega
    all_goals simp [*]
  · obtain ⟨p, hp, hr⟩ := exists_member_rank (c := s.cfg) (sp := sp) (ap := ap) (r := k - 8) (by omega)
    have hread := convertPixels_read members_nodup hout p
    rw [if_pos hp] at hread
    obtain ⟨v, hv, -⟩ := hread
    obtain ⟨raw, hraw, -⟩ := pixelOut_ok.1 hv
    rw [hr, show 8 + (k - 8) = k by omega] at hraw
    rw [hraw]
    exact Option.some_ne_none raw

/-- CAL.LOAD of the right length needs the whole image. -/
theorem calLoad_faults (hc : s.calset = none) (hl : s.arg0.toNat = s.cfg.calBytes)
    (hw : ¬ allWritten s.cfg.calBytes s.mem.cal) : ∃ f, exec .calLoad s = .fault f := by
  refine exec_faults fun t ht => ?_
  rcases execCalLoad_cases ht with ⟨hsome, -⟩ | ⟨-, hne, -⟩ | ⟨-, -, W, hW, -⟩
  · simp [hc] at hsome
  · exact hne hl
  · exact hw (allWritten_of_image hW)

/-- The status word is read right after the length check of `ARG0` (43_convert.md R255). -/
theorem cvtSubpage_faults_status {c : CalSet} (ap : AccessPattern) (res : BitVec 2) (hc : s.calset = some c)
    (hl : s.arg0.toNat = s.cfg.npix) (h0 : readCell s.mem.raw 0 = none) :
    exec (.cvtSubpage ap res) s = .fault (.unwrittenCell .rawMem 0) := by
  simp [exec_cvtSubpage, execCvtSubpage, hc, hl, readRaw_error.2 ⟨h0, rfl⟩]

/-- CVT.SUBPAGE of a ready frame with the right lengths needs every word it reads. -/
theorem cvtSubpage_faults_word {c : CalSet} {ap : AccessPattern} {st : Half} {k : Nat} (res : BitVec 2)
    (hc : s.calset = some c) (hl : s.arg0.toNat = s.cfg.npix) (h0 : readCell s.mem.raw 0 = some st)
    (hsp : statusSubpage st < s.cfg.nsub ap) (hr : statusReady st = true)
    (hn : s.arg1.toNat = nmem s.cfg (statusSubpage st) ap)
    (hk : (1 ≤ k ∧ k ≤ 5) ∨ (8 ≤ k ∧ k < 8 + nmem s.cfg (statusSubpage st) ap))
    (hu : readCell s.mem.raw k = none) : ∃ f, exec (.cvtSubpage ap res) s = .fault f := by
  refine exec_faults fun t ht => ?_
  rcases execCvtSubpage_cases ht with ⟨hc', -⟩ | ⟨c', -, ⟨hl', -⟩ | ⟨-, st', h0', hend⟩⟩
  · simp [hc] at hc'
  · exact hl' hl
  · obtain rfl : st = st' := by simpa [h0] using h0'
    rcases hend with ⟨hsp', -⟩ | ⟨-, hr', -⟩ | ⟨-, -, hn', -⟩ | ⟨-, -, -, hframe⟩
    · omega
    · simp [hr] at hr'
    · exact hn' hn
    · exact convertFrame_reads hframe hk hu

end Sys2Proof.Machine

namespace Sys2Proof.Proofs

open Sys2Proof.Machine

/-- Settles O19: only CAL.LOAD and CVT.SUBPAGE can fail to end, at an unwritten cell, and they do at each cell R357 names. -/
theorem onlyUnwrittenCellsFault : Obligations.OnlyUnwrittenCellsFault := by
  refine ⟨exec_ne_refused, ?_, fun s => calLoad_faults, fun s ap res c => cvtSubpage_faults_status ap res, ?_⟩
  · intro i s f hf
    rcases exec_cases i s with ⟨t, ht⟩ | rfl | ⟨ap, res, rfl⟩
    · rw [ht] at hf; cases hf
    · exact .inl ⟨rfl, execCalLoad_fault hf⟩
    · exact .inr ⟨ap, res, rfl, execCvtSubpage_fault hf⟩
  · intro s ap res c st k hc hl h0 hsp hr hn hk hu
    exact cvtSubpage_faults_word res hc hl h0 hsp hr hn hk hu

end Sys2Proof.Proofs
end

section
/-! PROOFS. The binary32 operations round the exact result once (00_scope.md R15, 43_convert.md R251): O51 and O52. -/

namespace Sys2Proof.Machine

/-- The number `.fin neg m e` stands for. -/
noncomputable def finReal (neg : Bool) (m : Nat) (e : Int) : ℝ := (if neg = true then -1 else 1) * (m : ℝ) * (2 : ℝ) ^ e

theorem isValue_iff {a : F32} {x : ℝ} : IsValue a x ↔ ∃ neg m e, f32Val a = .fin neg m e ∧ x = finReal neg m e :=
  Iff.rfl

/-- The significand of a finite pattern has at most 24 bits. -/
theorem significand_lt {a : F32} {neg : Bool} {m : Nat} {e : Int} (h : f32Val a = .fin neg m e) : m < 2 ^ 24 := by
  have hfr := (a.extractLsb' 0 23).isLt
  simp only [f32Val] at h
  split at h
  · split at h <;> cases h
  · split at h
    · cases h; omega
    · cases h; omega

theorem finReal_eq_zero {neg : Bool} {m : Nat} {e : Int} : finReal neg m e = 0 ↔ m = 0 := by
  cases neg <;> simp [finReal, zpow_ne_zero]

theorem finReal_zero (neg : Bool) (e : Int) : finReal neg 0 e = 0 := finReal_eq_zero.2 rfl

theorem finReal_not (neg : Bool) (m : Nat) (e : Int) : finReal (!neg) m e = -finReal neg m e := by
  cases neg <;> simp [finReal]

theorem finReal_true_neg {m : Nat} {e : Int} (hm : m ≠ 0) : finReal true m e < 0 := by
  have hm0 : (0 : ℝ) < m := Nat.cast_pos.2 (Nat.pos_of_ne_zero hm)
  have hpos : 0 < (m : ℝ) * (2 : ℝ) ^ e := by positivity
  simpa [finReal] using hpos

theorem finReal_mul (s t : Bool) (m n : Nat) (e f : Int) :
    finReal s m e * finReal t n f = finReal (s ^^ t) (m * n) (e + f) := by
  have hz : (2 : ℝ) ^ (e + f) = 2 ^ e * 2 ^ f := zpow_add₀ two_ne_zero e f
  cases s <;> cases t <;> simp [finReal, hz] <;> ring

theorem finReal_div (s t : Bool) (m n : Nat) (e f : Int) :
    finReal s m e / finReal t n f = (if (s ^^ t) = true then -1 else 1) * ((m : ℝ) / n * (2 : ℝ) ^ (e - f)) := by
  have hz : (2 : ℝ) ^ (e - f) = 2 ^ e / 2 ^ f := zpow_sub₀ two_ne_zero e f
  cases s <;> cases t <;> simp [finReal, hz, neg_div, div_neg, mul_div_mul_comm]

/-- `f32Round` in terms of the number it is given. -/
theorem f32Round_finReal (neg : Bool) (m : Nat) (e : Int) : RoundsTo (finReal neg m e) (f32Round neg m e) := by
  rw [finReal, mul_assoc]
  exact f32Round_roundsTo neg m e

/-- A packed zero of either sign is the rounding of 0. -/
theorem f32Pack_zero_roundsTo (neg : Bool) : RoundsTo 0 (f32Pack neg 0) := by
  have h := f32Round_finReal neg 0 0
  rwa [finReal_zero] at h

/-- An integer times a power of two, rounded by its sign and magnitude. -/
theorem f32Round_int (z e : Int) : RoundsTo ((z : ℝ) * 2 ^ e) (f32Round (decide (z < 0)) z.natAbs e) := by
  have hz : finReal (decide (z < 0)) z.natAbs e = (z : ℝ) * 2 ^ e := by
    rw [finReal, Nat.cast_natAbs, Int.cast_abs]
    by_cases h : z < 0
    · simp [h, abs_of_neg (Int.cast_lt_zero.2 h)]
    · simp [h, abs_of_nonneg (Int.cast_nonneg (not_lt.1 h))]
  exact hz ▸ f32Round_finReal _ _ _

/-! ## Sums and products -/

/-- The integer `addVal` writes a term as, over the unit `2^g`. -/
def finInt (neg : Bool) (m : Nat) (e g : Int) : Int :=
  if neg then -Int.ofNat (m * 2 ^ (e - g).toNat) else Int.ofNat (m * 2 ^ (e - g).toNat)

theorem finReal_eq_finInt {neg : Bool} {m : Nat} {e g : Int} (h : g ≤ e) :
    finReal neg m e = (finInt neg m e g : ℝ) * 2 ^ g := by
  have he : (2 : ℝ) ^ e = 2 ^ (e - g).toNat * 2 ^ g := by
    rw [← zpow_natCast, ← zpow_add₀ two_ne_zero]
    congr 1
    omega
  cases neg <;> simp [finReal, finInt, he, mul_assoc]

/-- The sum of two finite values in terms of the integer it is over the smaller unit. -/
theorem addVal_fin (s t : Bool) (m n : Nat) (e f : Int) :
    addVal (.fin s m e) (.fin t n f) =
      if finInt s m e (min e f) + finInt t n f (min e f) = 0 then some (f32Pack (s && t) 0)
      else some (f32Round (decide (finInt s m e (min e f) + finInt t n f (min e f) < 0))
        (finInt s m e (min e f) + finInt t n f (min e f)).natAbs (min e f)) := rfl

/-- The sum of two finite values is exact over the smaller unit, then rounded once. -/
theorem addVal_roundsTo (s t : Bool) (m n : Nat) (e f : Int) :
    ∃ r, addVal (.fin s m e) (.fin t n f) = some r ∧ RoundsTo (finReal s m e + finReal t n f) r := by
  rw [finReal_eq_finInt (min_le_left e f), finReal_eq_finInt (min_le_right e f), ← add_mul, ← Int.cast_add, addVal_fin]
  split
  · next hz =>
    refine ⟨_, rfl, ?_⟩
    rw [hz, Int.cast_zero, zero_mul]
    exact f32Pack_zero_roundsTo _
  · exact ⟨_, rfl, f32Round_int _ _⟩

theorem f32Add_roundsTo {a b : F32} {x y : ℝ} (ha : IsValue a x) (hb : IsValue b y) : RoundsTo (x + y) (f32Add a b) := by
  obtain ⟨s, m, e, hav, rfl⟩ := isValue_iff.1 ha
  obtain ⟨t, n, f, hbv, rfl⟩ := isValue_iff.1 hb
  obtain ⟨r, hr, hround⟩ := addVal_roundsTo s t m n e f
  rw [f32Add, hav, hbv, hr]
  exact hround

theorem f32Sub_roundsTo {a b : F32} {x y : ℝ} (ha : IsValue a x) (hb : IsValue b y) : RoundsTo (x - y) (f32Sub a b) := by
  obtain ⟨s, m, e, hav, rfl⟩ := isValue_iff.1 ha
  obtain ⟨t, n, f, hbv, rfl⟩ := isValue_iff.1 hb
  obtain ⟨r, hr, hround⟩ := addVal_roundsTo s (!t) m n e f
  rw [f32Sub, hav, hbv, negVal, hr, sub_eq_add_neg, ← finReal_not]
  exact hround

theorem f32Mul_roundsTo {a b : F32} {x y : ℝ} (ha : IsValue a x) (hb : IsValue b y) : RoundsTo (x * y) (f32Mul a b) := by
  obtain ⟨s, m, e, hav, rfl⟩ := isValue_iff.1 ha
  obtain ⟨t, n, f, hbv, rfl⟩ := isValue_iff.1 hb
  rw [f32Mul, hav, hbv, finReal_mul]
  exact f32Round_finReal _ _ _

theorem f32OfInt_roundsTo (n : Int) : RoundsTo n (f32OfInt n) := by
  have h := f32Round_int n 0
  rwa [zpow_zero, mul_one] at h

/-! ## Quotients -/

/-- The quotient of nonzero significands, cut to an integer of at least 25 bits with a sticky bit below it, rounds as the exact one
does. -/
theorem f32Round_quotient (neg : Bool) {m n : Nat} (d : Int) (hm : m ≠ 0) (hn : n ≠ 0) (hn24 : n < 2 ^ 24) :
    RoundsTo ((if neg = true then -1 else 1) * ((m : ℝ) / n * (2 : ℝ) ^ d))
      (f32Round neg (2 * (m * 2 ^ 50 / n) + (if m * 2 ^ 50 % n = 0 then 0 else 1)) (d - 51)) := by
  have hn0 : (0 : ℝ) < n := Nat.cast_pos.2 (Nat.pos_of_ne_zero hn)
  have hQ : 2 ^ 24 ≤ m * 2 ^ 50 / n := by
    rw [Nat.le_div_iff_mul_le (Nat.pos_of_ne_zero hn)]
    have := Nat.pos_of_ne_zero hm
    omega
  have hmod : (n : ℝ) * (m * 2 ^ 50 / n : Nat) + (m * 2 ^ 50 % n : Nat) = m * 2 ^ 50 := by
    exact_mod_cast Nat.div_add_mod (m * 2 ^ 50) n
  have hlt : ((m * 2 ^ 50 % n : Nat) : ℝ) < n := by exact_mod_cast Nat.mod_lt _ (Nat.pos_of_ne_zero hn)
  have hu : (0 : ℝ) < (2 : ℝ) ^ (d - 51) := by positivity
  -- the exact quotient over the unit of the sticky bit
  have hx : (m : ℝ) / n * (2 : ℝ) ^ d = 2 * (m * 2 ^ 50) / n * (2 : ℝ) ^ (d - 51) := by
    rw [zpow_sub₀ two_ne_zero]
    norm_num
    ring
  rw [hx]
  generalize m * 2 ^ 50 / n = Q at *
  generalize m * 2 ^ 50 % n = R at *
  refine f32Round_sticky neg Q _ _ hQ ?_
  split
  · next hR =>
    subst hR
    refine .inl ⟨rfl, ?_⟩
    rw [← hmod]
    field_simp
    simp
  · next hR =>
    have hR0 : (0 : ℝ) < R := Nat.cast_pos.2 (Nat.pos_of_ne_zero hR)
    refine .inr ⟨rfl, mul_lt_mul_of_pos_right ?_ hu, mul_lt_mul_of_pos_right ?_ hu⟩
    · rw [lt_div_iff₀ hn0]; linarith
    · rw [div_lt_iff₀ hn0]; linarith

/-- The quotient of finite patterns by a nonzero one. -/
theorem f32Div_fin {a b : F32} {s t : Bool} {m n : Nat} {e f : Int} (ha : f32Val a = .fin s m e) (hb : f32Val b = .fin t n f)
    (hn : n ≠ 0) : f32Div a b =
      f32Round (s ^^ t) (2 * (m * 2 ^ 50 / n) + (if m * 2 ^ 50 % n = 0 then 0 else 1)) (e - f - 51) := by
  rw [f32Div, ha, hb, divVal, if_neg hn, Option.getD_some]

theorem f32Div_roundsTo {a b : F32} {x y : ℝ} (ha : IsValue a x) (hb : IsValue b y) (hy : y ≠ 0) :
    RoundsTo (x / y) (f32Div a b) := by
  obtain ⟨s, m, e, hav, rfl⟩ := isValue_iff.1 ha
  obtain ⟨t, n, f, hbv, rfl⟩ := isValue_iff.1 hb
  have hn : n ≠ 0 := mt finReal_eq_zero.2 hy
  rw [f32Div_fin hav hbv hn]
  by_cases hm : m = 0
  · subst hm
    simp only [finReal_zero, zero_div, zero_mul, Nat.zero_div, Nat.zero_mod, if_true, mul_zero, add_zero]
    exact f32Pack_zero_roundsTo (s ^^ t)
  · rw [finReal_div]
    exact f32Round_quotient _ _ hm hn (significand_lt hbv)

/-! ## Square roots -/

/-- The root of a radicand of 48 bits or more, cut to an integer with a sticky bit below it, rounds as the exact one does. -/
theorem f32Round_root {n r : Nat} (h : Int) (hlo : r * r ≤ n) (hhi : n < (r + 1) * (r + 1)) (hr : 2 ^ 24 ≤ r) :
    RoundsTo (Real.sqrt n * (2 : ℝ) ^ h) (f32Round false (2 * r + (if r * r = n then 0 else 1)) (h - 1)) := by
  have hu : (0 : ℝ) < (2 : ℝ) ^ (h - 1) := by positivity
  have hx : Real.sqrt n * (2 : ℝ) ^ h = 2 * Real.sqrt n * (2 : ℝ) ^ (h - 1) := by
    rw [zpow_sub_one₀ two_ne_zero]; ring
  have hround := f32Round_sticky false r (if r * r = n then 0 else 1) (h - 1) (x := Real.sqrt n * (2 : ℝ) ^ h) hr
  rw [if_neg Bool.false_ne_true, one_mul] at hround
  apply hround
  rw [hx]
  split
  · next hsq =>
    refine .inl ⟨rfl, ?_⟩
    rw [← hsq, Nat.cast_mul, Real.sqrt_mul_self (Nat.cast_nonneg r)]
  · next hsq =>
    have hlt : (r : ℝ) < Real.sqrt n := by
      rw [Real.lt_sqrt (Nat.cast_nonneg r), sq]
      exact_mod_cast lt_of_le_of_ne hlo hsq
    have hgt : Real.sqrt n < r + 1 := by
      rw [Real.sqrt_lt' (by positivity), sq]
      exact_mod_cast hhi
    exact .inr ⟨rfl, mul_lt_mul_of_pos_right (by linarith) hu, mul_lt_mul_of_pos_right (by linarith) hu⟩

/-- The root of a number, scaled to an even exponent. -/
theorem sqrt_scaled (m k : Nat) {e : Int} (hk : (e - k) % 2 = 0) :
    Real.sqrt (m * (2 : ℝ) ^ e) = Real.sqrt ((m * 2 ^ k : Nat) : ℝ) * (2 : ℝ) ^ ((e - k) / 2) := by
  have he : (m : ℝ) * (2 : ℝ) ^ e = ((m * 2 ^ k : Nat) : ℝ) * ((2 : ℝ) ^ ((e - k) / 2)) ^ 2 := by
    have : e = k + (e - k) / 2 * 2 := by omega
    conv_lhs => rw [this, zpow_add₀ two_ne_zero, zpow_mul, zpow_natCast]
    push_cast
    rw [← mul_assoc]
    norm_cast
  rw [he, Real.sqrt_mul (Nat.cast_nonneg _), Real.sqrt_sq (by positivity)]

/-- The bits `sqrtVal` scales the radicand by, 54 or 55, leave an even exponent. -/
theorem sqrt_scale (e : Int) : ∃ k : Nat, (if e % 2 = 0 then 54 else 55) = k ∧ (k = 54 ∨ k = 55) ∧ (e - k) % 2 = 0 := by
  split
  · exact ⟨54, rfl, .inl rfl, by omega⟩
  · exact ⟨55, rfl, .inr rfl, by omega⟩

/-- The root `isqrtFrom` finds of a scaled significand has at least 25 bits. -/
theorem isqrtFrom_scaled {m k : Nat} (hm : m ≠ 0) (hm24 : m < 2 ^ 24) (hk : k = 54 ∨ k = 55) :
    isqrtFrom 40 (m * 2 ^ k) 0 * isqrtFrom 40 (m * 2 ^ k) 0 ≤ m * 2 ^ k ∧
      m * 2 ^ k < (isqrtFrom 40 (m * 2 ^ k) 0 + 1) * (isqrtFrom 40 (m * 2 ^ k) 0 + 1) ∧
      2 ^ 24 ≤ isqrtFrom 40 (m * 2 ^ k) 0 := by
  have hpos := Nat.pos_of_ne_zero hm
  have hbounds : 2 ^ 54 ≤ m * 2 ^ k ∧ m * 2 ^ k < 2 ^ 80 := by
    rcases hk with rfl | rfl <;> omega
  obtain ⟨h1, h2⟩ := isqrtFrom_spec 40 (m * 2 ^ k) 0 (by omega) (by omega)
  refine ⟨h1, h2, ?_⟩
  generalize isqrtFrom 40 (m * 2 ^ k) 0 = r at *
  by_contra hr
  have : (r + 1) * (r + 1) ≤ 2 ^ 24 * 2 ^ 24 := Nat.mul_le_mul (by omega) (by omega)
  omega

theorem f32Sqrt_roundsTo {a : F32} {x : ℝ} (ha : IsValue a x) (hx : 0 ≤ x) : RoundsTo (Real.sqrt x) (f32Sqrt a) := by
  obtain ⟨s, m, e, hav, rfl⟩ := isValue_iff.1 ha
  by_cases hm : m = 0
  · subst hm
    rw [f32Sqrt, hav, finReal_zero, Real.sqrt_zero]
    exact f32Pack_zero_roundsTo s
  · obtain rfl : s = false := Bool.eq_false_iff.2 fun hs => by
      subst hs
      exact absurd hx (not_le.2 (finReal_true_neg hm))
    obtain ⟨k, hkeq, hk, hpar⟩ := sqrt_scale e
    obtain ⟨hlo, hhi, hr⟩ := isqrtFrom_scaled hm (significand_lt hav) hk
    have hfin : finReal false m e = m * (2 : ℝ) ^ e := by simp [finReal]
    rw [hfin, sqrt_scaled m k hpar]
    simp only [f32Sqrt, hav, sqrtVal, if_neg hm, hkeq]
    exact f32Round_root _ hlo hhi hr

end Sys2Proof.Machine

namespace Sys2Proof.Proofs

open Sys2Proof.Machine

/-- Settles O51: the exact sum, difference, product or integer is rounded by one `f32Round`. -/
theorem sumsAndProductsRoundOnce : Obligations.SumsAndProductsRoundOnce :=
  ⟨fun _ _ _ _ ha hb => ⟨f32Add_roundsTo ha hb, f32Sub_roundsTo ha hb, f32Mul_roundsTo ha hb⟩, f32OfInt_roundsTo⟩

/-- Settles O52: quotient and root are cut with a sticky bit, which does not change the rounding. -/
theorem quotientsAndRootsRoundOnce : Obligations.QuotientsAndRootsRoundOnce :=
  ⟨fun _ _ _ _ ha hb hy => f32Div_roundsTo ha hb hy, fun _ _ ha hx => f32Sqrt_roundsTo ha hx⟩

end Sys2Proof.Proofs
end

section
/-! PROOFS. What an access of the host, a command and a step can do, said once each (10_state.md R34, R36; 20_memory.md R84, R85). -/

namespace Sys2Proof.Machine

variable {s t u : State}

/-! ## Commands -/

/-- The two ends of a command whose work so far has left the state `u`: the normal one, or an error of a kind that rules raise (10_state.md
R36, 60_exceptions.md R314). -/
inductive Ends (u : State) : State → Prop
  | done (r0 r1 : Word) : Ends u (u.finish r0 r1)
  | error {k : ErrKind} (info : Word) (hk : k ≠ .transportError) : Ends u (u.raiseError k info)

namespace Ends

/-! The end of a command writes only the flags, the error registers and the results. -/

theorem config (h : Ends u t) : t.config = u.config := by cases h <;> rfl
theorem cmd (h : Ends u t) : t.cmd = u.cmd := by cases h <;> rfl
theorem calset (h : Ends u t) : t.calset = u.calset := by cases h <;> rfl
theorem seen (h : Ends u t) : t.seen = u.seen := by cases h <;> rfl
theorem lastAp (h : Ends u t) : t.lastAp = u.lastAp := by cases h <;> rfl
theorem corrCnt (h : Ends u t) : t.corrCnt = u.corrCnt := by cases h <;> rfl

end Ends

/-- What each command can do: the work that comes before its end, and the end (10_state.md R36, R40, R46, R53, R62). -/
inductive Ran (s : State) : Instr → State → Prop
  /-- No work: SYS.NOP, ECC.ENC, GEO.CONST, GEO.RESCORR, and the ends of CVT.SUBPAGE before the conversion. -/
  | kept {i : Instr} {t : State} (hi : i ≠ .sysReset) (ht : Ends s t) : Ran s i t
  /-- ECC.DEC counts the word if it corrects it. -/
  | counted {tag : Half} {t : State} {n : Half} (hn : n.toNat ≤ 1) (ht : Ends (s.setCorrCnt n) t) : Ran s (.eccDec tag) t
  /-- CAL.LOAD that ends with an error. -/
  | loadFailed {k : ErrKind} (n : Half) (f : Bool) (info : Word) (hn : n.toNat ≤ s.cfg.calWords) (hk : k ≠ .transportError) :
      Ran s .calLoad (((s.setCorrCnt n).setFallback f).raiseError k info)
  /-- CAL.LOAD that stores a CalibrationSet. -/
  | loaded {c : CalSet} (n : Half) (f : Bool) (r0 r1 : Word) (hfree : s.calset = none) (hn : n.toNat ≤ s.cfg.calWords)
      (hc : c.wf s.cfg) : Ran s .calLoad ((((s.setCorrCnt n).setFallback f).setCalset c).finish r0 r1)
  /-- GEO.MEMBER and GEO.RANGES write GEOMEM words that fit it. -/
  | listed {i : Instr} {ws : List Half} (r0 r1 : Word) (hi : ∃ sp ap, i = .geoMember sp ap ∨ i = .geoRanges sp ap)
      (hws : ws.length ≤ spaceSize s.cfg .geoMem) : Ran s i ((s.setGeo (writeCells s.mem.geo 0 ws)).finish r0 r1)
  /-- CVT.SUBPAGE that converts a frame. -/
  | converted {ap : AccessPattern} {res : BitVec 2} {out : List (Nat × Word)} {seen : BitVec 2} (r0 r1 : Word)
      (hout : cellsWf (spaceSize s.cfg .outMem) s.mem.out → cellsWf (spaceSize s.cfg .outMem) out)
      (hseen : s.seen.toNat + 1 < 2 ^ s.cfg.nsub s.lastAp → seen.toNat + 1 < 2 ^ s.cfg.nsub ap) :
      Ran s (.cvtSubpage ap res) (((s.setOut out).setTrack seen ap).finish r0 r1)
  /-- SYS.RESET. -/
  | cleared : Ran s .sysReset (s.clearAll.finish 0 0)

theorem execEccDec_ran {tag : Half} (h : execEccDec tag s = .next t) : Ran s (.eccDec tag) t := by
  rcases execEccDec_cases h with ⟨S, -, rfl⟩ | ⟨p, corrected, pos, S, -, rfl⟩
  · exact .counted (n := 0) (by decide) (.error _ (by decide))
  · exact .counted (n := if corrected then 1 else 0) (by split <;> decide) (.done _ _)

theorem execGeoConst_ran {idx : Half} {ap : AccessPattern} (h : execGeoConst idx ap s = .next t) :
    Ran s (.geoConst idx ap) t := by
  rcases execGeoConst_cases h with ⟨v, -, rfl⟩ | ⟨-, rfl⟩
  · exact .kept (by simp) (.done _ _)
  · exact .kept (by simp) (.error _ (by decide))

/-- The count stored in 16 bits is not above the number of words. -/
theorem toNat_ofNat_le {w n m : Nat} (h : n ≤ m) : (BitVec.ofNat w n).toNat ≤ m := by
  rw [BitVec.toNat_ofNat]
  exact (Nat.mod_le _ _).trans h

theorem calCommit_ran (f : Bool) {P : List Payload} {n : Nat} (hfree : s.calset = none) (hn : n ≤ s.cfg.calWords) :
    Ran s .calLoad (calCommit ((s.setCorrCnt 0).setFallback f) P n) := by
  rcases calCommit_cases ((s.setCorrCnt 0).setFallback f) P n with ⟨sub, k, -, e⟩ | ⟨hv, e⟩
  · rw [e]
    exact .loadFailed (BitVec.ofNat 16 n) f _ (toNat_ofNat_le hn) (by decide)
  · rw [e]
    exact .loaded (BitVec.ofNat 16 n) f _ _ hfree (toNat_ofNat_le hn) (slice_wf hv)

theorem execCalLoad_ran (h : execCalLoad s = .next t) : Ran s .calLoad t := by
  have failed : ∀ (k : ErrKind) (f : Bool) (info : Word), k ≠ .transportError →
      Ran s .calLoad (((s.setCorrCnt 0).setFallback f).raiseError k info) :=
    fun k f info => .loadFailed 0 f info (Nat.zero_le _)
  rcases execCalLoad_cases h with ⟨-, rfl⟩ | ⟨-, -, rfl⟩ | ⟨hfree, -, W, hW, rfl⟩
  · exact failed _ _ _ (by decide)
  · exact failed _ _ _ (by decide)
  · have count : ∀ {V : List Half} {P n}, V.length = W.length → eccpass V = .ok P n → n ≤ s.cfg.calWords :=
      fun hl hp => hW.len ▸ hl ▸ eccpass_count hp
    rcases calDecode_cases ((s.setCorrCnt 0).setFallback false) W with
      ⟨P, n, hp, e⟩ | ⟨i, w, S, -, -, e⟩ | ⟨i, w, S, -, -, ⟨P, n, hp, e⟩ | ⟨j, v, S', -, e⟩⟩
    · rw [e]; exact calCommit_ran false hfree (count rfl hp)
    · rw [e]; exact failed .checksumError false _ (by decide)
    · rw [e]; exact calCommit_ran true hfree (count (by simp [synthesized]) hp)
    · rw [e]; exact failed .checksumError true _ (by decide)

theorem execCvtSubpage_ran {ap : AccessPattern} {res : BitVec 2} (h : execCvtSubpage ap res s = .next t) :
    Ran s (.cvtSubpage ap res) t := by
  have kept : ∀ {t}, Ends s t → Ran s (.cvtSubpage ap res) t := .kept (by simp)
  rcases execCvtSubpage_cases h with ⟨-, rfl⟩ | ⟨c, -, ⟨-, rfl⟩ | ⟨-, st, -,
    ⟨-, rfl⟩ | ⟨-, -, rfl⟩ | ⟨-, -, -, rfl⟩ | ⟨hsp, -, -, hframe⟩⟩⟩
  · exact kept (.error _ (by decide))
  · exact kept (.error _ (by decide))
  · exact kept (.error _ (by decide))
  · exact kept (.done _ _)
  · exact kept (.error _ (by decide))
  · obtain ⟨x, out, -, hout, rfl⟩ := convertFrame_cases hframe
    exact .converted _ _ (fun hw => cellsWf_convertPixels (fun p => members_lt) hw hout)
      (fun ho => track_open s.config.ok ho hsp)

/-- What a command that answers a next state has done. -/
theorem exec_ran {i : Instr} (h : exec i s = .next t) : Ran s i t := by
  cases i with
  | eccDec tag => exact execEccDec_ran h
  | geoConst idx ap => exact execGeoConst_ran h
  | calLoad => exact execCalLoad_ran h
  | cvtSubpage ap res => exact execCvtSubpage_ran h
  | geoMember sp ap => cases h; exact .listed _ _ ⟨sp, ap, .inl rfl⟩ memberWords_fit
  | geoRanges sp ap => cases h; exact .listed _ _ ⟨sp, ap, .inr rfl⟩ spanWords_fit
  | sysReset => cases h; exact .cleared
  | sysNop | eccEnc | geoRescorr => cases h; exact .kept (by simp) (.done _ _)

/-! ## The write of CMD -/

/-- A command value runs its command, or raises IllegalCommand (30_encoding.md R104). -/
theorem runCommand_cases {w : Word} (h : runCommand w s = .next t) :
    (∃ i, decode w = .ok i ∧ Ran (s.startCommand w) i t) ∨
    (∃ e, decode w = .error e ∧ t = (s.startCommand w).raiseError .illegalCommand (infoIllegal w)) := by
  unfold runCommand at h
  split at h
  · next i hd => exact .inl ⟨i, hd, exec_ran h⟩
  · next e hd => cases h; exact .inr ⟨e, hd, rfl⟩

/-- A write of CMD while `BUSY = 1` is ignored (10_state.md R36). -/
theorem perform_writeCmd_busy {w : Word} (hb : s.busy = true) : perform (.writeCsr 0 w) s = .next s := by
  simp [perform, hostWriteCsr, hb]

theorem perform_writeCmd {w : Word} (hb : s.busy = false) : perform (.writeCsr 0 w) s = runCommand w s := by
  simp [perform, hostWriteCsr, hb]

/-- A write of CMD with a command's word runs the command on the started state (10_state.md R36). -/
theorem perform_writeCmd_ok {w : Word} {i : Instr} (hb : s.busy = false) (hd : decode w = .ok i) :
    perform (.writeCsr 0 w) s = exec i (s.startCommand w) := by
  simp [perform_writeCmd hb, runCommand, hd]

theorem perform_writeCsr_other {n : Nat} {v : Word} (hn : 3 ≤ n) : perform (.writeCsr n v) s = .next s := by
  obtain ⟨k, rfl⟩ : ∃ k, n = k + 3 := ⟨n - 3, by omega⟩
  rfl

/-! ## The accesses of the host -/

/-- What an access of the host that starts no command and is no reset can change: an operand, a cell the host writes, or the answer
(10_state.md R34; 20_memory.md R71, R72, R81). -/
inductive Accessed (s : State) : State → Prop
  | ignored : Accessed s s
  | arg0 (v : Word) : Accessed s { s with arg0 := v }
  | arg1 (v : Word) : Accessed s { s with arg1 := v }
  | answered (r : Reply) : Accessed s (s.answer r)
  | cal {i : Nat} (b : Byte) (hi : i < spaceSize s.cfg .calMem) : Accessed s (s.setCal (writeCell s.mem.cal i b))
  | raw {i : Nat} (h : Half) (hi : i < spaceSize s.cfg .rawMem) : Accessed s (s.setRaw (writeCell s.mem.raw i h))

theorem hostWriteCsr_cases {n : Nat} {v : Word} (h : hostWriteCsr n v s = .next t) :
    (n = 0 ∧ s.busy = false ∧ runCommand v s = .next t) ∨ Accessed s t := by
  unfold hostWriteCsr at h
  split at h
  · split at h
    · cases h; exact .inr .ignored
    · next hb => exact .inl ⟨rfl, by simpa using hb, h⟩
  · cases h; exact .inr (.arg0 v)
  · cases h; exact .inr (.arg1 v)
  · cases h; exact .inr .ignored

theorem hostReadFlag_accessed {i : Nat} (h : hostReadFlag i s = .next t) : Accessed s t := by
  unfold hostReadFlag at h
  split at h
  · split at h
    · cases h; exact .answered _
    · cases h; exact .answered _
  · cases h

/-- A guarded access that answers has passed its guard. -/
theorem of_guard_next {c : Prop} [Decidable c] {f : Fault}
    (h : (if c then (.next u : Host.Outcome State Fault Refusal) else .fault f) = .next t) : c ∧ u = t := by
  split at h
  · next hc => cases h; exact ⟨hc, rfl⟩
  · cases h

/-- What an access that answers a next state has done. -/
theorem perform_cases {a : HostAction} (h : perform a s = .next t) :
    (∃ w, a = .writeCsr 0 w ∧ s.busy = false ∧ runCommand w s = .next t) ∨
    (a = .hardReset ∧ t = s.hardReset) ∨ Accessed s t := by
  cases a with
  | writeCsr n v =>
    rcases hostWriteCsr_cases h with ⟨rfl, hb, hr⟩ | ha
    · exact .inl ⟨v, rfl, hb, hr⟩
    · exact .inr (.inr ha)
  | hardReset => cases h; exact .inr (.inl ⟨rfl, rfl⟩)
  | readCsr n => cases h; exact .inr (.inr (.answered _))
  | readFlag i => exact .inr (.inr (hostReadFlag_accessed h))
  | writeCal i b => obtain ⟨hi, rfl⟩ := of_guard_next h; exact .inr (.inr (.cal b hi))
  | writeRaw i x => obtain ⟨hi, rfl⟩ := of_guard_next h; exact .inr (.inr (.raw x hi))
  | readOut i => obtain ⟨-, rfl⟩ := of_guard_next h; exact .inr (.inr (.answered _))
  | readGeo i => obtain ⟨-, rfl⟩ := of_guard_next h; exact .inr (.inr (.answered _))

/-! ## Steps -/

/-- An access that is not held takes effect on the state without it in the inbox (20_memory.md R85, R87). -/
theorem step_of_inbox {a : HostAction} {rest : List HostAction} (hb : s.busy = false) (hin : s.inbox = a :: rest) :
    step s = perform a { s with inbox := rest } := by
  simp [step, takeInput, hin, hb]

theorem step_idle (hin : s.inbox = []) : step s = .next s := by
  simp [step, takeInput, hin]

/-- What a step that answers a next state has done: nothing, or the next access. -/
theorem step_cases (h : step s = .next t) :
    t = s ∨ ∃ a rest, s.inbox = a :: rest ∧ perform a { s with inbox := rest } = .next t := by
  unfold step takeInput at h
  split at h
  · cases h; exact .inl rfl
  · next a rest hin =>
    split at h
    · cases h; exact .inl rfl
    · exact .inr ⟨a, rest, hin, h⟩

end Sys2Proof.Machine
end

section
/-! PROOFS. Every step keeps the invariant (10_state.md R36, R38, R50; 43_convert.md R288; 60_exceptions.md R311, R314, R318): O59. -/

namespace Sys2Proof.Machine

variable {s t u : State}

/-- The part of the invariant that speaks of what a command works on, and so holds inside a command too: the buffers, the
CalibrationSet, the tracking and the count. -/
structure DataInv (s : State) : Prop where
  memWf : s.mem.wf s.cfg
  calWf : ∀ c, s.calset = some c → c.wf s.cfg
  seenOpen : s.seen.toNat + 1 < 2 ^ s.cfg.nsub s.lastAp
  corrMax : s.corrCnt.toNat ≤ s.cfg.calWords

theorem Inv.data (h : Inv s) : DataInv s := ⟨h.memWf, h.calWf, h.seenOpen, h.corrMax⟩

/-! Each write a command can make keeps it. -/

theorem DataInv.startCommand (h : DataInv s) (w : Word) : DataInv (s.startCommand w) :=
  ⟨h.memWf, h.calWf, h.seenOpen, h.corrMax⟩

theorem DataInv.setCorrCnt {n : Half} (h : DataInv s) (hn : n.toNat ≤ s.cfg.calWords) : DataInv (s.setCorrCnt n) :=
  ⟨h.memWf, h.calWf, h.seenOpen, hn⟩

theorem DataInv.setFallback (h : DataInv s) (f : Bool) : DataInv (s.setFallback f) :=
  ⟨h.memWf, h.calWf, h.seenOpen, h.corrMax⟩

theorem DataInv.setCalset {c : CalSet} (h : DataInv s) (hc : c.wf s.cfg) : DataInv (s.setCalset c) :=
  ⟨h.memWf, fun d hd => by cases hd; exact hc, h.seenOpen, h.corrMax⟩

theorem DataInv.setGeo {ws : List Half} (h : DataInv s) (hws : ws.length ≤ spaceSize s.cfg .geoMem) :
    DataInv (s.setGeo (writeCells s.mem.geo 0 ws)) :=
  ⟨wf_writeGeo ws h.memWf hws, h.calWf, h.seenOpen, h.corrMax⟩

theorem DataInv.setOut {out : List (Nat × Word)} (h : DataInv s) (hout : cellsWf (spaceSize s.cfg .outMem) out) :
    DataInv (s.setOut out) := by
  obtain ⟨hcal, hraw, -, hgeo⟩ := h.memWf
  exact ⟨⟨hcal, hraw, hout, hgeo⟩, h.calWf, h.seenOpen, h.corrMax⟩

theorem DataInv.setTrack {seen : BitVec 2} {ap : AccessPattern} (h : DataInv s)
    (ho : seen.toNat + 1 < 2 ^ s.cfg.nsub ap) : DataInv (s.setTrack seen ap) :=
  ⟨h.memWf, h.calWf, ho, h.corrMax⟩

theorem DataInv.clearAll (h : DataInv s) : DataInv s.clearAll :=
  ⟨h.memWf, fun _ hc => (nomatch hc), (inv_resetOf s.config).seenOpen, Nat.zero_le _⟩

/-! The end of a command makes it the whole invariant. -/

theorem inv_finish (hu : DataInv u) (hcode : u.errCode = 0) (hinfo : u.errInfo = 0) (r0 r1 : Word) : Inv (u.finish r0 r1) where
  memWf := hu.memWf
  idle := rfl
  calWf := hu.calWf
  seenOpen := hu.seenOpen
  corrMax := hu.corrMax
  oneEnd := by simp
  codeErr := by simp [hcode]
  codeRange := by simp [hcode]
  infoErr := fun _ => hinfo
  errResults := by simp

/-- The codes of the kinds that rules raise (60_exceptions.md R311, R314). -/
theorem code_range {k : ErrKind} (hk : k ≠ .transportError) : k.code ≠ 0 ∧ k.code.toNat ≤ 8 ∧ k.code ≠ 1 := by
  cases k with
  | transportError => exact absurd rfl hk
  | invalidData | checksumError | configurationError | statusError | noCalibration | calLocked | illegalCommand => decide

theorem inv_raiseError {k : ErrKind} (hu : DataInv u) (hk : k ≠ .transportError) (info : Word) :
    Inv (u.raiseError k info) where
  memWf := hu.memWf
  idle := rfl
  calWf := hu.calWf
  seenOpen := hu.seenOpen
  corrMax := hu.corrMax
  oneEnd := by simp
  codeErr := iff_of_true rfl (code_range hk).1
  codeRange := (code_range hk).2
  infoErr := by simp
  errResults := by simp

theorem Ends.inv (hu : DataInv u) (hcode : u.errCode = 0) (hinfo : u.errInfo = 0) (h : Ends u t) : Inv t := by
  cases h with
  | done r0 r1 => exact inv_finish hu hcode hinfo r0 r1
  | error info hk => exact inv_raiseError hu hk info

/-- A command that starts with a clear error state ends in a state that meets the invariant. -/
theorem Ran.inv {i : Instr} (hs : DataInv s) (hcode : s.errCode = 0) (hinfo : s.errInfo = 0) (h : Ran s i t) : Inv t := by
  cases h with
  | kept _ ht => exact ht.inv hs hcode hinfo
  | counted hn ht =>
    have hw := (config_relations s).2.1
    exact ht.inv (hs.setCorrCnt (hn.trans (by omega))) hcode hinfo
  | loadFailed n f info hn hk => exact inv_raiseError ((hs.setCorrCnt hn).setFallback f) hk info
  | loaded n f r0 r1 _ hn hc =>
    exact inv_finish (((hs.setCorrCnt hn).setFallback f).setCalset hc) hcode hinfo r0 r1
  | listed r0 r1 _ hws => exact inv_finish (hs.setGeo hws) hcode hinfo r0 r1
  | converted r0 r1 hout hseen =>
    obtain ⟨-, -, hwf, -⟩ := hs.memWf
    exact inv_finish ((hs.setOut (hout hwf)).setTrack (hseen hs.seenOpen)) hcode hinfo r0 r1
  | cleared => exact inv_finish hs.clearAll rfl rfl 0 0

theorem runCommand_inv {w : Word} (hs : Inv s) (h : runCommand w s = .next t) : Inv t := by
  rcases runCommand_cases h with ⟨i, -, hr⟩ | ⟨e, -, rfl⟩
  · exact hr.inv (hs.data.startCommand w) rfl rfl
  · exact inv_raiseError (hs.data.startCommand w) (by decide) _

theorem Accessed.inv (hs : Inv s) (h : Accessed s t) : Inv t := by
  cases h with
  | ignored => exact hs
  | arg0 v => exact { hs with }
  | arg1 v => exact { hs with }
  | answered r => exact { hs with }
  | cal b hi => exact { hs with memWf := wf_writeCal b hs.memWf hi }
  | raw x hi => exact { hs with memWf := wf_writeRaw x hs.memWf hi }

theorem hardReset_inv (s : State) : Inv s.hardReset := { inv_resetOf s.config with }

/-- The accesses still to be made are no part of it. -/
theorem Inv.withInbox (hs : Inv s) (rest : List HostAction) : Inv { s with inbox := rest } := { hs with }

theorem perform_inv {a : HostAction} (hs : Inv s) (h : perform a s = .next t) : Inv t := by
  rcases perform_cases h with ⟨w, -, -, hr⟩ | ⟨-, rfl⟩ | ha
  · exact runCommand_inv hs hr
  · exact hardReset_inv s
  · exact ha.inv hs

end Sys2Proof.Machine

namespace Sys2Proof.Proofs

open Sys2Proof.Machine

/-- Settles O59: a step does nothing or one access, and an access resets, touches one operand, cell or answer, or runs a command, which
does its work and then finishes or raises an error. -/
theorem everyStepKeepsTheInvariant : Obligations.EveryStepKeepsTheInvariant := by
  intro s t hs h
  rcases step_cases h with rfl | ⟨a, rest, -, ha⟩
  · exact hs
  · exact perform_inv (hs.withInbox rest) ha

end Sys2Proof.Proofs
end

section
/-! PROOFS. The CSR file and the life cycle of a command (10_state.md R34 to R37, R60; 60_exceptions.md R333): O5, O6, O7, O8, O9 and O57. -/

namespace Sys2Proof.Machine

variable {s t u : State}

/-! ## The end of a command and CMD -/

/-- A command is over and its error registers are right: done and clear, or an error (10_state.md R36). -/
def Ended (t : State) : Prop :=
  t.busy = false ∧ ((t.done = true ∧ t.err = false ∧ t.errCode = 0 ∧ t.errInfo = 0) ∨ (t.done = false ∧ t.err = true))

theorem ended_raiseError (k : ErrKind) (info : Word) : Ended (u.raiseError k info) := ⟨rfl, .inr ⟨rfl, rfl⟩⟩

theorem Ends.ended (h : Ends u t) (hcode : u.errCode = 0) (hinfo : u.errInfo = 0) : Ended t := by
  cases h with
  | done r0 r1 => exact ⟨rfl, .inl ⟨rfl, rfl, hcode, hinfo⟩⟩
  | error info hk => exact ended_raiseError _ info

theorem Ran.ended {i : Instr} (h : Ran s i t) (hcode : s.errCode = 0) (hinfo : s.errInfo = 0) : Ended t := by
  cases h with
  | kept _ ht => exact ht.ended hcode hinfo
  | counted _ ht => exact ht.ended hcode hinfo
  | loadFailed n f info => exact ended_raiseError _ info
  | loaded | listed | converted => exact ⟨rfl, .inl ⟨rfl, rfl, hcode, hinfo⟩⟩
  | cleared => exact ⟨rfl, .inl ⟨rfl, rfl, rfl, rfl⟩⟩

theorem runCommand_ended {w : Word} (h : runCommand w s = .next t) : Ended t := by
  rcases runCommand_cases h with ⟨i, -, hr⟩ | ⟨e, -, rfl⟩
  · exact hr.ended rfl rfl
  · exact ended_raiseError _ _

/-- A command keeps CMD, but for SYS.RESET (10_state.md R37, R62). -/
theorem Ran.cmd {i : Instr} (h : Ran s i t) : t.cmd = if i = .sysReset then 0x0000007F#32 else s.cmd := by
  cases h with
  | kept hi ht => rw [if_neg hi, ht.cmd]
  | counted _ ht => rw [if_neg nofun, ht.cmd, State.setCorrCnt_cmd]
  | loadFailed | loaded | converted => rw [if_neg nofun]; rfl
  | listed r0 r1 hi hws =>
    rw [if_neg (by rcases hi with ⟨sp, ap, rfl | rfl⟩ <;> nofun)]
    rfl
  | cleared => rfl

theorem runCommand_cmd {w : Word} (h : runCommand w s = .next t) :
    t.cmd = if decode w = .ok .sysReset then 0x0000007F#32 else w := by
  rcases runCommand_cases h with ⟨i, hd, hr⟩ | ⟨e, hd, rfl⟩
  · simp [hr.cmd, hd]
  · simp [hd]

theorem Accessed.cmd (h : Accessed s t) : t.cmd = s.cmd := by
  cases h with
  | ignored | arg0 | arg1 | answered | cal | raw => rfl

/-! ## What the CSRs read -/

/-- A CSR number is one of the table, or reads 0 (10_state.md R34). -/
theorem csrRead_beyond (s : State) {n : Nat} (hn : 10 ≤ n) : s.csrRead n = 0 := by
  obtain ⟨k, rfl⟩ : ∃ k, n = k + 10 := ⟨n - 10, by omega⟩
  rfl

/-- The bits of `STATUS` from bit 0 up, those left out reading 0 (10_state.md R35). -/
def State.statusBits (s : State) : List Bool :=
  [s.busy, s.done, s.err, s.calValid, s.corrected, s.fallback, s.seen.getLsbD 0, s.seen.getLsbD 1,
    (apBit s.lastAp).getLsbD 0, s.errSticky]

theorem getLsbD_apBit (ap : AccessPattern) : (apBit ap).getLsbD 0 = decide (ap = .chess) := by cases ap <;> rfl

theorem getLsbD_statusWord (s : State) (i : Nat) : s.statusWord.getLsbD i = s.statusBits.getD i false := by
  show BitVec.getLsbD (w := 22 + 1 + 1 + 2 + 1 + 1 + 1 + 1 + 1 + 1) (_ ++ _) i = _
  simp only [BitVec.getLsbD_append, BitVec.getLsbD_ofBool]
  by_cases hi : i < 10
  · interval_cases i <;> rfl
  · obtain ⟨k, rfl⟩ : ∃ k, i = k + 10 := ⟨i - 10, by omega⟩
    simp [State.statusBits]

theorem statusWord_seen (s : State) : s.statusWord.extractLsb' 6 2 = s.seen := by
  ext i hi
  rw [BitVec.getElem_extractLsb', getLsbD_statusWord]
  interval_cases i <;> rfl

theorem statusWord_reserved (s : State) : s.statusWord.extractLsb' 10 22 = 0 := by
  ext i hi
  simp [BitVec.getElem_extractLsb', getLsbD_statusWord, State.statusBits]

/-- Nothing `STATUS` shows depends on the record, so one record's reset state tells it of all. -/
theorem statusWord_resetOf (c : CheckedCfg) : (State.resetOf c).statusWord = 0 :=
  (by decide : (State.resetOf CheckedCfg.VA).statusWord = 0)

theorem csrRead_resetOf (c : CheckedCfg) :
    ∀ n, (State.resetOf c).csrRead n = if n = 8 then BitVec.ofNat 32 c.record.variant.val else 0
  | 3 => statusWord_resetOf c
  | 0 | 1 | 2 | 4 | 5 | 6 | 7 | 8 | 9 => rfl
  | n + 10 => by rw [csrRead_beyond _ (Nat.le_add_left 10 n), if_neg (by omega)]

/-- A narrow register reads zero-extended (10_state.md R34). -/
theorem setWidth_eq_zero_append {k n : Nat} (x : BitVec n) : x.setWidth (k + n) = 0#k ++ x := by
  apply BitVec.eq_of_toNat_eq
  rw [BitVec.toNat_setWidth_of_le (by omega)]
  simp

end Sys2Proof.Machine

namespace Sys2Proof.Proofs

open Sys2Proof.Machine

/-- Settles O6: a command that runs ends by `finish` or by `raiseError`, each of which clears BUSY and sets one of DONE and ERR. -/
theorem commandLifeCycle : Obligations.CommandLifeCycle := by
  refine ⟨fun s w => perform_writeCmd_busy, fun s w i => perform_writeCmd_ok, fun s w t hb h => ?_⟩
  rw [perform_writeCmd hb] at h
  exact runCommand_ended h

/-- Settles O7: a started command has its word in CMD, which only SYS.RESET and the hardware reset write again. -/
theorem cmdReadsBack : Obligations.CmdReadsBack := by
  refine ⟨fun s w t h => ?_, fun s a t h hw hr => ?_, fun s t h => ?_, fun s => rfl⟩
  · cases hb : s.busy with
    | true => rw [perform_writeCmd_busy hb] at h; cases h; rfl
    | false => rw [perform_writeCmd hb] at h; exact runCommand_cmd h
  · rcases perform_cases h with ⟨w, rfl, -, -⟩ | ⟨rfl, -⟩ | ha
    · exact absurd rfl (hw w)
    · exact absurd rfl hr
    · exact ha.cmd
  · cases h; rfl

/-- Settles O5: the write of CMD at the head of the inbox is performed, and starts the decoded command. -/
theorem stepRunsDecodedCommand : Obligations.StepRunsDecodedCommand := by
  refine ⟨fun s w i rest hb hin hd => ?_, fun s nbits w i hd => ?_, fun s => step_idle⟩
  · rw [step_of_inbox hb hin]
    exact perform_writeCmd_ok hb hd
  · have hd' : decode (BitVec.ofNat 32 (w % 2 ^ nbits)) = .ok i := by
      unfold decodeTableWord at hd
      split at hd
      · next j hj => cases hd; exact hj
      · cases hd
    exact perform_writeCmd_ok (s := { s with busy := false }) rfl hd'

/-- Settles O8: the register table is `csrRead`, and the writes are those of `CMD` and the two operands. -/
theorem csrFile : Obligations.CsrFile := by
  refine ⟨fun s n => rfl, fun s => ?_, fun s n => csrRead_beyond s, fun s w i => perform_writeCmd_ok, fun s v => rfl,
    fun s v => rfl, fun s n v => perform_writeCsr_other, csrRead_resetOf⟩
  exact ⟨rfl, rfl, rfl, rfl, setWidth_eq_zero_append s.errCode, rfl, rfl, rfl, rfl, setWidth_eq_zero_append s.corrCnt⟩

/-- Settles O9: by the bits of the status word. -/
theorem statusWordLayout : Obligations.StatusWordLayout := by
  intro s
  refine ⟨?_, ?_, ?_, ?_, ?_, ?_, statusWord_seen s, ?chess, ?_, statusWord_reserved s, statusWord_resetOf⟩
  case chess => exact (getLsbD_statusWord s 8).trans (getLsbD_apBit s.lastAp)
  all_goals exact getLsbD_statusWord s _

/-- Settles O57: the reset state reads as the table's reset column, and the hardware reset leads to it. -/
theorem resetLeavesTheResetState : Obligations.ResetLeavesTheResetState :=
  ⟨fun c => ⟨csrRead_resetOf c, rfl, rfl, rfl, fun _ => ⟨rfl, rfl, rfl, rfl⟩⟩, fun _ => rfl, rfl⟩

end Sys2Proof.Proofs
end

section
/-! PROOFS. Who writes CALSET, the tracking fields and the record, over every step (10_state.md R39, R46, R53): O11, O12 and O13. -/

namespace Sys2Proof.Machine

variable {s t u : State}

open Sys2Proof.Claims

/-! ## The fields over a command -/

theorem Ran.config {i : Instr} (h : Ran s i t) : t.config = s.config := by
  cases h with
  | kept _ ht => exact ht.config
  | counted _ ht => exact ht.config
  | loadFailed | loaded | listed | converted | cleared => rfl

/-- CALSET is written by a CAL.LOAD that completes and by SYS.RESET (10_state.md R46). -/
theorem Ran.calset {i : Instr} (h : Ran s i t) : t.calset = s.calset ∨
    (i = .calLoad ∧ s.calset = none ∧ t.done = true ∧ t.err = false) ∨ (i = .sysReset ∧ t.calset = none) := by
  cases h with
  | kept _ ht => exact .inl ht.calset
  | counted _ ht => exact .inl ht.calset
  | loadFailed | listed | converted => exact .inl rfl
  | loaded n f r0 r1 hfree => exact .inr (.inl ⟨rfl, hfree, rfl, rfl⟩)
  | cleared => exact .inr (.inr ⟨rfl, rfl⟩)

/-- SEEN and LAST_AP are written by CVT.SUBPAGE and SYS.RESET (10_state.md R53). -/
theorem Ran.track {i : Instr} (h : Ran s i t) : (t.seen = s.seen ∧ t.lastAp = s.lastAp) ∨
    (∃ ap res, i = .cvtSubpage ap res) ∨ i = .sysReset := by
  cases h with
  | kept _ ht => exact .inl ⟨ht.seen, ht.lastAp⟩
  | counted _ ht => exact .inl ⟨ht.seen, ht.lastAp⟩
  | loadFailed | loaded | listed => exact .inl ⟨rfl, rfl⟩
  | converted => exact .inr (.inl ⟨_, _, rfl⟩)
  | cleared => exact .inr (.inr rfl)

/-- CAL.LOAD while CALSET is present is refused (41_calibration.md R162). -/
theorem calLoad_locked {c : CalSet} (hc : s.calset = some c) :
    exec .calLoad s = .next (((s.setCorrCnt 0).setFallback false).raiseError .calLocked 0) := by
  simp [exec, execCalLoad, hc]

/-! ## The fields over a step -/

/-- Neither the record, nor CALSET, nor the tracking fields have changed. -/
structure Quiet (s t : State) : Prop where
  config : t.config = s.config
  calset : t.calset = s.calset
  seen : t.seen = s.seen
  lastAp : t.lastAp = s.lastAp

theorem Accessed.quiet (h : Accessed s t) : Quiet s t := by
  cases h with
  | ignored | arg0 | arg1 | answered | cal | raw => exact ⟨rfl, rfl, rfl, rfl⟩

/-- A step leaves those fields as they are, or is the hardware reset, or runs a command on a state where they are as they were. -/
theorem step_quiet_or (h : step s = .next t) :
    Quiet s t ∨
    (resetsNext s ∧ t.config = s.config ∧ t.calset = none) ∨
    ∃ i u, startsNext s i ∧ Quiet s u ∧ Ran u i t := by
  rcases step_cases h with rfl | ⟨a, rest, hin, ha⟩
  · exact .inl ⟨rfl, rfl, rfl, rfl⟩
  · rcases perform_cases ha with ⟨w, rfl, -, hw⟩ | ⟨rfl, rfl⟩ | hacc
    · rcases runCommand_cases hw with ⟨i, hd, hr⟩ | ⟨e, -, rfl⟩
      · exact .inr (.inr ⟨i, { s with inbox := rest }.startCommand w, ⟨w, rest, hin, hd⟩, ⟨rfl, rfl, rfl, rfl⟩, hr⟩)
      · exact .inl ⟨rfl, rfl, rfl, rfl⟩
    · exact .inr (.inl ⟨⟨rest, hin⟩, rfl, rfl⟩)
    · obtain ⟨hconfig, hcalset, hseen, hlastAp⟩ := hacc.quiet
      exact .inl ⟨hconfig, hcalset, hseen, hlastAp⟩

theorem step_config (h : step s = .next t) : t.config = s.config := by
  rcases step_quiet_or h with hq | ⟨-, hc, -⟩ | ⟨i, u, -, hq, hr⟩
  · exact hq.config
  · exact hc
  · rw [hr.config, hq.config]

/-- What a step does to CALSET (10_state.md R46). -/
theorem step_calset (h : step s = .next t) : t.calset = s.calset ∨
    (startsNext s .calLoad ∧ s.calset = none ∧ t.done = true ∧ t.err = false) ∨
    (t.calset = none ∧ (resetsNext s ∨ startsNext s .sysReset)) := by
  rcases step_quiet_or h with hq | ⟨hn, -, hc⟩ | ⟨i, u, hi, hq, hr⟩
  · exact .inl hq.calset
  · exact .inr (.inr ⟨hc, .inl hn⟩)
  · rw [← hq.calset]
    rcases hr.calset with hkept | ⟨rfl, hfree, hdone, herr⟩ | ⟨rfl, hc⟩
    · exact .inl hkept
    · exact .inr (.inl ⟨hi, hfree, hdone, herr⟩)
    · exact .inr (.inr ⟨hc, .inr hi⟩)

/-- What a step does to the tracking fields (10_state.md R53). -/
theorem step_track (h : step s = .next t) : (t.seen = s.seen ∧ t.lastAp = s.lastAp) ∨
    (∃ ap res, startsNext s (.cvtSubpage ap res)) ∨ startsNext s .sysReset ∨ resetsNext s := by
  rcases step_quiet_or h with hq | ⟨hn, -, -⟩ | ⟨i, u, hi, hq, hr⟩
  · exact .inl ⟨hq.seen, hq.lastAp⟩
  · exact .inr (.inr (.inr hn))
  · rw [← hq.seen, ← hq.lastAp]
    rcases hr.track with hkept | ⟨ap, res, rfl⟩ | rfl
    · exact .inl hkept
    · exact .inr (.inl ⟨ap, res, hi⟩)
    · exact .inr (.inr (.inl hi))

/-- Either reset clears the tracking fields (10_state.md R53). -/
theorem step_reset_track (hb : s.busy = false) (hr : startsNext s .sysReset ∨ resetsNext s) (h : step s = .next t) :
    t.seen = 0 ∧ t.lastAp = .interleaved := by
  rcases hr with ⟨w, rest, hin, hd⟩ | ⟨rest, hin⟩
  · rw [step_of_inbox hb hin, perform_writeCmd_ok (s := { s with inbox := rest }) hb hd] at h
    cases h
    exact ⟨rfl, rfl⟩
  · rw [step_of_inbox hb hin] at h
    cases h
    exact ⟨rfl, rfl⟩

theorem statusWord_track (s : State) : s.statusWord.extractLsb' 6 3 = apBit s.lastAp ++ s.seen := by
  ext i hi
  rw [BitVec.getElem_extractLsb', getLsbD_statusWord, BitVec.getElem_append]
  interval_cases i <;> rfl

end Sys2Proof.Machine

namespace Sys2Proof.Proofs

open Sys2Proof.Machine

/-- Settles O11: the one command that stores a CalibrationSet starts without one and completes; only the resets take it away. -/
theorem calibrationIsWrittenOnce : Obligations.CalibrationIsWrittenOnce := by
  refine ⟨fun c => rfl, fun s t c h hs ht => ?_, fun s t c h hs => ?_, fun s c hc => ⟨_, calLoad_locked hc, rfl, hc⟩⟩
  · rcases step_calset h with hkept | ⟨hi, -, hdone, herr⟩ | ⟨hnone, -⟩
    · simp [hkept, hs] at ht
    · exact ⟨hi, hdone, herr⟩
    · simp [hnone] at ht
  · rcases step_calset h with hkept | ⟨-, hfree, -⟩ | hreset
    · exact .inl (hkept.trans hs)
    · simp [hfree] at hs
    · exact .inr hreset

/-- Settles O12: the record stays over every step, and CSR VARIANT is a view of it. -/
theorem variantIsConstant : Obligations.VariantIsConstant := by
  intro s t h
  have hcfg : t.cfg = s.cfg := congrArg CheckedCfg.record (step_config h)
  exact ⟨congrArg (fun c : Cfg => BitVec.ofNat 32 c.variant.val) hcfg, hcfg⟩

/-- Settles O13: of the accesses only the hardware reset, of the commands only CVT.SUBPAGE and SYS.RESET write the tracking fields. -/
theorem trackingHasThreeWriters : Obligations.TrackingHasThreeWriters :=
  ⟨fun _ _ h hne => (step_track h).resolve_left hne, fun _ _ h hb hr => step_reset_track hb hr h, statusWord_track⟩

end Sys2Proof.Proofs
end

section
/-! PROOFS. CORRCNT counts the corrected words (10_state.md R40): O14. -/

namespace Sys2Proof.Machine

variable {s t u : State}

open Sys2Proof.Claims

/-! ## Code words -/

theorem eccenc_xor (p q : Payload) : eccenc (p ^^^ q) = eccenc p ^^^ eccenc q := by
  apply BitVec.eq_of_getLsbD_eq
  intro i hi
  rw [eccenc_add, BitVec.getLsbD_xor]

theorem syndrome_eccenc_bit : ∀ i : Fin 11, syndrome (eccenc (1#11 <<< i.val)) = 0#5 := by decide +kernel

/-- A payload without bits from `n` on encodes to a code word: bit by bit, the code being linear (40_ecc.md R142). -/
theorem syndrome_eccenc_below {n : Nat} (hn : n ≤ 11) {p : Payload} (hp : ∀ k, n ≤ k → p.getLsbD k = false) :
    syndrome (eccenc p) = 0 := by
  induction n generalizing p with
  | zero =>
    obtain rfl : p = 0 := BitVec.eq_of_getLsbD_eq fun k _ => by simpa using hp k (Nat.zero_le k)
    decide +kernel
  | succ n ih =>
    have hlow : ∀ q : Payload, q.getLsbD n = false → (∀ k, n + 1 ≤ k → q.getLsbD k = false) → syndrome (eccenc q) = 0 :=
      fun q hqn hq => ih (by omega) fun k hk => (Nat.lt_or_eq_of_le hk).elim (hq k) (· ▸ hqn)
    cases hb : p.getLsbD n with
    | false => exact hlow p hb hp
    | true =>
      have hq := hlow (p ^^^ 1#11 <<< n) (by simp [hb]; omega) fun k hk => by simp [hp k hk, show k - n ≠ 0 by omega]
      rwa [eccenc_xor, syndrome_xor, syndrome_eccenc_bit ⟨n, by omega⟩, BitVec.xor_zero] at hq

/-- The encoder gives code words (40_ecc.md R140). -/
theorem syndrome_eccenc (p : Payload) : syndrome (eccenc p) = 0 :=
  syndrome_eccenc_below (Nat.le_refl 11) fun k hk => BitVec.getLsbD_of_ge p k hk

/-! ## The count of a pass -/

/-- A word that does not decode has a syndrome that names no bit (40_ecc.md R135). -/
theorem eccdec_err {w : Half} {S : BitVec 5} (h : eccdec w = .err S) : ¬ 16 ≤ (syndrome w).toNat := by
  unfold eccdec at h
  dsimp only at h
  split at h
  · cases h
  · split at h
    · cases h
    · next h16 => exact h16

/-- The words of an image that a pass corrects (40_ecc.md R135). -/
def correctedWords (W : List Half) : List Half := W.filter fun w => 16 ≤ (syndrome w).toNat

/-- A pass that succeeds counts the corrected words (41_calibration.md R165). -/
theorem eccpassFrom_count {i n : Nat} {W : List Half} {P : List Payload} (h : eccpassFrom i W = .ok P n) :
    n = (correctedWords W).length := by
  induction W generalizing i n P with
  | nil => cases h; rfl
  | cons w ws ih =>
    unfold eccpassFrom at h
    split at h
    · cases h
    · next p cr pos S hd =>
      obtain ⟨-, hcr, -⟩ := eccdec_ok hd
      split at h
      · cases h
      · next ps m hr =>
        cases h
        rw [ih hr, correctedWords, correctedWords, List.filter_cons, hcr]
        split
        · rw [List.length_cons, Nat.add_comm]
        · rw [Nat.zero_add]

/-- A pass that succeeds has decoded every word. -/
theorem eccpass_decodes {W : List Half} {P : List Payload} {n : Nat} (h : eccpass W = .ok P n) :
    decodesBelow W W.length := by
  intro k hk w hw S hS
  obtain ⟨hlen, hall⟩ := List.forall₂_iff_get.1 (eccpassFrom_ok h).2
  obtain ⟨cr, pos, S', hd⟩ := hall k hk (hlen ▸ hk)
  rw [List.getElem?_eq_getElem hk] at hw
  cases hw
  rw [List.get_eq_getElem, hS] at hd
  cases hd

/-- A pass over an image whose words decode succeeds. -/
theorem eccpass_total {W : List Half} (h : decodesBelow W W.length) : ∃ P n, eccpass W = .ok P n :=
  eccpassFrom_total 0 fun w hw S => by
    obtain ⟨k, hk, rfl⟩ := List.getElem_of_mem hw
    exact h k hk _ (List.getElem?_eq_getElem hk) S

/-- The reconstructed image has no word to correct (41_calibration.md R172). -/
theorem correctedWords_synthesized (W : List Half) : correctedWords (synthesized W) = [] := by
  rw [correctedWords, List.filter_eq_nil_iff]
  intro w hw
  obtain ⟨v, -, rfl⟩ := List.mem_map.1 hw
  simp [syndrome_eccenc]

/-! ## CORRCNT after a command -/

theorem calCommit_corrCnt (s : State) (P : List Payload) (n : Nat) : (calCommit s P n).corrCnt = BitVec.ofNat 16 n := by
  rcases calCommit_cases s P n with ⟨sub, k, -, e⟩ | ⟨-, e⟩
  · rw [e]; rfl
  · rw [e]; rfl

/-- A load whose words all decode stores their count, whatever validation says (41_calibration.md R167). -/
theorem calDecode_corrCnt_ok {W : List Half} (h : decodesBelow W W.length) :
    (calDecode s W).corrCnt = BitVec.ofNat 16 (correctedWords W).length := by
  obtain ⟨P, n, hp⟩ := eccpass_total h
  rw [calDecode, hp, ← eccpassFrom_count hp]
  exact calCommit_corrCnt s P n

/-- A load with a word that does not decode leaves the count at 0: with or without the fallback there is nothing corrected. -/
theorem calDecode_corrCnt_bad {W : List Half} (h : ¬ decodesBelow W W.length) (h0 : s.corrCnt = 0) :
    (calDecode s W).corrCnt = 0 := by
  rcases calDecode_cases s W with ⟨P, n, hp, -⟩ | ⟨i, w, S, -, -, e⟩ | ⟨i, w, S, -, -, ⟨P, n, hp, e⟩ | ⟨j, v, S', -, e⟩⟩
  · exact absurd (eccpass_decodes hp) h
  · rw [e]; exact h0
  · rw [e, calCommit_corrCnt, eccpassFrom_count hp, correctedWords_synthesized]; rfl
  · rw [e]; exact h0

/-- The image has fewer words than the 16 bits of the count can say. -/
theorem image_length_lt {W : List Half} (h : ImageIs s W) : W.length < 2 ^ 16 := by
  obtain ⟨-, -, -, hn, hw, -⟩ := s.config.ok
  rw [h.len]
  show s.config.record.calWords < 2 ^ 16
  omega

/-- What CAL.LOAD leaves in CORRCNT once it reaches the ECC pass. -/
theorem calLoad_corrCnt {W : List Half} (hl : Loads s W) (h : exec .calLoad s = .next t) :
    (decodesBelow W W.length → t.corrCnt.toNat = (correctedWords W).length) ∧
      (¬ decodesBelow W W.length → t.corrCnt = 0) := by
  have he : exec .calLoad s = .next (calDecode ((s.setCorrCnt 0).setFallback false) W) :=
    execCalLoad_image hl.free hl.length hl.image
  rw [he] at h
  cases h
  refine ⟨fun hd => ?_, fun hd => calDecode_corrCnt_bad hd rfl⟩
  rw [calDecode_corrCnt_ok hd, BitVec.toNat_ofNat]
  exact Nat.mod_eq_of_lt ((List.length_filter_le _ W).trans_lt (image_length_lt hl.image))

/-- A CAL.LOAD that ends before the ECC pass leaves the count at 0. -/
theorem calLoad_corrCnt_refused (hs : s.calset ≠ none ∨ s.arg0.toNat ≠ s.cfg.calBytes) (h : exec .calLoad s = .next t) :
    t.corrCnt = 0 := by
  rcases execCalLoad_cases h with ⟨-, rfl⟩ | ⟨-, -, rfl⟩ | ⟨hc, hl, -⟩
  · rfl
  · rfl
  · exact (hs.elim (· hc) (· hl)).elim

theorem eccDec_corrCnt {tag : Half} (h : exec (.eccDec tag) s = .next t) :
    t.corrCnt = if 16 ≤ (syndrome (eccWordOf s)).toNat then 1 else 0 := by
  rcases execEccDec_cases h with ⟨S, hd, rfl⟩ | ⟨p, cr, pos, S, hd, rfl⟩
  · rw [if_neg (eccdec_err hd)]; rfl
  · obtain ⟨-, hcr, -⟩ := eccdec_ok hd
    simp [hcr]

theorem Ran.corrCnt {i : Instr} (h : Ran s i t) (hd : ∀ tag, i ≠ .eccDec tag) (hl : i ≠ .calLoad) (hr : i ≠ .sysReset) :
    t.corrCnt = s.corrCnt := by
  cases h with
  | kept _ ht => exact ht.corrCnt
  | counted => exact absurd rfl (hd _)
  | loadFailed | loaded => exact absurd rfl hl
  | listed | converted => rfl
  | cleared => exact absurd rfl hr

theorem csrRead_corrCnt (s : State) :
    (s.csrRead 9).extractLsb' 16 16 = 0 ∧ (s.csrRead 9).extractLsb' 0 16 = s.corrCnt := by
  have h9 : s.csrRead 9 = 0#16 ++ s.corrCnt := setWidth_eq_zero_append s.corrCnt
  rw [h9]
  exact ⟨BitVec.extractLsb'_append_eq_left, BitVec.extractLsb'_append_eq_right⟩

end Sys2Proof.Machine

namespace Sys2Proof.Proofs

open Sys2Proof.Machine

/-- Settles O14: ECC.DEC counts its one word, the pass of CAL.LOAD each word it corrects, and of reconstructed words it corrects none. -/
theorem corrCntCountsCorrectedWords : Obligations.CorrCntCountsCorrectedWords := by
  refine ⟨fun s => ?_, fun tag s t => eccDec_corrCnt, fun s t h hs => calLoad_corrCnt_refused hs h,
    fun s t W h hl => calLoad_corrCnt hl h, fun i s t h => (exec_ran h).corrCnt⟩
  obtain ⟨hhigh, hlow⟩ := csrRead_corrCnt s
  exact ⟨hhigh, hlow, getLsbD_statusWord s 4⟩

end Sys2Proof.Proofs
end

section
/-! PROOFS. No command reads CORRECTED, FALLBACK or ERR_STICKY (10_state.md R41): O16. -/

namespace Sys2Proof.Machine

variable {s t : State}

/-- The state with other diagnostics (10_state.md R41). -/
def State.setDiag (s : State) (b f : Bool) (n : Half) : State := { s with errSticky := b, fallback := f, corrCnt := n }

namespace State

variable (s : State) (b f : Bool) (n : Half)

@[simp] theorem setDiag_config : (s.setDiag b f n).config = s.config := rfl
@[simp] theorem setDiag_cfg : (s.setDiag b f n).cfg = s.cfg := rfl
@[simp] theorem setDiag_cmd : (s.setDiag b f n).cmd = s.cmd := rfl
@[simp] theorem setDiag_arg0 : (s.setDiag b f n).arg0 = s.arg0 := rfl
@[simp] theorem setDiag_arg1 : (s.setDiag b f n).arg1 = s.arg1 := rfl
@[simp] theorem setDiag_seen : (s.setDiag b f n).seen = s.seen := rfl
@[simp] theorem setDiag_lastAp : (s.setDiag b f n).lastAp = s.lastAp := rfl
@[simp] theorem setDiag_calset : (s.setDiag b f n).calset = s.calset := rfl
@[simp] theorem setDiag_mem : (s.setDiag b f n).mem = s.mem := rfl

end State

/-- Two states that differ in the diagnostics only. -/
def SameButDiag (t t' : State) : Prop := ∃ b f n, t' = t.setDiag b f n

theorem sameButDiag_setDiag (s : State) (b f : Bool) (n : Half) : SameButDiag s (s.setDiag b f n) := ⟨b, f, n, rfl⟩

namespace SameButDiag

variable {t' : State}

theorem config (h : SameButDiag t t') : t'.config = t.config := by
  obtain ⟨b, f, n, rfl⟩ := h
  rfl

theorem setCorrCnt (h : SameButDiag t t') (n : Half) : SameButDiag (t.setCorrCnt n) (t'.setCorrCnt n) := by
  obtain ⟨b, f, -, rfl⟩ := h
  exact ⟨b, f, n, rfl⟩

theorem setFallback (h : SameButDiag t t') (f : Bool) : SameButDiag (t.setFallback f) (t'.setFallback f) := by
  obtain ⟨b, -, n, rfl⟩ := h
  exact ⟨b, f, n, rfl⟩

theorem finish (h : SameButDiag t t') (r0 r1 : Word) : SameButDiag (t.finish r0 r1) (t'.finish r0 r1) := by
  obtain ⟨b, f, n, rfl⟩ := h
  exact ⟨b, f, n, rfl⟩

theorem raiseError (h : SameButDiag t t') (k : ErrKind) (info : Word) :
    SameButDiag (t.raiseError k info) (t'.raiseError k info) := by
  obtain ⟨-, f, n, rfl⟩ := h
  exact ⟨true, f, n, rfl⟩

end SameButDiag

/-- A command that ends ends alike with other diagnostics. -/
def IgnoresDiag (m : State → Host.Outcome State Fault Refusal) : Prop :=
  ∀ s t b f n, m s = .next t → ∃ t', m (s.setDiag b f n) = .next t' ∧ SameButDiag t t'

theorem execEccDec_ignoresDiag (tag : Half) : IgnoresDiag (execEccDec tag) := by
  intro s t b f n h
  have h0 := (sameButDiag_setDiag s b f n).setCorrCnt 0
  have hword : eccWordOf (s.setDiag b f n) = eccWordOf s := rfl
  rcases execEccDec_cases h with ⟨S, hd, rfl⟩ | ⟨p, cr, pos, S, hd, rfl⟩
  · exact ⟨_, by simp only [execEccDec, hword, hd], h0.raiseError _ _⟩
  · exact ⟨_, by simp only [execEccDec, hword, hd], (h0.setCorrCnt _).finish _ _⟩

theorem execGeoConst_ignoresDiag (idx : Half) (ap : AccessPattern) : IgnoresDiag (execGeoConst idx ap) := by
  intro s t b f n h
  have hs := sameButDiag_setDiag s b f n
  rcases execGeoConst_cases h with ⟨v, hv, rfl⟩ | ⟨hv, rfl⟩
  · exact ⟨_, by simp [execGeoConst, hv], hs.finish _ _⟩
  · exact ⟨_, by simp [execGeoConst, hv], hs.raiseError _ _⟩

/-- From the payloads on CAL.LOAD reads FALLBACK and the count, which it has itself written, but not ERR_STICKY. -/
theorem SameButDiag.calCommit {s' : State} (h : SameButDiag s s') (hf : s'.fallback = s.fallback) (P : List Payload)
    (n : Nat) : SameButDiag (calCommit s P n) (calCommit s' P n) := by
  obtain ⟨b, f, m, rfl⟩ := h
  obtain rfl : f = s.fallback := hf
  unfold Machine.calCommit
  simp only [State.cfg, State.setCorrCnt_config, State.setDiag_config]
  split
  · exact ⟨true, s.fallback, _, rfl⟩
  · exact ⟨b, s.fallback, _, rfl⟩

theorem SameButDiag.calDecode {s' : State} (h : SameButDiag s s') (hf : s'.fallback = s.fallback) (W : List Half) :
    SameButDiag (calDecode s W) (calDecode s' W) := by
  unfold Machine.calDecode
  simp only [State.cfg, h.config]
  split
  · exact h.calCommit hf _ _
  · split
    · split
      · exact (h.setFallback true).calCommit rfl _ _
      · exact (h.setFallback true).raiseError _ _
    · exact h.raiseError _ _

theorem execCalLoad_ignoresDiag : IgnoresDiag execCalLoad := by
  intro s t b f n h
  have h0 := ((sameButDiag_setDiag s b f n).setCorrCnt 0).setFallback false
  rcases execCalLoad_cases h with ⟨hc, rfl⟩ | ⟨hc, hl, rfl⟩ | ⟨hc, hl, W, hW, rfl⟩
  · exact ⟨_, by simp only [execCalLoad, State.setDiag_calset, hc, if_true], h0.raiseError _ _⟩
  · exact ⟨_, by simp [execCalLoad, hc, hl], h0.raiseError _ _⟩
  · exact ⟨_, execCalLoad_image (s := s.setDiag b f n) hc hl ⟨hW.len, hW.words⟩, h0.calDecode rfl W⟩

theorem convertFrame_ignoresDiag (c : CalSet) (sp : Nat) (ap : AccessPattern) (res : BitVec 2) :
    IgnoresDiag (convertFrame c sp ap res) := by
  intro s t b f n h
  obtain ⟨x, out, hx, hout, rfl⟩ := convertFrame_cases h
  refine ⟨_, ?_, b, f, n, rfl⟩
  simp only [convertFrame, State.setDiag_mem, hx, State.cfg, State.setDiag_config, hout]
  rfl

theorem execCvtSubpage_ignoresDiag (ap : AccessPattern) (res : BitVec 2) : IgnoresDiag (execCvtSubpage ap res) := by
  intro s t b f n h
  have hs := sameButDiag_setDiag s b f n
  rcases execCvtSubpage_cases h with ⟨hc, rfl⟩ | ⟨c, hc, ⟨hl, rfl⟩ | ⟨hl, st, hst, hend⟩⟩
  · exact ⟨_, by simp [execCvtSubpage, hc], hs.raiseError _ _⟩
  · exact ⟨_, by simp [execCvtSubpage, hc, hl], hs.raiseError _ _⟩
  · have hread : readRaw s.mem 0 = .ok st := readRaw_ok.2 hst
    rcases hend with ⟨hsp, rfl⟩ | ⟨hsp, hr, rfl⟩ | ⟨hsp, hr, hn, rfl⟩ | ⟨hsp, hr, hn, hframe⟩
    · exact ⟨_, by simp [execCvtSubpage, hc, hl, hread, hsp], hs.raiseError _ _⟩
    · exact ⟨_, by simp [execCvtSubpage, hc, hl, hread, hsp, hr], hs.finish _ _⟩
    · exact ⟨_, by simp [execCvtSubpage, hc, hl, hread, hsp, hr, hn], hs.raiseError _ _⟩
    · obtain ⟨t', ht', hd⟩ := convertFrame_ignoresDiag c _ ap res s t b f n hframe
      exact ⟨t', by simp [execCvtSubpage, hc, hl, hread, hsp, hr, hn, ht'], hd⟩

/-- No command reads the diagnostics (10_state.md R41). -/
theorem exec_ignoresDiag (i : Instr) : IgnoresDiag (exec i) := by
  cases i with
  | eccDec tag => exact execEccDec_ignoresDiag tag
  | geoConst idx ap => exact execGeoConst_ignoresDiag idx ap
  | calLoad => exact execCalLoad_ignoresDiag
  | cvtSubpage ap res => exact execCvtSubpage_ignoresDiag ap res
  | sysReset => intro s t b f n h; cases h; exact ⟨_, rfl, false, false, 0, rfl⟩
  | sysNop | eccEnc | geoMember | geoRanges | geoRescorr => intro s t b f n h; cases h; exact ⟨_, rfl, b, f, n, rfl⟩

end Sys2Proof.Machine

namespace Sys2Proof.Proofs

open Sys2Proof.Machine

/-- Settles O16: every command's cases are told apart by fields other than the diagnostics, and CAL.LOAD writes those it reports first. -/
theorem diagnosticsAreNeverRead : Obligations.DiagnosticsAreNeverRead := by
  intro i s t b f n h
  obtain ⟨t', ht', b', f', n', rfl⟩ := exec_ignoresDiag i s t b f n h
  exact ⟨_, ht', rfl⟩

end Sys2Proof.Proofs
end

section
/-! PROOFS. What a command leaves as it was, by the rows of the access table (20_memory.md R80): O10. -/

namespace Sys2Proof.Machine

variable {s t u : State} {i : Instr}

/-! ## The end of a command -/

namespace Ends

theorem mem (h : Ends u t) : t.mem = u.mem := by cases h <;> rfl
theorem inbox (h : Ends u t) : t.inbox = u.inbox := by cases h <;> rfl
theorem reply (h : Ends u t) : t.reply = u.reply := by cases h <;> rfl
theorem epoch (h : Ends u t) : t.epoch = u.epoch := by cases h <;> rfl
theorem arg0 (h : Ends u t) : t.arg0 = u.arg0 := by cases h <;> rfl
theorem arg1 (h : Ends u t) : t.arg1 = u.arg1 := by cases h <;> rfl
theorem fallback (h : Ends u t) : t.fallback = u.fallback := by cases h <;> rfl

/-- The normal end leaves the error registers (10_state.md R36). -/
theorem errorState (h : Ends u t) (he : t.err = false) :
    t.errCode = u.errCode ∧ t.errInfo = u.errInfo ∧ t.errSticky = u.errSticky := by
  cases h with
  | done r0 r1 => exact ⟨rfl, rfl, rfl⟩
  | error info hk => cases he

end Ends

/-! ## The rows of the access table -/

/-- The fields of the model's own that are no register of the block (logs 3, 5, 7). -/
theorem Ran.ownFields (h : Ran s i t) : t.inbox = s.inbox ∧ t.reply = s.reply ∧ t.epoch = s.epoch := by
  cases h with
  | kept _ ht => exact ⟨ht.inbox, ht.reply, ht.epoch⟩
  | counted _ ht => exact ⟨ht.inbox, ht.reply, ht.epoch⟩
  | loadFailed | loaded | listed | converted | cleared => exact ⟨rfl, rfl, rfl⟩

/-- CALMEM and RAWMEM are written by the host only (20_memory.md R80). -/
theorem Ran.inputBuffers (h : Ran s i t) : t.mem.cal = s.mem.cal ∧ t.mem.raw = s.mem.raw := by
  cases h with
  | kept _ ht => rw [ht.mem]; exact ⟨rfl, rfl⟩
  | counted _ ht => rw [ht.mem]; exact ⟨rfl, rfl⟩
  | loadFailed | loaded | listed | converted | cleared => exact ⟨rfl, rfl⟩

/-- OUTMEM is written by CVT.SUBPAGE only (20_memory.md R80). -/
theorem Ran.out (h : Ran s i t) (hi : ∀ ap res, i ≠ .cvtSubpage ap res) : t.mem.out = s.mem.out := by
  cases h with
  | kept _ ht => rw [ht.mem]
  | counted _ ht => rw [ht.mem]; rfl
  | loadFailed | loaded | listed | cleared => rfl
  | converted => exact absurd rfl (hi _ _)

/-- GEOMEM is written by GEO.MEMBER and GEO.RANGES only (20_memory.md R80). -/
theorem Ran.geo (h : Ran s i t) (hi : ∀ sp ap, i ≠ .geoMember sp ap ∧ i ≠ .geoRanges sp ap) :
    t.mem.geo = s.mem.geo := by
  cases h with
  | kept _ ht => rw [ht.mem]
  | counted _ ht => rw [ht.mem]; rfl
  | loadFailed | loaded | converted | cleared => rfl
  | listed r0 r1 hlists =>
    obtain ⟨sp, ap, hmember | hranges⟩ := hlists
    · exact absurd hmember (hi sp ap).1
    · exact absurd hranges (hi sp ap).2

/-- Of the commands only SYS.RESET writes the operands (20_memory.md R80). -/
theorem Ran.operands (h : Ran s i t) (hi : i ≠ .sysReset) : t.arg0 = s.arg0 ∧ t.arg1 = s.arg1 := by
  cases h with
  | kept _ ht => exact ⟨ht.arg0, ht.arg1⟩
  | counted _ ht => exact ⟨ht.arg0, ht.arg1⟩
  | loadFailed | loaded | listed | converted => exact ⟨rfl, rfl⟩
  | cleared => exact absurd rfl hi

/-- CALSET and FALLBACK are written by CAL.LOAD and SYS.RESET (10_state.md R46, 41_calibration.md R170). -/
theorem Ran.calibration (h : Ran s i t) (hl : i ≠ .calLoad) (hr : i ≠ .sysReset) :
    t.calset = s.calset ∧ t.fallback = s.fallback := by
  cases h with
  | kept _ ht => exact ⟨ht.calset, ht.fallback⟩
  | counted _ ht => exact ⟨ht.calset, ht.fallback⟩
  | listed | converted => exact ⟨rfl, rfl⟩
  | loadFailed | loaded => exact absurd rfl hl
  | cleared => exact absurd rfl hr

/-- A command that raises no error leaves the error registers (20_memory.md R80). -/
theorem Ran.errorState (h : Ran s i t) (hr : i ≠ .sysReset) (he : t.err = false) :
    t.errCode = s.errCode ∧ t.errInfo = s.errInfo ∧ t.errSticky = s.errSticky := by
  cases h with
  | kept _ ht => exact ht.errorState he
  | counted _ ht => exact ht.errorState he
  | loadFailed => cases he
  | loaded | listed | converted => exact ⟨rfl, rfl, rfl⟩
  | cleared => exact absurd rfl hr

/-! ## The cells a storing command leaves -/

/-- A conversion writes the cells of the listed member pixels only (43_convert.md R283). -/
theorem convertFrame_out_nonmember {c : CalSet} {sp p : Nat} {ap : AccessPattern} {res : BitVec 2}
    (h : convertFrame c sp ap res s = .next t) (hp : p ∉ members s.cfg sp ap) :
    readCell t.mem.out p = readCell s.mem.out p := by
  obtain ⟨x, out, -, hout, rfl⟩ := convertFrame_cases h
  have hread := convertPixels_read members_nodup hout p
  rwa [if_neg hp] at hread

/-- CVT.SUBPAGE writes cells of members of the subpage the status word names only, and where it does not convert, none (20_memory.md R80). -/
theorem execCvtSubpage_out_nonmember {ap : AccessPattern} {res : BitVec 2} {p : Nat} (h : execCvtSubpage ap res s = .next t)
    (hp : ¬ (p < s.cfg.npix ∧ ∃ st, readCell s.mem.raw 0 = some st ∧ spOf s.cfg ap p = statusSubpage st)) :
    readCell t.mem.out p = readCell s.mem.out p := by
  rcases execCvtSubpage_cases h with ⟨-, rfl⟩ | ⟨c, -, ⟨-, rfl⟩ | ⟨-, st, hst,
    ⟨-, rfl⟩ | ⟨-, -, rfl⟩ | ⟨-, -, -, rfl⟩ | ⟨-, -, -, hframe⟩⟩⟩
  · rfl
  · rfl
  · rfl
  · rfl
  · rfl
  · refine convertFrame_out_nonmember hframe fun hmem => ?_
    obtain ⟨hlt, hm⟩ := mem_members.1 hmem
    exact hp ⟨hlt, st, hst, of_decide_eq_true hm⟩

/-- A list of words written from cell 0 leaves the cells past it. -/
theorem readCell_writeCells_beyond {w j : Nat} (m : List (Nat × BitVec w)) {ws : List (BitVec w)} (hj : ws.length ≤ j) :
    readCell (writeCells m 0 ws) j = readCell m j := by
  rw [readCell_writeCells, if_neg (by omega)]

/-- GEO.MEMBER writes the words of its bitmap only (42_geometry.md R227). -/
theorem execGeoMember_geo_beyond {sp : BitVec 1} {ap : AccessPattern} {j : Nat} (h : execGeoMember sp ap s = .next t)
    (hj : flagWords s.cfg ≤ j) : readCell t.mem.geo j = readCell s.mem.geo j := by
  cases h
  exact readCell_writeCells_beyond _ (by simpa [memberWords] using hj)

/-- GEO.RANGES writes the words of its spans only (42_geometry.md R234). -/
theorem execGeoRanges_geo_beyond {sp : BitVec 1} {ap : AccessPattern} {j : Nat} (h : execGeoRanges sp ap s = .next t)
    (hj : 2 * (spans s.cfg sp.toNat ap).length ≤ j) : readCell t.mem.geo j = readCell s.mem.geo j := by
  cases h
  exact readCell_writeCells_beyond _ (by rwa [length_spanWords])

end Sys2Proof.Machine

namespace Sys2Proof.Proofs

open Sys2Proof.Machine

/-- Settles O10: what a command has done says what it left, and the three storing commands leave the cells past their lists. -/
theorem commandsWriteOnlyTheirRow : Obligations.CommandsWriteOnlyTheirRow := by
  intro i s t h
  have hran := exec_ran h
  obtain ⟨hinbox, hreply, hepoch⟩ := hran.ownFields
  refine ⟨⟨congrArg CheckedCfg.record hran.config, hinbox, hreply, hepoch⟩, ?cmd, hran.inputBuffers, hran.out, ?outCells,
    hran.geo, ?memberCells, ?rangeCells, hran.operands, hran.calibration, hran.corrCnt, ?track, hran.errorState⟩
  case cmd =>
    intro hr
    rw [hran.cmd, if_neg hr]
  case outCells => rintro ap res rfl p hp; exact execCvtSubpage_out_nonmember h hp
  case memberCells => rintro sp ap rfl j hj; exact execGeoMember_geo_beyond h hj
  case rangeCells => rintro sp ap rfl j hj; exact execGeoRanges_geo_beyond h hj
  case track =>
    intro hc hr
    rcases hran.track with hkept | ⟨ap, res, hi⟩ | hi
    · exact hkept
    · exact absurd hi (hc ap res)
    · exact absurd hi hr

end Sys2Proof.Proofs
end

section
/-! PROOFS. What the host reads and writes in the buffers (20_memory.md R70, R73, R76, R81, R85): O17 and O18. -/

namespace Sys2Proof.Machine

variable {s t : State}

open Sys2Proof.Claims

/-! ## The accesses inside a buffer -/

theorem perform_writeCal {k : Nat} (b : Byte) (hk : k < s.cfg.calBytes) :
    perform (.writeCal k b) s = .next (s.setCal (writeCell s.mem.cal k b)) := if_pos hk

theorem perform_writeRaw {k : Nat} (x : Half) (hk : k < 8 + s.cfg.npix) :
    perform (.writeRaw k x) s = .next (s.setRaw (writeCell s.mem.raw k x)) := if_pos hk

theorem perform_readOut {k : Nat} (hk : k < s.cfg.npix) : perform (.readOut k) s =
    .next (s.answer (.data ((readCell s.mem.out k).getD (Config.unwrittenOut s.epoch k)))) := if_pos hk

theorem perform_readGeo {k : Nat} (hk : k < s.cfg.npix + 2) : perform (.readGeo k) s =
    .next (s.answer (.data (0#16 ++ (readCell s.mem.geo k).getD (Config.unwrittenGeo s.epoch k)))) := by
  rw [← setWidth_eq_zero_append]
  exact if_pos hk

theorem perform_readFlag_none {k : Nat} (hk : k < 2 * flagWords s.cfg) (hc : s.calset = none) :
    perform (.readFlag k) s = .next (s.answer .refused) := by
  have hin : k < spaceSize s.cfg .flagMem := hk
  simp [perform, hostReadFlag, hin, hc]

theorem perform_readFlag_some {k : Nat} {c : CalSet} (hk : k < 2 * flagWords s.cfg) (hc : s.calset = some c) :
    perform (.readFlag k) s = .next (s.answer (.data (0#16 ++ flagWord s.cfg c k))) := by
  have hin : k < spaceSize s.cfg .flagMem := hk
  rw [← setWidth_eq_zero_append]
  simp [perform, hostReadFlag, hin, hc]

/-! ## Reads -/

theorem hostReadFlag_answers {k : Nat} (h : hostReadFlag k s = .next t) : ∃ r, t = s.answer r := by
  unfold hostReadFlag at h
  split at h
  · split at h
    · cases h; exact ⟨_, rfl⟩
    · cases h; exact ⟨_, rfl⟩
  · cases h

/-- A read gives an answer and changes nothing else (20_memory.md R81). -/
theorem read_answers {a : HostAction} (ha : isRead a = true) (h : perform a s = .next t) : ∃ r, t = s.answer r := by
  cases a with
  | readCsr n => cases h; exact ⟨_, rfl⟩
  | readOut k | readGeo k => obtain ⟨-, rfl⟩ := of_guard_next h; exact ⟨_, rfl⟩
  | readFlag k => exact hostReadFlag_answers h
  | writeCsr | writeCal | writeRaw | hardReset => cases ha

/-- What a read gives does not depend on the answer before it. -/
theorem perform_read_answer {a : HostAction} (ha : isRead a = true) (r : Reply) : perform a (s.answer r) = perform a s := by
  cases a with
  | readCsr | readOut | readGeo | readFlag => rfl
  | writeCsr | writeCal | writeRaw | hardReset => cases ha

/-! ## FLAGMEM -/

/-- The first half of FLAGMEM is the failed bitmap (20_memory.md R76). -/
theorem getLsbD_flagWord_failed {cfg : Cfg} (c : CalSet) {j k : Nat} (hk : k < 16) (hj : j < flagWords cfg) :
    (flagWord cfg c j).getLsbD k = (decide (16 * j + k < cfg.npix) && c.failedAt (16 * j + k)) := by
  rw [flagWord, if_pos hj, getLsbD_packBits _ _ _ _ hk]

/-- The second half of FLAGMEM is the outlier bitmap (20_memory.md R76). -/
theorem getLsbD_flagWord_outlier {cfg : Cfg} (c : CalSet) {j k : Nat} (hk : k < 16) (hj : flagWords cfg ≤ j) :
    (flagWord cfg c j).getLsbD k = (decide (16 * (j - flagWords cfg) + k < cfg.npix) &&
      c.outlierAt (16 * (j - flagWords cfg) + k)) := by
  rw [flagWord, if_neg (Nat.not_lt.2 hj), getLsbD_packBits _ _ _ _ hk]

end Sys2Proof.Machine

namespace Sys2Proof.Proofs

open Sys2Proof.Machine

/-- Settles O17: a read is an answer on which no read depends, a write is one `writeCell`, and a written cell is read as written. -/
theorem accessesAreOfWholeCells : Obligations.AccessesAreOfWholeCells := by
  refine ⟨fun s a t ha h => ?_, fun s k b hk => ?_, fun s k x hk => ?_, fun s k hk => ?_, fun s k hk => ?_⟩
  · obtain ⟨r, rfl⟩ := read_answers ha h
    exact ⟨rfl, (perform_read_answer ha r).trans h⟩
  · exact ⟨_, perform_writeCal b hk, fun j => readCell_writeCell _ _ _ _⟩
  · exact ⟨_, perform_writeRaw x hk, fun j => readCell_writeCell _ _ _ _⟩
  · exact ⟨_, perform_readOut hk, fun x hx => by rw [hx]; rfl⟩
  · exact ⟨_, perform_readGeo hk, fun x hx => by rw [hx]; rfl⟩

/-- Settles O18: a FLAGMEM word is packed from one of the two bitmaps of the CalibrationSet. -/
theorem flagMemShowsTheBitmaps : Obligations.FlagMemShowsTheBitmaps := by
  intro s j hj
  refine ⟨perform_readFlag_none hj, fun c hc => ⟨_, perform_readFlag_some hj hc, fun k hk => ?_⟩⟩
  exact ⟨getLsbD_flagWord_failed c hk, getLsbD_flagWord_outlier c hk⟩

end Sys2Proof.Proofs
end

section
/-! PROOFS. A command word is read by its fields (30_encoding.md R101 to R104, R111): O1, O2, O3 and O4. -/

namespace Sys2Proof

variable {w w' : Word} {i : Instr}

/-! ## The command of a row -/

/-- The command of the row of `i` with the fields it uses as `w` holds them (30_encoding.md R103, R106). -/
def Instr.withFields (w : Word) : Instr → Instr
  | .sysNop => .sysNop
  | .eccDec _ => .eccDec (cmdIdx w)
  | .eccEnc => .eccEnc
  | .calLoad => .calLoad
  | .geoConst _ _ => .geoConst (cmdIdx w) (cmdAp w)
  | .geoMember _ _ => .geoMember (cmdSp w) (cmdAp w)
  | .geoRanges _ _ => .geoRanges (cmdSp w) (cmdAp w)
  | .geoRescorr => .geoRescorr
  | .cvtSubpage _ _ => .cvtSubpage (cmdAp w) (cmdRes w)
  | .sysReset => .sysReset

@[simp] theorem Instr.opcode_withFields (w : Word) (i : Instr) : (i.withFields w).opcode = i.opcode := by
  cases i <;> rfl

/-- A word without `Z` is the command its opcode selects. -/
theorem decode_of_opcode (hz : cmdZ w = 0#4) (ho : cmdOpc w = i.opcode) : decode w = .ok (i.withFields w) := by
  cases i <;> simp [decode, hz, ho, Instr.opcode, Instr.withFields]

/-- What the decoder reads: no `Z`, the opcode of the row, and the row's fields. -/
theorem decode_eq_ok_iff : decode w = .ok i ↔ cmdZ w = 0#4 ∧ cmdOpc w = i.opcode ∧ i.withFields w = i := by
  constructor
  · intro h
    obtain ⟨hz, ho⟩ := decode_ok_fields h
    exact ⟨hz, ho, Except.ok.inj ((decode_of_opcode hz ho).symm.trans h)⟩
  · rintro ⟨hz, ho, hi⟩
    rw [decode_of_opcode hz ho, hi]

/-! ## Decode of encode -/

/-- The selecting bits of every command's word are its row's. -/
theorem encode_row : ∀ i : Instr, Laws.EncodeRow.Statement i
  | .sysNop => Laws.EncodeRow.sysNop
  | .eccDec tag => Laws.EncodeRow.eccDec tag
  | .eccEnc => Laws.EncodeRow.eccEnc
  | .calLoad => Laws.EncodeRow.calLoad
  | .geoConst idx ap => Laws.EncodeRow.geoConst idx ap
  | .geoMember sp ap => Laws.EncodeRow.geoMember sp ap
  | .geoRanges sp ap => Laws.EncodeRow.geoRanges sp ap
  | .geoRescorr => Laws.EncodeRow.geoRescorr
  | .cvtSubpage ap res => Laws.EncodeRow.cvtSubpage ap res
  | .sysReset => Laws.EncodeRow.sysReset

theorem withFields_encode (i : Instr) : i.withFields (encode i) = i := by
  cases i <;> simp [Instr.withFields, encode]

theorem decode_encode (i : Instr) : decode (encode i) = .ok i := by
  obtain ⟨ho, hz⟩ := encode_row i
  exact decode_eq_ok_iff.2 ⟨hz, ho, withFields_encode i⟩

/-- The opcode table numbers a word by its value. -/
theorem decodeTableWord_toNat (h : decode w = .ok i) : decodeTableWord 32 w.toNat = some i := by
  have hw : BitVec.ofNat 32 (w.toNat % 2 ^ 32) = w := by rw [Nat.mod_eq_of_lt w.isLt, BitVec.ofNat_toNat, BitVec.setWidth_eq]
  rw [decodeTableWord, hw, h]

/-! ## The bits a command uses -/

section Masked

variable {m : Word}

/-- A field that a mask covers is the same in words that agree under the mask. -/
theorem extractLsb'_eq_of_mask {k n : Nat} (hm : m.extractLsb' k n = BitVec.allOnes n) (h : w' &&& m = w &&& m) :
    w'.extractLsb' k n = w.extractLsb' k n := by
  have hv : ∀ v : Word, (v &&& m).extractLsb' k n = v.extractLsb' k n := fun v => by
    rw [BitVec.extractLsb'_and, hm, BitVec.and_allOnes]
  rw [← hv w', h, hv w]

theorem cmdAp_eq_of_mask (hm : m.getLsbD 8 = true) (h : w' &&& m = w &&& m) : cmdAp w' = cmdAp w := by
  have hv : ∀ v : Word, (v &&& m).getLsbD 8 = v.getLsbD 8 := fun v => by rw [BitVec.getLsbD_and, hm, Bool.and_true]
  rw [cmdAp, cmdAp, ← hv w', h, hv w]

end Masked

/-- Words that agree in `Z` and `OPC` select the same row. -/
theorem select_eq_of_mask (h : w' &&& 0x0000F0FF#32 = w &&& 0x0000F0FF#32) : cmdZ w' = cmdZ w ∧ cmdOpc w' = cmdOpc w :=
  ⟨extractLsb'_eq_of_mask (by decide) h, extractLsb'_eq_of_mask (by decide) h⟩

/-- Every command uses `Z` and `OPC`. -/
theorem usedBits_and_select (i : Instr) : i.usedBits &&& 0x0000F0FF#32 = 0x0000F0FF#32 := by
  cases i <;> simp only [Instr.usedBits] <;> decide

theorem select_of_usedBits (h : w' &&& i.usedBits = w &&& i.usedBits) : w' &&& 0x0000F0FF#32 = w &&& 0x0000F0FF#32 := by
  rw [← usedBits_and_select i, ← BitVec.and_assoc, h, BitVec.and_assoc]

/-- The used bits hold every field that the command is read from. -/
theorem withFields_eq_of_usedBits (h : w' &&& i.usedBits = w &&& i.usedBits) : i.withFields w' = i.withFields w := by
  cases i <;> simp only [Instr.usedBits] at h
  case eccDec => exact congrArg Instr.eccDec (extractLsb'_eq_of_mask (by decide) h)
  case geoConst => exact congrArg₂ Instr.geoConst (extractLsb'_eq_of_mask (by decide) h) (cmdAp_eq_of_mask (by decide) h)
  case geoMember => exact congrArg₂ Instr.geoMember (extractLsb'_eq_of_mask (by decide) h) (cmdAp_eq_of_mask (by decide) h)
  case geoRanges => exact congrArg₂ Instr.geoRanges (extractLsb'_eq_of_mask (by decide) h) (cmdAp_eq_of_mask (by decide) h)
  case cvtSubpage => exact congrArg₂ Instr.cvtSubpage (cmdAp_eq_of_mask (by decide) h) (extractLsb'_eq_of_mask (by decide) h)
  all_goals rfl

theorem decode_eq_of_usedBits (hd : decode w = .ok i) (h : w' &&& i.usedBits = w &&& i.usedBits) : decode w' = .ok i := by
  obtain ⟨hz, ho, hi⟩ := decode_eq_ok_iff.1 hd
  obtain ⟨hz', ho'⟩ := select_eq_of_mask (select_of_usedBits h)
  exact decode_eq_ok_iff.2 ⟨hz'.trans hz, ho'.trans ho, (withFields_eq_of_usedBits h).trans hi⟩

/-- Words that agree in `Z` and `OPC` are commands of the same row (30_encoding.md R102). -/
theorem decode_of_mask (hd : decode w = .ok i) (h : w' &&& 0x0000F0FF#32 = w &&& 0x0000F0FF#32) :
    decode w' = .ok (i.withFields w') := by
  obtain ⟨hz, ho⟩ := decode_ok_fields hd
  obtain ⟨hz', ho'⟩ := select_eq_of_mask h
  exact decode_of_opcode (hz'.trans hz) (ho'.trans ho)

/-! ## Legal words -/

open Sys2Proof.Claims

/-- The opcodes of R103 are those of the commands. -/
theorem mem_opcodes_iff {b : Byte} : b ∈ opcodes ↔ ∃ i : Instr, i.opcode = b := by
  constructor
  · intro hb
    have table : opcodes = [Instr.sysNop, .eccDec 0, .eccEnc, .calLoad, .geoConst 0 .chess, .geoMember 0 .chess,
      .geoRanges 0 .chess, .geoRescorr, .cvtSubpage .chess 0, .sysReset].map Instr.opcode := rfl
    rw [table, List.mem_map] at hb
    exact hb.imp fun i => And.right
  · rintro ⟨i, rfl⟩
    cases i <;> simp [Instr.opcode, opcodes]

/-- The legal words are those that decode (30_encoding.md R104). -/
theorem legalWord_iff : legalWord w ↔ ∃ i, decode w = .ok i := by
  constructor
  · rintro ⟨hz, ho⟩
    obtain ⟨i, hi⟩ := mem_opcodes_iff.1 ho
    exact ⟨_, decode_of_opcode hz hi.symm⟩
  · rintro ⟨i, hd⟩
    obtain ⟨hz, ho⟩ := decode_ok_fields hd
    exact ⟨hz, mem_opcodes_iff.2 ⟨i, ho.symm⟩⟩

end Sys2Proof

namespace Sys2Proof.Machine

variable {s t : State}

open Sys2Proof.Claims

/-! ## The selector that reads AP -/

/-- Only selector 17 reads `AP` (42_geometry.md R222). -/
theorem geoConstant_ap (c : Cfg) (ap ap' : AccessPattern) : ∀ n, n ≠ 17 → geoConstant c n ap = geoConstant c n ap'
  | 17, h => absurd rfl h
  | 0, _ | 1, _ | 2, _ | 3, _ | 4, _ | 5, _ | 6, _ | 7, _ | 8, _ | 9, _ | 10, _ | 11, _ | 12, _ | 13, _ | 14, _ | 15, _
  | 16, _ | _ + 18, _ => rfl

/-! ## Words that are no command -/

/-- A write of CMD with a word that is no command raises IllegalCommand (30_encoding.md R104). -/
theorem perform_writeCmd_illegal {w : Word} (hb : s.busy = false) (hw : ¬ legalWord w) :
    perform (.writeCsr 0 w) s = .next ((s.startCommand w).raiseError .illegalCommand (infoIllegal w)) := by
  rw [perform_writeCmd hb, runCommand]
  split
  · next i hd => exact absurd (legalWord_iff.2 ⟨i, hd⟩) hw
  · rfl

/-! ## Commands with an effect -/

/-- The state of VT+F after reset, with `ARG0 = 1` and `CORRCNT = 2`: every command but SYS.NOP changes what it shows (`exec_telling_ne_ended`). -/
def telling : State := { State.resetOf CheckedCfg.VTF with arg0 := 1, corrCnt := 2 }

/-- An end that differs from that of SYS.NOP in what `f` reads. -/
theorem next_ne_ended {α : Type} (f : State → α) (hf : f t ≠ f (ended s 0 0)) :
    (.next t : Host.Outcome State Fault Refusal) ≠ .next (ended s 0 0) :=
  fun h => hf (congrArg f (Host.Outcome.next.inj h))

/-- No constant of VT+F is 0. -/
theorem geoConstant_VTF_ne_zero (n : Nat) (ap : AccessPattern) : geoConstant Cfg.VTF n ap ≠ some 0 := by
  by_cases hn : n < 18
  · revert n
    cases ap <;> decide
  · obtain ⟨k, rfl⟩ := Nat.exists_eq_add_of_le' (Nat.le_of_not_lt hn)
    nofun

/-- No subpage of VT+F is empty. -/
theorem nmem_VTF_ne_zero (sp : BitVec 1) (ap : AccessPattern) : BitVec.ofNat 32 (nmem Cfg.VTF sp.toNat ap) ≠ 0 := by
  cases ap <;> revert sp <;> decide

/-- Every command but SYS.NOP has an effect on `telling` (30_encoding.md R104). -/
theorem exec_telling_ne_ended {i : Instr} (hi : i ≠ .sysNop) : exec i telling ≠ .next (ended telling 0 0) := by
  cases i with
  | sysNop => exact absurd rfl hi
  | eccDec tag => exact next_ne_ended State.corrCnt (by decide)
  | eccEnc => exact next_ne_ended State.res0 (by decide +kernel)
  | calLoad => exact next_ne_ended State.err (by decide)
  | geoConst idx ap =>
    intro h
    rcases execGeoConst_cases h with ⟨v, hv, ht⟩ | ⟨-, ht⟩
    · obtain rfl : v = 0 := (congrArg State.res0 ht).symm
      exact geoConstant_VTF_ne_zero _ ap hv
    · exact absurd (congrArg State.err ht) (by decide)
  | geoMember sp ap => exact next_ne_ended State.res0 (nmem_VTF_ne_zero sp ap)
  | geoRanges sp ap => exact next_ne_ended State.res1 (nmem_VTF_ne_zero sp ap)
  | geoRescorr => exact next_ne_ended State.res0 (by decide)
  | cvtSubpage ap res => exact next_ne_ended State.err (by decide)
  | sysReset => exact next_ne_ended State.arg0 (by decide)

end Sys2Proof.Machine

namespace Sys2Proof.Proofs

open Sys2Proof.Machine

/-- Settles O1: a command's word holds no `Z`, its row's opcode and the fields of its row, and these are what the decoder reads. -/
theorem commandsRoundTrip : Obligations.CommandsRoundTrip :=
  fun i => ⟨decode_encode i, decodeTableWord_toNat (decode_encode i)⟩

/-- Settles O2: the used bits cover `Z`, `OPC` and the fields that the command is read from. -/
theorem unusedFieldsAreIgnored : Obligations.UnusedFieldsAreIgnored := by
  refine ⟨fun w w' i => decode_eq_of_usedBits, fun w w' i hd h => ?_, fun idx ap ap' s hidx => ?_⟩
  · exact ⟨_, decode_of_mask hd h, Instr.opcode_withFields w' i⟩
  · show execGeoConst idx ap s = execGeoConst idx ap' s
    rw [execGeoConst, execGeoConst, geoConstant_ap s.cfg ap ap' idx.toNat hidx]

/-- Settles O3: a line writes the words of its command, which `decode_encode` reads back. -/
theorem workedEncodings : Obligations.WorkedEncodings :=
  ⟨rfl, decode_encode (.eccDec 5#16), rfl, decode_encode (.geoMember 1#1 .chess), rfl,
    decode_encode (.geoConst 2#16 .interleaved), rfl, decode_encode (.cvtSubpage .chess 2#2), by decide, by decide⟩

/-- Settles O4: the words that decode are the legal ones, and `telling` shows the effect of every command but SYS.NOP. -/
theorem illegalWordsOnlyRaise : Obligations.IllegalWordsOnlyRaise := by
  refine ⟨fun s w hb hw => ?illegal, fun s w hb hw => ?legal, ?unlisted, fun s => rfl, fun i hi => ?effect⟩
  case illegal => exact perform_writeCmd_illegal hb hw
  case legal =>
    obtain ⟨i, hd⟩ := legalWord_iff.1 hw
    exact ⟨i, hd, perform_writeCmd_ok hb hd⟩
  case unlisted => decide +kernel
  case effect => exact ⟨telling, exec_telling_ne_ended hi⟩

end Sys2Proof.Proofs
end

section
/-! PROOFS. The ECC unit (40_ecc.md R133 to R142): O20, O21, O22, O23 and O24. -/

namespace Sys2Proof.Machine

variable {v w : Half} {i : Nat}

open Sys2Proof.Claims

/-! ## The syndrome, bit by bit -/

/-- The parity under a mask is that of the bits the mask covers (40_ecc.md R132). -/
theorem par_and (w m : Half) :
    par (w &&& m) = ((List.range 16).filter m.getLsbD).foldl (fun b i => b ^^ w.getLsbD i) false := by
  rw [List.foldl_filter, par]
  congr 1
  funext b i
  rw [BitVec.getLsbD_and]
  cases m.getLsbD i <;> simp

/-- Each bit of the syndrome is one check (40_ecc.md R133). -/
theorem getLsbD_syndrome (w : Half) :
    (syndrome w).getLsbD 0 = par (w &&& maskH0) ∧ (syndrome w).getLsbD 1 = par (w &&& maskH1) ∧
    (syndrome w).getLsbD 2 = par (w &&& maskH2) ∧ (syndrome w).getLsbD 3 = par (w &&& maskH3) ∧
    (syndrome w).getLsbD 4 = par w := by
  have hbit : ∀ j, (syndrome w).getLsbD j = BitVec.getLsbD (w := 1 + 1 + 1 + 1 + 1) (BitVec.ofBool (par w) ++
    BitVec.ofBool (par (w &&& maskH3)) ++ BitVec.ofBool (par (w &&& maskH2)) ++ BitVec.ofBool (par (w &&& maskH1)) ++
    BitVec.ofBool (par (w &&& maskH0))) j := fun j => rfl
  simp only [hbit]
  repeat rw [BitVec.getLsbD_append]
  simp

/-- The bits each mask covers (40_ecc.md R132). -/
theorem maskBits :
    (List.range 16).filter maskH0.getLsbD = [0, 1, 3, 4, 6, 8, 10, 11] ∧
    (List.range 16).filter maskH1.getLsbD = [0, 2, 3, 5, 6, 9, 10, 12] ∧
    (List.range 16).filter maskH2.getLsbD = [1, 2, 3, 7, 8, 9, 10, 13] ∧
    (List.range 16).filter maskH3.getLsbD = [4, 5, 6, 7, 8, 9, 10, 14] := by decide

/-! ## Flipped bits of a code word -/

theorem syndrome_flip (hw : syndrome w = 0) (v : Half) : syndrome (w ^^^ v) = syndrome v := by
  rw [syndrome_xor, hw]
  exact BitVec.zero_xor

/-- Syndromes of 16 and above are those with the parity bit set. -/
theorem par_eq_true_iff : par w = true ↔ 16 ≤ (syndrome w).toNat := by
  obtain ⟨-, -, -, -, hpar⟩ := getLsbD_syndrome w
  have hmsb : (syndrome w).msb = (syndrome w).getLsbD 4 := BitVec.msb_eq_getLsbD_last _
  rw [← hpar, ← hmsb, BitVec.msb_eq_decide, decide_eq_true_iff]

theorem par_bit (hi : i < 16) : par (1#16 <<< i) = true :=
  par_eq_true_iff.2 (syndrome_bit ⟨i, hi⟩).1

/-! ## Words as sets of bits -/

/-- The bits set in a word. -/
def setBits (v : Half) : List Nat := (List.range 16).filter v.getLsbD

theorem lt_of_mem_setBits (h : i ∈ setBits v) : i < 16 := List.mem_range.1 (List.mem_filter.1 h).1

theorem nodup_setBits (v : Half) : (setBits v).Nodup := List.nodup_range.filter _

/-- The exclusive or of the listed single bits. -/
def xorBits : List Nat → Half
  | [] => 0
  | i :: is => 1#16 <<< i ^^^ xorBits is

theorem getLsbD_xorBits {l : List Nat} (hl : l.Nodup) {k : Nat} (hk : k < 16) : (xorBits l).getLsbD k = decide (k ∈ l) := by
  induction l with
  | nil => simp [xorBits]
  | cons i is ih =>
    obtain ⟨hi, his⟩ := List.nodup_cons.1 hl
    rw [xorBits, BitVec.getLsbD_xor, ih his, ← BitVec.twoPow_eq, BitVec.getLsbD_twoPow]
    by_cases h : i = k
    · subst h
      simp [hi, hk]
    · simp [h, Ne.symm h]

theorem xorBits_setBits (v : Half) : xorBits (setBits v) = v := by
  apply BitVec.eq_of_getLsbD_eq
  intro k hk
  rw [getLsbD_xorBits (nodup_setBits v) hk]
  simp [setBits, hk]

/-- Parity counts the bits set. -/
theorem par_xorBits {l : List Nat} (hl : ∀ i ∈ l, i < 16) : par (xorBits l) = decide (l.length % 2 = 1) := by
  induction l with
  | nil => rfl
  | cons i is ih =>
    rw [xorBits, par_xor, par_bit (hl i (by simp)), ih fun j hj => hl j (by simp [hj])]
    simp only [Bool.true_xor, List.length_cons, ← decide_not, decide_eq_decide]
    omega

theorem par_eq_setBits (v : Half) : par v = decide ((setBits v).length % 2 = 1) := by
  conv_lhs => rw [← xorBits_setBits v]
  exact par_xorBits fun i => lt_of_mem_setBits

/-- A code word other than 0 has an even number of bits set, and neither none nor two (40_ecc.md R142). -/
theorem four_le_setBits (hv : syndrome v = 0) (hne : v ≠ 0) : 4 ≤ (setBits v).length := by
  have heven : (setBits v).length % 2 ≠ 1 := by
    have hpar : ¬ par v = true := by
      rw [par_eq_true_iff, hv]
      decide
    rwa [par_eq_setBits, decide_eq_true_iff] at hpar
  have hzero : (setBits v).length ≠ 0 := fun h => hne <| by
    rw [← xorBits_setBits v, List.length_eq_zero_iff.1 h]
    rfl
  have htwo : (setBits v).length ≠ 2 := fun h => by
    obtain ⟨i, j, hij⟩ := List.length_eq_two.1 h
    have hmem : ∀ k ∈ [i, j], k < 16 := hij ▸ fun k => lt_of_mem_setBits
    have hnd : [i, j].Nodup := hij ▸ nodup_setBits v
    have hsyn := (syndrome_bits_ne ⟨i, hmem i (by simp)⟩ ⟨j, hmem j (by simp)⟩ (by simpa using hnd)).1
    rw [← syndrome_xor] at hsyn
    have hx : v = 1#16 <<< i ^^^ 1#16 <<< j := by
      rw [← xorBits_setBits v, hij, xorBits, xorBits, xorBits]
      exact congrArg _ BitVec.xor_zero
    exact hsyn (hx ▸ hv)
  omega

/-! ## The decoder in its three cases -/

theorem eccdec_codeWord (h : syndrome w = 0) : eccdec w = .ok (payloadOf w) false 0 0 := by
  simp [eccdec, h, payloadOf]

theorem eccdec_corrected (h : 16 ≤ (syndrome w).toNat) :
    eccdec w = .ok (payloadOf (w ^^^ (1#16 <<< (eccPos (syndrome w)).toNat))) true (eccPos (syndrome w)) (syndrome w) := by
  have hne : syndrome w ≠ 0 := fun h0 => absurd (h0 ▸ h) (by decide)
  simp only [eccdec]
  rw [if_neg hne, if_pos h, payloadOf]

theorem eccdec_uncorrectable (hne : syndrome w ≠ 0) (h : (syndrome w).toNat < 16) : eccdec w = .err (syndrome w) := by
  simp only [eccdec]
  rw [if_neg hne, if_neg (Nat.not_le.2 h)]

/-- One flipped bit is corrected, and the answer names it (40_ecc.md R142). -/
theorem eccdec_oneFlip (hw : syndrome w = 0) (i : Fin 16) :
    ∃ S, eccdec (w ^^^ (1#16 <<< i.val)) = .ok (payloadOf w) true (BitVec.ofNat 4 i.val) S := by
  obtain ⟨h16, hpos⟩ := syndrome_bit i
  refine ⟨syndrome (1#16 <<< i.val), ?_⟩
  rw [eccdec_corrected (by rwa [syndrome_flip hw]), syndrome_flip hw, hpos, BitVec.xor_assoc, BitVec.xor_self, BitVec.xor_zero]
  congr 1
  exact BitVec.eq_of_toNat_eq (by simp [hpos])

/-- Two flipped bits are detected (40_ecc.md R142). -/
theorem eccdec_twoFlips (hw : syndrome w = 0) {i j : Fin 16} (hij : i ≠ j) :
    ∃ S, eccdec (w ^^^ (1#16 <<< i.val) ^^^ (1#16 <<< j.val)) = .err S := by
  obtain ⟨hne, hlt⟩ := syndrome_bits_ne i j hij
  rw [← syndrome_xor, ← syndrome_flip hw, ← BitVec.xor_assoc] at hne hlt
  exact ⟨_, eccdec_uncorrectable hne hlt⟩

/-! ## The encoded word -/

/-- The check bits stand above the payload (40_ecc.md R140). -/
theorem getLsbD_eccenc_checks (p : Payload) :
    (eccenc p).getLsbD 11 = checkOf 0x55B#16 p ∧ (eccenc p).getLsbD 12 = checkOf 0x66D#16 p ∧
    (eccenc p).getLsbD 13 = checkOf 0x78E#16 p ∧ (eccenc p).getLsbD 14 = checkOf 0x7F0#16 p := by
  simp [-BitVec.getLsbD_eq_getElem, getLsbD_eccenc, getLsbD_eccLow]

/-- The lower fifteen bits of the encoded word, under the mask of the top bit's parity. -/
theorem eccenc_and_low (p : Payload) : eccenc p &&& 0x7FFF#16 = (eccLow p).setWidth 16 := by
  apply BitVec.eq_of_getLsbD_eq
  intro k hk
  have hmask : ∀ k : Fin 16, (0x7FFF#16).getLsbD k = decide (k.val < 15) := by decide
  rw [BitVec.getLsbD_and, hmask ⟨k, hk⟩, BitVec.getLsbD_setWidth, getLsbD_eccenc]
  by_cases h : k < 15
  · simp [h, hk]
  · simp [h, BitVec.getLsbD_of_ge (eccLow p) k (Nat.not_lt.1 h)]

/-- The top bit is the parity of the others (40_ecc.md R140). -/
theorem getLsbD_eccenc_top (p : Payload) : (eccenc p).getLsbD 15 = par (eccenc p &&& 0x7FFF#16) := by
  rw [eccenc_and_low, getLsbD_eccenc]
  simp

/-- A code word without payload is 0: its check bits stand in one check each, and the top bit in the parity only (40_ecc.md R132). -/
theorem eq_zero_of_payload_zero : ∀ c : BitVec 5, syndrome (c ++ 0#11) = 0 → c = 0 := by decide +kernel

/-- A code word is known by its payload (40_ecc.md R140). -/
theorem codeWord_eq_of_payloadOf_eq (hv : syndrome v = 0) (hw : syndrome w = 0) (hp : payloadOf v = payloadOf w) : v = w := by
  have hlow : payloadOf (v ^^^ w) = 0#11 := by
    rw [payloadOf, BitVec.extractLsb'_xor, ← payloadOf, ← payloadOf, hp]
    exact BitVec.xor_self
  have hsplit : (v ^^^ w).extractLsb' 11 5 ++ 0#11 = v ^^^ w := by
    rw [← hlow, payloadOf]
    exact (BitVec.extractLsb'_append_extractLsb'_eq_extractLsb' rfl).trans BitVec.extractLsb'_eq_self
  have hsyn : syndrome (v ^^^ w) = 0 := (syndrome_flip hv w).trans hw
  have htop : (v ^^^ w).extractLsb' 11 5 = 0 := eq_zero_of_payload_zero _ (by rw [hsplit, hsyn])
  rw [htop] at hsplit
  exact BitVec.xor_eq_zero_iff.1 hsplit.symm

/-! ## The commands -/

/-- The fields of RES1 are at their places (40_ecc.md R136). -/
theorem eccDiag_corrected (pos : BitVec 4) (S : BitVec 5) :
    eccDiag true pos S = (pos.setWidth 32 <<< 16) ||| (1#32 <<< 8) ||| S.setWidth 32 := by
  apply BitVec.eq_of_getLsbD_eq
  intro k hk
  show BitVec.getLsbD (w := 12 + 4 + 7 + 1 + 3 + 5) (0#12 ++ pos ++ 0#7 ++ BitVec.ofBool true ++ 0#3 ++ S) k = _
  rw [BitVec.getLsbD_append, BitVec.getLsbD_append, BitVec.getLsbD_append, BitVec.getLsbD_append, BitVec.getLsbD_append]
  interval_cases k <;> simp

end Sys2Proof.Machine

namespace Sys2Proof.Proofs

open Sys2Proof.Machine

/-- Settles O20: a check is the parity of the bits its mask covers, and a flipped bit leaves its own syndrome. -/
theorem syndromeTable : Obligations.SyndromeTable := by
  refine ⟨fun w => ?bits, by decide, fun w i hw hi => ?flip⟩
  case bits =>
    obtain ⟨h0, h1, h2, h3, h4⟩ := getLsbD_syndrome w
    obtain ⟨b0, b1, b2, b3⟩ := maskBits
    rw [h0, h1, h2, h3, h4, par_and, par_and, par_and, par_and, b0, b1, b2, b3]
    simp [par, List.range, List.range.loop]
  case flip =>
    rw [syndrome_flip hw]
    exact syndrome_bit ⟨i, hi⟩

/-- Settles O21: the encoder gives code words, and a code word is known by its payload. -/
theorem encoderGivesTheUniqueCodeWord : Obligations.EncoderGivesTheUniqueCodeWord := by
  intro p
  obtain ⟨h11, h12, h13, h14⟩ := getLsbD_eccenc_checks p
  refine ⟨eccenc_payload p, h11, h12, h13, h14, getLsbD_eccenc_top p, syndrome_eccenc p, fun w hw hp => ?_⟩
  exact codeWord_eq_of_payloadOf_eq hw (syndrome_eccenc p) (hp.trans (eccenc_payload p).symm)

/-- Settles O22: by the syndromes of one and of two flipped bits; the difference of two code words is a code word. -/
theorem codeCorrectsOneDetectsTwo : Obligations.CodeCorrectsOneDetectsTwo := by
  have hp : ∀ p, Claims.payloadOf (eccenc p) = p := eccenc_payload
  refine ⟨fun p => ?_, fun p i => ?_, fun p i j hij => eccdec_twoFlips (syndrome_eccenc p) hij, eccenc_xor,
    fun v w hv hw hne => ?_⟩
  · exact ⟨0, 0, (eccdec_codeWord (syndrome_eccenc p)).trans (by rw [hp])⟩
  · have h := eccdec_oneFlip (syndrome_eccenc p) i
    rwa [hp] at h
  · show 4 ≤ (setBits (v ^^^ w)).length
    exact four_le_setBits ((syndrome_flip hv w).trans hw) fun h => hne (BitVec.xor_eq_zero_iff.1 h)

/-- Settles O23: by the three cases of the decoder. -/
theorem eccDecDecodesOneWord : Obligations.EccDecDecodesOneWord := by
  intro s tag
  have hexec : exec (.eccDec tag) s = execEccDec tag s := rfl
  refine ⟨fun h => ?_, fun h => ?_, fun hlo hhi => ?_⟩
  · rw [hexec, execEccDec, eccWordOf, eccdec_codeWord h]
    rfl
  · rw [hexec, execEccDec, eccWordOf, eccdec_corrected h, ← eccDiag_corrected]
    rfl
  · have hne : syndrome (s.arg0.extractLsb' 0 16) ≠ 0 := fun h0 => absurd (h0 ▸ hlo) (by decide)
    rw [hexec, execEccDec, eccWordOf, eccdec_uncorrectable hne (Nat.lt_succ_of_le hhi)]
    rfl

/-- Settles O24: the command is one `finish`. -/
theorem eccEncEncodes : Obligations.EccEncEncodes :=
  fun s => congrArg (fun r => Host.Outcome.next (s.finish r 0)) (setWidth_eq_zero_append (k := 16) (eccenc (encPayloadOf s)))

end Sys2Proof.Proofs
end

section
/-! PROOFS. The payload fields and the slice of the payloads (41_calibration.md R181, R185 to R196): O31 and O32. -/

namespace Sys2Proof.Machine

open Sys2Proof.Claims

/-! ## The extraction primitives -/

section
variable {P : List Payload} {i : Nat} {x y : Payload} (hx : P[i]? = some x)
include hx

theorem payloadAt_of_getElem? : payloadAt P i = x := by
  rw [payloadAt, List.getD_eq_getElem?_getD, hx, Option.getD_some]

/-- The bits of an unsigned field are those of its word (41_calibration.md R181). -/
theorem testBit_fieldU (hi lo k : Nat) (hle : lo ≤ hi) :
    (fieldU P i hi lo).testBit k = (decide (lo + k ≤ hi) && x.getLsbD (lo + k)) := by
  rw [fieldU, payloadAt_of_getElem? hx, BitVec.testBit_toNat, BitVec.getLsbD_extractLsb']
  congr 1
  exact decide_eq_decide.2 (by omega)

/-- A signed field is the unsigned one, less its modulus when its top bit is set (41_calibration.md R181). -/
theorem fieldS_eq_fieldU (hi lo : Nat) (hle : lo ≤ hi) :
    fieldS P i hi lo = (fieldU P i hi lo : Int) - if x.getLsbD hi = true then 2 ^ (hi - lo + 1) else 0 := by
  have hmsb : (x.extractLsb' lo (hi - lo + 1)).msb = x.getLsbD hi := by
    rw [BitVec.msb_eq_getLsbD_last, BitVec.getLsbD_extractLsb', Nat.add_sub_cancel, Nat.add_sub_cancel' hle]
    simp
  rw [fieldS, fieldU, payloadAt_of_getElem? hx, BitVec.toInt_eq_msb_cond, hmsb]
  split <;> simp

theorem fieldU11_eq_toNat : fieldU11 P i = x.toNat := by
  rw [fieldU11, fieldU, payloadAt_of_getElem? hx, BitVec.extractLsb'_eq_self]

theorem fieldS11_eq_toNat : fieldS11 P i = (x.toNat : Int) - if 1024 ≤ x.toNat then 2048 else 0 := by
  rw [fieldS11, fieldS_eq_fieldU hx 10 0 (Nat.zero_le _), ← fieldU11, fieldU11_eq_toNat hx]
  have hmsb : x.getLsbD 10 = decide (1024 ≤ x.toNat) := by
    rw [← BitVec.msb_eq_decide (x := x), BitVec.msb_eq_getLsbD_last]
  simp only [hmsb, decide_eq_true_iff]
  norm_num

theorem fieldUHL_eq (hy : P[i + 1]? = some y) : fieldUHL P i = x.toNat % 32 * 2048 + y.toNat := by
  rw [fieldUHL, fieldHL, payloadAt_of_getElem? hx, payloadAt_of_getElem? hy, BitVec.toNat_append,
    ← Nat.shiftLeft_add_eq_or_of_lt y.isLt, BitVec.extractLsb'_toNat, Nat.shiftLeft_eq, Nat.shiftRight_zero]

end

theorem fieldSHL_eq_fieldUHL (P : List Payload) (i : Nat) :
    fieldSHL P i = (fieldUHL P i : Int) - if 32768 ≤ fieldUHL P i then 65536 else 0 := by
  rw [fieldSHL, fieldUHL, BitVec.toInt_eq_toNat_cond]
  split <;> split <;> omega

/-- The extraction primitives, over every payload array (41_calibration.md R181). -/
theorem extractsFields (P : List Payload) : ExtractsFields P where
  u _ hi lo _ hx hle _ k := testBit_fieldU hx hi lo k hle
  s _ hi lo _ hx hle _ := fieldS_eq_fieldU hx hi lo hle
  u11 _ _ := fieldU11_eq_toNat
  s11 _ _ := fieldS11_eq_toNat
  uhl _ _ _ := fieldUHL_eq
  shl i _ _ _ _ := fieldSHL_eq_fieldUHL P i

/-! ## The arrays of the slice -/

variable (cfg : Cfg) (P : List Payload)

theorem slice_ct {i : Nat} (hi : i < fieldU P 40 7 4) : (slice cfg P).ct[i]? = some (f32OfInt (fieldS11 P (41 + i))) := by
  show ((List.range (fieldU P 40 7 4)).map _)[i]? = _
  rw [List.getElem?_map, List.getElem?_range hi]
  rfl

theorem slice_ksto {b : Nat} (hb : b < fieldU P 40 3 0) :
    (slice cfg P).ksto[b]? = some (scaled (fieldS11 P (48 + b)) (fieldU P 8 10 6)) := by
  show ((List.range (fieldU P 40 3 0)).map _)[b]? = _
  rw [List.getElem?_map, List.getElem?_range hb]
  rfl

theorem slice_g {b : Nat} (hb : b < fieldU P 40 3 0) :
    (slice cfg P).g[b]? = some (scaled (fieldU11 P (56 + b)) 9) := by
  show ((List.range (fieldU P 40 3 0)).map _)[b]? = _
  rw [List.getElem?_map, List.getElem?_range hb]
  rfl

theorem slice_pix {p : Nat} (hp : p < cfg.npix) : (slice cfg P).pix[p]? = some (slicePixel cfg P p) := by
  show ((List.range cfg.npix).map _)[p]? = _
  rw [List.getElem?_map, List.getElem?_range hp]
  rfl

/-- `FAILED[p]` is the sentinel test (41_calibration.md R195). -/
theorem slicePixel_failed (p : Nat) : (slicePixel cfg P p).failed = true ↔ payloadAt P (64 + cfg.npix + p) = 0x400#11 :=
  decide_eq_true_iff

/-- `OUTLIER[p]` is the range test on a pixel that is not failed (41_calibration.md R196). -/
theorem slicePixel_outlier (p : Nat) : (slicePixel cfg P p).outlier = true ↔
    payloadAt P (64 + cfg.npix + p) ≠ 0x400#11 ∧
      (fieldS11 P (64 + cfg.npix + p) < -(cfg.outlierLim : Int) ∨ (cfg.outlierLim : Int) < fieldS11 P (64 + cfg.npix + p)) := by
  have hd : rawField cfg.npix P (.dA p) = fieldS11 P (64 + cfg.npix + p) := rfl
  show isOutlier cfg P p = true ↔ _
  simp [isOutlier, isFailed, hd]

end Sys2Proof.Machine

namespace Sys2Proof.Proofs

open Sys2Proof.Machine

/-- Settles O31: the layout table gives each field its place, and `slice` each value its formula. -/
theorem scalarFieldFormulas : Obligations.ScalarFieldFormulas := by
  intro cfg P
  refine ⟨extractsFields P, ⟨?_, rfl, rfl, rfl, rfl, rfl, rfl, rfl⟩, ⟨rfl, rfl, rfl⟩,
    ⟨rfl, rfl, rfl, rfl, rfl, rfl, rfl, rfl⟩, rfl, rfl, fun i => slice_ct cfg P,
    fun b hb => ⟨slice_ksto cfg P hb, slice_g cfg P hb⟩⟩
  exact BitVec.ofInt_natCast 2 _

/-- Settles O32: entry `p` of the slice is `slicePixel`, by the layout table's places of the pixel blocks. -/
theorem pixelFieldFormulas : Obligations.PixelFieldFormulas := by
  intro cfg P p hp
  exact ⟨extractsFields P, slicePixel cfg P p, slice_pix cfg P hp, rfl, rfl, rfl, rfl, rfl, slicePixel_failed cfg P p,
    slicePixel_outlier cfg P p⟩

end Sys2Proof.Proofs
end

section
/-! PROOFS. The parser's scalings by a power of two are exact (41_calibration.md R190, R194): O33. -/

namespace Sys2Proof.Machine

variable {a r r' : F32} {x y : ℝ}

/-- A pattern stands for one number. -/
theorem IsValue.unique (hx : IsValue a x) (hy : IsValue a y) : x = y := by
  obtain ⟨s, m, e, hs, rfl⟩ := hx
  obtain ⟨t, n, f, ht, rfl⟩ := hy
  cases hs.symm.trans ht
  rfl

theorem exponent_le {neg : Bool} {m : Nat} {e : Int} (h : f32Val a = .fin neg m e) : e ≤ 104 := by
  have hex := (a.extractLsb' 23 8).isLt
  simp only [f32Val] at h
  split at h
  · split at h <;> cases h
  · split at h
    · cases h; omega
    · cases h; simp only [Int.ofNat_eq_natCast]; omega

theorem abs_finReal (neg : Bool) (m : Nat) (e : Int) : |finReal neg m e| = m * (2 : ℝ) ^ e := by
  have hpos : (0 : ℝ) ≤ m * (2 : ℝ) ^ e := by positivity
  cases neg <;> simp [finReal, abs_of_nonneg hpos]

/-- A finite pattern is below the threshold of overflow. -/
theorem IsValue.abs_lt (h : IsValue a x) : |x| < 2 ^ 128 - 2 ^ 103 := by
  obtain ⟨neg, m, e, hv, rfl⟩ := isValue_iff.1 h
  have hm : (m : ℝ) + 1 ≤ 2 ^ 24 := by exact_mod_cast significand_lt hv
  have he : (2 : ℝ) ^ e ≤ 2 ^ (104 : Int) := zpow_le_zpow_right₀ one_le_two (exponent_le hv)
  rw [abs_finReal]
  calc (m : ℝ) * 2 ^ e ≤ (2 ^ 24 - 1) * 2 ^ (104 : Int) := by gcongr; linarith
    _ < 2 ^ 128 - 2 ^ 103 := by norm_num

/-- A number that some pattern stands for is rounded to itself. -/
theorem RoundsTo.exact (h : RoundsTo x r) (hx : IsValue r' x) : IsValue r x := by
  rcases h with ⟨-, v, hv, hnear⟩ | ⟨hbig, -, -⟩
  · have hle : |v - x| ≤ 0 := by
      rcases hnear r' x hx with h | ⟨h, -⟩
      · simpa using h.le
      · simpa using h.le
    rwa [← sub_eq_zero.1 (abs_nonpos_iff.1 hle)]
  · exact absurd hx.abs_lt (not_lt.2 hbig)

/-- A significand of 24 bits over a unit in the normal range has a pattern. -/
theorem exists_isValue (neg : Bool) {N : Nat} {q : Int} (hlo : 2 ^ 23 ≤ N) (hhi : N ≤ 2 ^ 24) (hq : -149 ≤ q) (hq' : q ≤ 100) :
    ∃ r, IsValue r (finReal neg N q) :=
  ⟨_, isValue_f32Pack neg N q hq hhi (fun _ => hlo) (by simp only [f32InfMag]; omega)⟩

theorem exists_isValue_zero : ∃ r, IsValue r 0 := ⟨f32Pack false 0, false, 0, -149, by decide, by simp⟩

/-- Whole powers of two move between significand and unit. -/
theorem finReal_shift (neg : Bool) (m j : Nat) (e : Int) : finReal neg (m * 2 ^ j) (e - j) = finReal neg m e := by
  rw [finReal, finReal, zpow_sub₀ two_ne_zero, zpow_natCast]
  push_cast
  field_simp

theorem finReal_mul_zpow (neg : Bool) (m : Nat) (e k : Int) : finReal neg m e * (2 : ℝ) ^ k = finReal neg m (e + k) := by
  rw [finReal, finReal, zpow_add₀ two_ne_zero, mul_assoc]

theorem intCast_eq_finReal (n : Int) : (n : ℝ) = finReal (decide (n < 0)) n.natAbs 0 := by
  rw [finReal, Nat.cast_natAbs, Int.cast_abs]
  rcases lt_or_ge n 0 with h | h
  · simp [h, abs_of_neg (Int.cast_lt_zero.2 h)]
  · simp [not_lt.2 h, abs_of_nonneg (Int.cast_nonneg h)]

/-- A number below 25 bits has its leading bit moved to place 23. -/
theorem exists_shift {m : Nat} (hm : m ≠ 0) (hm24 : m ≤ 2 ^ 24) : ∃ j ≤ 23, 2 ^ 23 ≤ m * 2 ^ j ∧ m * 2 ^ j ≤ 2 ^ 24 := by
  rcases hm24.eq_or_lt with rfl | hlt
  · exact ⟨0, by norm_num⟩
  · have hlog : m.log2 ≤ 23 := Nat.le_of_lt_succ ((Nat.log2_lt hm).2 hlt)
    refine ⟨23 - m.log2, Nat.sub_le _ _, ?_, ?_⟩
    · calc 2 ^ 23 = 2 ^ m.log2 * 2 ^ (23 - m.log2) := by rw [← pow_add]; congr 1; omega
        _ ≤ m * 2 ^ (23 - m.log2) := Nat.mul_le_mul_right _ (Nat.log2_self_le hm)
    · calc m * 2 ^ (23 - m.log2) ≤ 2 ^ (m.log2 + 1) * 2 ^ (23 - m.log2) := Nat.mul_le_mul_right _ Nat.lt_log2_self.le
        _ = 2 ^ 24 := by rw [← pow_add]; congr 1; omega

/-- An integer of at most 24 bits is converted exactly (41_calibration.md R194). -/
theorem isValue_f32OfInt {n : Int} (h : n.natAbs ≤ 2 ^ 24) : IsValue (f32OfInt n) n := by
  have hround := f32OfInt_roundsTo n
  by_cases hn : n = 0
  · subst hn
    obtain ⟨r, hr⟩ := exists_isValue_zero
    rw [Int.cast_zero] at hround ⊢
    exact hround.exact hr
  · obtain ⟨j, hj, hlo, hhi⟩ := exists_shift (Int.natAbs_ne_zero.2 hn) h
    obtain ⟨r, hr⟩ := exists_isValue (decide (n < 0)) hlo hhi (q := 0 - j) (by omega) (by omega)
    rw [finReal_shift, ← intCast_eq_finReal] at hr
    exact hround.exact hr

/-- A power of two that the parser scales by is a pattern (00_scope.md R15). -/
theorem isValue_pow2 {k : Int} (hlo : -126 ≤ k) (hhi : k ≤ 100) : IsValue (pow2 k) ((2 : ℝ) ^ k) := by
  have hone : finReal false 1 k = (2 : ℝ) ^ k := by simp [finReal]
  obtain ⟨r, hr⟩ := exists_isValue false (N := 1 * 2 ^ 23) (q := k - (23 : Nat)) (by norm_num) (by norm_num) (by omega) (by omega)
  rw [finReal_shift] at hr
  exact hone ▸ (f32Round_finReal false 1 k).exact hr

/-- What an integer below `2^26` is converted to: zero, or 24 bits over a unit far above the subnormals (41_calibration.md R190). -/
theorem f32OfInt_normal {n : Int} (h : n.natAbs < 2 ^ 26) (hn : n ≠ 0) :
    ∃ neg N q, 2 ^ 23 ≤ N ∧ N ≤ 2 ^ 24 ∧ -23 ≤ q ∧ q ≤ 3 ∧ IsValue (f32OfInt n) (finReal neg N q) := by
  obtain ⟨q, N, hr, hq, hlog, hnear, heven, hup, hlow⟩ := f32Round_unit n.natAbs 0 (Int.natAbs_ne_zero.2 hn)
  have hq23 : -23 ≤ q := by omega
  obtain ⟨⟨hhi, hlo⟩, -⟩ := overflow_iff hq hnear heven hup hlow
  have hq3 : q ≤ 3 := by
    have hlt : (n.natAbs : ℝ) < 2 ^ 26 := by exact_mod_cast h
    have hle := hlow (by omega)
    have hpow : (2 : ℝ) ^ q < 2 ^ (3 : Int) := by norm_num at hle hlt ⊢; linarith
    exact ((zpow_lt_zpow_iff_right₀ one_lt_two).1 hpow).le
  have hmag : (q + 149).toNat * 2 ^ 23 + N < f32InfMag := by simp only [f32InfMag]; omega
  refine ⟨decide (n < 0), N, q, hlo (by omega), hhi, hq23, hq3, ?_⟩
  rw [f32OfInt, hr, min_eq_left hmag.le]
  exact isValue_f32Pack _ N q hq hhi hlo hmag

end Sys2Proof.Machine

namespace Sys2Proof.Proofs

open Sys2Proof.Machine

/-- Settles O33: the product has the significand of `f32(n)`, over a unit that is still in the normal range. -/
theorem parserScalingIsExact : Obligations.ParserScalingIsExact := by
  intro n k hn hlo hhi
  have hpow : IsValue (pow2 (-k)) ((2 : ℝ) ^ (-k)) := isValue_pow2 (by omega) (by omega)
  have hexact : ∀ x : ℝ, IsValue (f32OfInt n) x → n.natAbs ≤ 2 ^ 24 → x = n := fun x hx h => hx.unique (isValue_f32OfInt h)
  rcases eq_or_ne n 0 with rfl | h0
  · obtain ⟨r, hr⟩ := exists_isValue_zero
    have hx : IsValue (f32OfInt 0) 0 := by simpa using isValue_f32OfInt (n := 0) (by norm_num)
    rw [← zero_mul ((2 : ℝ) ^ (-k))] at hr
    exact ⟨0, hx, (f32Mul_roundsTo hx hpow).exact hr, hexact 0 hx⟩
  · obtain ⟨neg, N, q, hNlo, hNhi, hqlo, hqhi, hx⟩ := f32OfInt_normal hn h0
    obtain ⟨r, hr⟩ := exists_isValue neg hNlo hNhi (q := q + -k) (by omega) (by omega)
    rw [← finReal_mul_zpow] at hr
    exact ⟨_, hx, (f32Mul_roundsTo hx hpow).exact hr, hexact _ hx⟩

end Sys2Proof.Proofs
end

section
/-! PROOFS. CAL.LOAD: its refusals, the ECC pass and its fallback, validation, and that it is a function (41_calibration.md R160 to R175,
R198 to R205): O25, O26, O27, O28, O29, O30 and O34. -/

namespace Sys2Proof.Machine

variable {s b t : State} {W V : List Half} {P : List Payload} {n i : Nat}

open Sys2Proof.Claims

/-! ## The ECC pass -/

/-- Words that decode to the listed payloads make the pass succeed with these payloads. -/
theorem eccpassFrom_of_forall₂ (h : List.Forall₂ (fun w p => ∃ cr pos S, eccdec w = .ok p cr pos S) W P) (i : Nat) :
    ∃ n, eccpassFrom i W = .ok P n := by
  induction h generalizing i with
  | nil => exact ⟨0, rfl⟩
  | cons hw _ ih =>
    obtain ⟨cr, pos, S, hd⟩ := hw
    obtain ⟨n, hn⟩ := ih (i + 1)
    exact ⟨(if cr then 1 else 0) + n, by simp only [eccpassFrom, hd, hn]⟩

/-- A word within one flipped bit of a code word decodes to the payload of the code word (41_calibration.md R167). -/
theorem eccdec_of_flips {w v : Half} (hw : syndrome w = 0) (hv : v = w ∨ ∃ k, k < 16 ∧ v = w ^^^ (1#16 <<< k)) :
    ∃ cr pos S, eccdec v = .ok (payloadOf w) cr pos S := by
  rcases hv with rfl | ⟨k, hk, rfl⟩
  · exact ⟨_, _, _, eccdec_codeWord hw⟩
  · exact ⟨true, eccdec_flip hw hk⟩

/-- An image of code words with at most one bit flipped in each passes with the payloads of the code words (41_calibration.md R167). -/
theorem eccpass_flips (hlen : W.length = V.length) (hW : ∀ w ∈ W, syndrome w = 0)
    (hV : ∀ (i : Nat) w, W[i]? = some w → V[i]? = some w ∨ ∃ k, k < 16 ∧ V[i]? = some (w ^^^ (1#16 <<< k))) :
    ∃ n, eccpass V = .ok (W.map payloadOf) n := by
  refine eccpassFrom_of_forall₂ (List.forall₂_iff_get.2 ⟨by simp [hlen], fun i hi hi' => ?_⟩) 0
  have hiW : i < W.length := hlen ▸ hi
  have hflip := hV i W[i] (List.getElem?_eq_getElem hiW)
  simp only [List.getElem?_eq_getElem hi, Option.some.injEq] at hflip
  simpa using eccdec_of_flips (hW W[i] (List.getElem_mem hiW)) hflip

/-- An image of code words passes with the payloads of its words. -/
theorem eccpass_codeWords (hW : ∀ w ∈ W, syndrome w = 0) : ∃ n, eccpass W = .ok (W.map payloadOf) n :=
  eccpass_flips rfl hW fun _ _ => .inl

/-- The pass over the reconstructed image cannot fail, and corrects nothing (41_calibration.md R172). -/
theorem eccpass_synthesized (W : List Half) : eccpass (synthesized W) = .ok (W.map payloadOf) 0 := by
  have hcode : ∀ v ∈ synthesized W, syndrome v = 0 := fun v hv => by
    obtain ⟨w, -, rfl⟩ := List.mem_map.1 hv
    exact syndrome_eccenc _
  have hpay : (synthesized W).map payloadOf = W.map payloadOf := by
    rw [synthesized, List.map_map]
    exact List.map_congr_left fun w _ => eccenc_payload (payloadOf w)
  obtain ⟨n, hn⟩ := eccpass_codeWords hcode
  obtain rfl : n = 0 := by rw [eccpassFrom_count hn, correctedWords_synthesized, List.length_nil]
  rw [hn, hpay]

/-- A pass stops at the lowest word that fails (41_calibration.md R166). -/
theorem eccpass_eq_err {w : Half} {S : BitVec 5} (hw : W[i]? = some w) (hd : eccdec w = .err S) (hb : decodesBelow W i) :
    eccpass W = .err i w S := by
  cases hp : eccpass W with
  | ok P n =>
    obtain ⟨hi, -⟩ := List.getElem?_eq_some_iff.1 hw
    exact absurd hd (eccpass_decodes hp i hi w hw S)
  | err j v S' =>
    obtain ⟨-, hv, hd', hb'⟩ := eccpassFrom_err hp
    rw [Nat.sub_zero] at hv hb'
    obtain rfl : i = j := by
      rcases Nat.lt_trichotomy i j with h | h | h
      · exact absurd hd (hb' i h w hw S)
      · exact h
      · exact absurd hd' (hb j h v hv S')
    obtain rfl : w = v := Option.some.inj (hw.symm.trans hv)
    obtain rfl : S = S' := EccResult.err.inj (hd.symm.trans hd')
    rfl

/-- An image with a word that does not decode fails the pass. -/
theorem eccpass_fails (h : ¬ decodesBelow W W.length) : ∃ i w S, eccpass W = .err i w S := by
  cases hp : eccpass W with
  | ok P n => exact absurd (eccpass_decodes hp) h
  | err i w S => exact ⟨i, w, S, rfl⟩

/-- Every word of an image that passes has its payload at its place. -/
theorem eccpass_getElem? {w : Half} (hp : eccpass W = .ok P n) (hw : W[i]? = some w) :
    ∃ p, P[i]? = some p ∧ ∃ cr pos S, eccdec w = .ok p cr pos S := by
  obtain ⟨hlen, hall⟩ := List.forall₂_iff_get.1 (eccpassFrom_ok hp).2
  obtain ⟨hi, rfl⟩ := List.getElem?_eq_some_iff.1 hw
  exact ⟨P[i]'(hlen ▸ hi), List.getElem?_eq_getElem (hlen ▸ hi), hall i hi (hlen ▸ hi)⟩

/-- The payload a word decodes to: its own, after the flip of the bit that its syndrome names (40_ecc.md R134, R135). -/
theorem payload_of_eccdec {w : Half} {p : Payload} {cr : Bool} {pos : BitVec 4} {S : BitVec 5} (hd : eccdec w = .ok p cr pos S) :
    (syndrome w = 0 → p = payloadOf w) ∧
      (syndrome w ≠ 0 → p = payloadOf (w ^^^ (1#16 <<< (eccPos (syndrome w)).toNat))) := by
  obtain ⟨-, -, ⟨h0, hp⟩ | ⟨h16, hp⟩⟩ := eccdec_ok hd
  · exact ⟨fun _ => hp, fun h => absurd h0 h⟩
  · exact ⟨fun h => absurd (h ▸ h16) (by decide), fun _ => hp⟩

/-- The mask of the payload bits keeps the payload (40_ecc.md R130). -/
theorem payloadOf_stripped (w : Half) : payloadOf (w &&& 0x07FF#16) = payloadOf w := by
  have hmask : (0x07FF#16).extractLsb' 0 11 = BitVec.allOnes 11 := by decide
  rw [payloadOf, BitVec.extractLsb'_and, hmask, BitVec.and_allOnes, payloadOf]

/-! ## Validation -/

section
variable {cfg : Cfg}

theorem fieldU_lt (P : List Payload) (i hi lo : Nat) : fieldU P i hi lo < 2 ^ (hi - lo + 1) := BitVec.isLt _

/-- The corner check names the lowest corner temperature that is not above its predecessor (41_calibration.md R200). -/
theorem badCorner_eq_some {npix nct : Nat} : badCorner npix P nct = some i ↔
    fieldS P (41 + i) 10 0 ≤ fieldS P (41 + (i - 1)) 10 0 ∧ (1 ≤ i ∧ i < nct) ∧
      ∀ k, 1 ≤ k → k < i → fieldS P (41 + (k - 1)) 10 0 < fieldS P (41 + k) 10 0 := by
  have hraw : ∀ k, rawField npix P (.ctRaw k) = fieldS P (41 + k) 10 0 := fun k => rfl
  have hmem : i ∈ List.range' 1 (nct - 1) ↔ 1 ≤ i ∧ i < nct := by rw [List.mem_range'_1]; omega
  simp [badCorner, List.find?_range'_eq_some, hraw, hmem]

theorem badCorner_eq_none {npix nct : Nat}
    (h : ∀ k, 1 ≤ k → k < nct → fieldS P (41 + (k - 1)) 10 0 < fieldS P (41 + k) 10 0) : badCorner npix P nct = none := by
  refine Option.eq_none_iff_forall_ne_some.2 fun i hi => ?_
  obtain ⟨hle, ⟨h1, hlt⟩, -⟩ := badCorner_eq_some.1 hi
  exact absurd (h i h1 hlt) (not_lt.2 hle)

/-! The checks V1 to V4 over the fields `NG` and `NCT` of the payloads (41_calibration.md R198 to R201). -/

theorem toNat_rawField_ng (npix : Nat) (P : List Payload) : (rawField npix P .ng).toNat = fieldU P 40 3 0 := rfl

theorem toNat_rawField_nct (npix : Nat) (P : List Payload) : (rawField npix P .nct).toNat = fieldU P 40 7 4 := rfl

theorem validate_bands (h : fieldU P 40 3 0 = 0 ∨ 8 < fieldU P 40 3 0) : validate cfg P = some (1, 0) := if_pos h

section
variable (h1 : 1 ≤ fieldU P 40 3 0) (h8 : fieldU P 40 3 0 ≤ 8)
include h1 h8

theorem validate_count (h : fieldU P 40 7 4 ≠ fieldU P 40 3 0 - 1) : validate cfg P = some (2, 0) := by
  have hbands : ¬ (fieldU P 40 3 0 = 0 ∨ 8 < fieldU P 40 3 0) := by omega
  have hcount : fieldU P 40 7 4 + 1 ≠ fieldU P 40 3 0 := by omega
  exact (if_neg hbands).trans (if_pos hcount)

variable (hnct : fieldU P 40 7 4 = fieldU P 40 3 0 - 1)
include hnct

/-- With the two counts right it is the corners, then the range, that decide. -/
theorem validate_corners (cfg : Cfg) : validate cfg P = (badCorner cfg.npix P (fieldU P 40 7 4)).elim
    (if fieldU P 40 3 0 ≤ cfg.btr then some (4, 0) else none) fun i => some (3, i) := by
  have hbands : ¬ (fieldU P 40 3 0 = 0 ∨ 8 < fieldU P 40 3 0) := by omega
  have hcount : ¬ fieldU P 40 7 4 + 1 ≠ fieldU P 40 3 0 := by omega
  refine (if_neg hbands).trans ((if_neg hcount).trans ?_)
  rw [toNat_rawField_nct]
  cases badCorner cfg.npix P (fieldU P 40 7 4) with
  | none => rfl
  | some i => rfl

end

/-- The sub-code and the index of a failed validation fit their fields of `ERRINFO`. -/
theorem validate_some_lt {sub k : Nat} (h : validate cfg P = some (sub, k)) : sub < 2 ^ 8 ∧ k < 2 ^ 8 := by
  unfold validate at h
  dsimp only at h
  split at h
  · cases h; omega
  split at h
  · cases h; omega
  split at h
  · next i hi =>
    obtain ⟨-, ⟨-, hlt⟩, -⟩ := badCorner_eq_some.1 hi
    have := fieldU_lt P 40 7 4
    rw [toNat_rawField_nct] at hlt
    cases h
    omega
  split at h
  · cases h; omega
  · cases h

end

/-- The information of a ConfigurationError, as a number (60_exceptions.md R312). -/
theorem infoConfiguration_eq {sub k : Nat} (hsub : sub < 2 ^ 8) (hk : k < 2 ^ 8) :
    infoConfiguration (BitVec.ofNat 8 sub) (BitVec.ofNat 8 k) = BitVec.ofNat 32 (256 * k + sub) := by
  apply BitVec.eq_of_toNat_eq
  show BitVec.toNat (w := 16 + 8 + 8) (0#16 ++ BitVec.ofNat 8 k ++ BitVec.ofNat 8 sub) = _
  rw [BitVec.toNat_append, BitVec.toNat_append, ← Nat.shiftLeft_add_eq_or_of_lt (BitVec.isLt _),
    ← Nat.shiftLeft_add_eq_or_of_lt (BitVec.isLt _)]
  simp only [BitVec.toNat_ofNat, Nat.shiftLeft_eq]
  omega

/-! ## From the payloads on -/

/-- Payloads that pass validation are sliced and stored (41_calibration.md R167, R204). -/
theorem calCommit_stored (hv : validate s.cfg P = none) : calCommit s P n =
    ended { s with corrCnt := BitVec.ofNat 16 n, calset := some (slice s.cfg P) } (0#16 ++ BitVec.ofNat 16 n)
      (if s.fallback then 1 else 0) := by
  rcases calCommit_cases s P n with ⟨sub, k, hs, -⟩ | ⟨-, e⟩
  · rw [hv] at hs; cases hs
  · rw [e, setWidth_eq_zero_append (k := 16)]; rfl

/-- Payloads that fail validation raise ConfigurationError and store nothing (41_calibration.md R198, R203). -/
theorem calCommit_rejected {sub k : Nat} (hv : validate s.cfg P = some (sub, k)) :
    calCommit s P n = failed { s with corrCnt := BitVec.ofNat 16 n } 4 (BitVec.ofNat 32 (256 * k + sub)) := by
  obtain ⟨hsub, hk⟩ := validate_some_lt hv
  rcases calCommit_cases s P n with ⟨sub', k', hs, e⟩ | ⟨hs, -⟩
  · rw [hv] at hs
    cases hs
    rw [e, infoConfiguration_eq hsub hk]
    rfl
  · rw [hv] at hs; cases hs

theorem calCommit_fallback (s : State) (P : List Payload) (n : Nat) : (calCommit s P n).fallback = s.fallback := by
  rcases calCommit_cases s P n with ⟨sub, k, -, e⟩ | ⟨-, e⟩
  · rw [e]; rfl
  · rw [e]; rfl

/-! ## The command -/

theorem calDecode_ok (hp : eccpass W = .ok P n) : calDecode s W = calCommit s P n := by rw [calDecode, hp]

/-- Without the fallback a failed pass is the end (41_calibration.md R166, R169). -/
theorem calDecode_err {w : Half} {S : BitVec 5} (hp : eccpass W = .err i w S) (hf : s.cfg.eccFallback = false) :
    calDecode s W = calChecksumError s i w := by
  simp only [calDecode, hp, hf, Bool.false_eq_true, if_false]

/-- With the fallback a failed pass leads to the payloads of the words as they stand (41_calibration.md R170 to R173). -/
theorem calDecode_fallback {w : Half} {S : BitVec 5} (hp : eccpass W = .err i w S) (hf : s.cfg.eccFallback = true) :
    calDecode s W = calCommit (s.setFallback true) (W.map payloadOf) 0 := by
  simp only [calDecode, hp, hf, if_true, eccpass_synthesized]

/-- CAL.LOAD while a CalibrationSet is held (41_calibration.md R162). -/
theorem exec_calLoad_calLocked (hc : s.calset.isSome = true) :
    exec .calLoad s = .next (failed { s with corrCnt := 0, fallback := false } 7 0) := by
  show execCalLoad s = _
  rw [execCalLoad, if_pos hc]
  rfl

/-- CAL.LOAD with a wrong length, which reads no cell of CALMEM (41_calibration.md R163). -/
theorem exec_calLoad_invalidData (hc : s.calset = none) (ha : s.arg0.toNat ≠ s.cfg.calBytes) :
    exec .calLoad s = .next (failed { s with corrCnt := 0, fallback := false } 2 s.arg0) := by
  show execCalLoad s = _
  rw [execCalLoad, if_neg (by simp [hc]), if_pos ha]
  rfl

section
variable (hl : Loads s W)
include hl

/-- CAL.LOAD that reaches the ECC pass, with CORRCNT and FALLBACK cleared (41_calibration.md R160). -/
theorem exec_calLoad : exec .calLoad s = .next (calDecode ((s.setCorrCnt 0).setFallback false) W) :=
  execCalLoad_image hl.free hl.length hl.image

theorem exec_calLoad_ok (hp : eccpass W = .ok P n) :
    exec .calLoad s = .next (calCommit ((s.setCorrCnt 0).setFallback false) P n) := by
  rw [exec_calLoad hl, calDecode_ok hp]

theorem exec_calLoad_stored (hp : eccpass W = .ok P n) (hv : validate s.cfg P = none) :
    exec .calLoad s = .next (ended
      { s with corrCnt := BitVec.ofNat 16 n, fallback := false, calset := some (slice s.cfg P) } (0#16 ++ BitVec.ofNat 16 n) 0) := by
  rw [exec_calLoad_ok hl hp]
  exact congrArg Host.Outcome.next (calCommit_stored hv)

theorem exec_calLoad_rejected {sub k : Nat} (hp : eccpass W = .ok P n) (hv : validate s.cfg P = some (sub, k)) :
    exec .calLoad s = .next (failed { s with corrCnt := BitVec.ofNat 16 n, fallback := false } 4
      (BitVec.ofNat 32 (256 * k + sub))) := by
  rw [exec_calLoad_ok hl hp]
  exact congrArg Host.Outcome.next (calCommit_rejected hv)

theorem exec_calLoad_fallback (hf : s.cfg.eccFallback = true) (hbad : ¬ decodesBelow W W.length) :
    exec .calLoad s = .next (calCommit ((s.setCorrCnt 0).setFallback true) (W.map payloadOf) 0) := by
  obtain ⟨i, w, S, hp⟩ := eccpass_fails hbad
  rw [exec_calLoad hl]
  exact congrArg Host.Outcome.next (calDecode_fallback hp hf)

end

/-! ## Loads that report the same -/

/-- Two ends of CAL.LOAD with the same CalibrationSet, the same flags, and the same error where there is one. -/
structure SameEnd (t u : State) : Prop where
  calset : u.calset = t.calset
  done : u.done = t.done
  err : u.err = t.err
  error : t.err = true → u.errCode = t.errCode ∧ u.errInfo = t.errInfo

/-- The end of a load depends on the count and on FALLBACK in nothing but what it reports of them. -/
theorem sameEnd_calCommit {m : Nat} (hc : b.calset = s.calset) (hv : validate b.cfg P = validate s.cfg P)
    (hs : slice b.cfg P = slice s.cfg P) : SameEnd (calCommit s P n) (calCommit b P m) := by
  cases h : validate s.cfg P with
  | none => rw [calCommit_stored h, calCommit_stored (hv.trans h), hs]; exact ⟨rfl, rfl, rfl, nofun⟩
  | some e =>
    obtain ⟨sub, k⟩ := e
    rw [calCommit_rejected h, calCommit_rejected (hv.trans h)]
    exact ⟨hc, rfl, rfl, fun _ => ⟨rfl, rfl⟩⟩

/-- Two loads of payloads that the two records validate and slice alike. -/
theorem sameEnd_loads (P : List Payload) (n m : Nat) (f g : Bool) (hs : s.calset = none) (hb : b.calset = none)
    (hv : validate b.cfg P = validate s.cfg P) (hsl : slice b.cfg P = slice s.cfg P) :
    SameEnd (calCommit ((s.setCorrCnt 0).setFallback f) P n) (calCommit ((b.setCorrCnt 0).setFallback g) P m) :=
  sameEnd_calCommit (hb.trans hs.symm) hv hsl

/-- Neither validation nor slicing reads `ECC_FALLBACK` (41_calibration.md R173, R175). -/
theorem validate_eccFallback (cfg : Cfg) (f : Bool) (P : List Payload) :
    validate { cfg with eccFallback := f } P = validate cfg P := rfl

theorem slice_eccFallback (cfg : Cfg) (f : Bool) (P : List Payload) : slice { cfg with eccFallback := f } P = slice cfg P := rfl

/-- The same of all CAL.LOAD writes, for two loads that leave the same count and the same FALLBACK. -/
structure SameReport (t u : State) : Prop extends SameEnd t u where
  res0 : u.res0 = t.res0
  res1 : u.res1 = t.res1
  corrCnt : u.corrCnt = t.corrCnt
  fallback : u.fallback = t.fallback

/-! Under the same record and with the same flags and count, both loads write the same. -/

section
variable (hcfg : b.cfg = s.cfg) (hc : b.calset = s.calset)
include hcfg hc

theorem sameReport_calCommit (hf : b.fallback = s.fallback) : SameReport (calCommit s P n) (calCommit b P n) := by
  have he : SameEnd (calCommit s P n) (calCommit b P n) := sameEnd_calCommit hc (by rw [hcfg]) (by rw [hcfg])
  cases h : validate s.cfg P with
  | none =>
    rw [calCommit_stored h, calCommit_stored (hcfg ▸ h), hf] at he ⊢
    exact ⟨he, rfl, rfl, rfl, rfl⟩
  | some e =>
    rw [calCommit_rejected h, calCommit_rejected (hcfg ▸ h)] at he ⊢
    exact ⟨he, rfl, rfl, rfl, hf⟩

theorem sameReport_calDecode (hn : b.corrCnt = s.corrCnt) (hf : b.fallback = s.fallback) (W : List Half) :
    SameReport (calDecode s W) (calDecode b W) := by
  cases hp : eccpass W with
  | ok P n =>
    rw [calDecode_ok hp, calDecode_ok hp]
    exact sameReport_calCommit hcfg hc hf
  | err i w S =>
    cases hfb : s.cfg.eccFallback with
    | false =>
      rw [calDecode_err hp hfb, calDecode_err hp (hcfg ▸ hfb)]
      exact ⟨⟨hc, rfl, rfl, fun _ => ⟨rfl, rfl⟩⟩, rfl, rfl, hn, hf⟩
    | true =>
      rw [calDecode_fallback hp hfb, calDecode_fallback hp (hcfg ▸ hfb)]
      exact sameReport_calCommit hcfg hc rfl

end

/-- The image stands in CALMEM alone (41_calibration.md R164). -/
theorem imageIs_of_cal (hW : ImageIs s W) (hcfg : b.cfg = s.cfg) (hm : b.mem.cal = s.mem.cal) : ImageIs b W where
  len := by rw [hcfg, hW.len]
  words := by rw [hcfg, hm]; exact hW.words

/-- CAL.LOAD on two states that agree in what it reads (41_calibration.md R205). -/
theorem exec_calLoad_sameReport (hcfg : b.cfg = s.cfg) (ha : b.arg0 = s.arg0) (hm : b.mem.cal = s.mem.cal)
    (hs : s.calset = none) (hb : b.calset = none) (h : exec .calLoad s = .next t) :
    ∃ u, exec .calLoad b = .next u ∧ SameReport t u := by
  rcases execCalLoad_cases h with ⟨hc, -⟩ | ⟨-, hl, rfl⟩ | ⟨-, hl, W, hW, rfl⟩
  · rw [hs] at hc; cases hc
  · refine ⟨_, exec_calLoad_invalidData hb (by rwa [ha, hcfg]), ⟨hb.trans hs.symm, rfl, rfl, fun _ => ⟨rfl, ha⟩⟩, rfl, rfl, rfl, rfl⟩
  · exact ⟨_, execCalLoad_image hb (by rw [ha, hcfg, hl]) (imageIs_of_cal hW hcfg hm),
      sameReport_calDecode (s := (s.setCorrCnt 0).setFallback false) (b := (b.setCorrCnt 0).setFallback false) hcfg
        (hb.trans hs.symm) rfl rfl W⟩

end Sys2Proof.Machine

namespace Sys2Proof.Proofs

open Sys2Proof.Machine Sys2Proof.Claims

/-- Settles O25: both tests come before the first read of CALMEM. -/
theorem calLoadRefusals : Obligations.CalLoadRefusals :=
  ⟨fun _ hc => exec_calLoad_calLocked (Option.isSome_iff_ne_none.2 hc), fun _ _ hc hl => exec_calLoad_invalidData hc hl⟩

/-- Settles O26: the pass fixes the payloads and the count, and a flipped bit leaves the payload of its code word. -/
theorem calLoadStoresTheCalibration : Obligations.CalLoadStoresTheCalibration := by
  refine ⟨fun s W P n hl hp hv => exec_calLoad_stored hl hp hv, fun W => eccpass_total, fun W P n hp => ?payloads,
    fun s b W V t hs hb hcfg hW hV ht => ?flips⟩
  case payloads =>
    refine ⟨(eccpassFrom_ok hp).2.length_eq.symm, eccpassFrom_count hp, fun i w hw => ?_⟩
    obtain ⟨p, hpi, cr, pos, S, hd⟩ := eccpass_getElem? hp hw
    exact ⟨p, hpi, ⟨cr, pos, S, hd⟩, payload_of_eccdec hd⟩
  case flips =>
    have hlen : W.length = V.length := by rw [hs.image.len, hb.image.len, hcfg]
    obtain ⟨n, hWp⟩ := eccpass_codeWords hW
    obtain ⟨m, hVp⟩ := eccpass_flips hlen hW hV
    rw [exec_calLoad_ok hs hWp] at ht
    cases ht
    have hend := sameEnd_loads (W.map payloadOf) n m false false hs.free hb.free (congrArg (validate · _) hcfg)
      (congrArg (slice · _) hcfg)
    exact ⟨_, exec_calLoad_ok hb hVp, hend.calset, hend.done, hend.err, hend.error⟩

/-- Settles O27: the pass stops at the first word that fails, and nothing comes after it. -/
theorem firstBadWordEndsTheLoad : Obligations.FirstBadWordEndsTheLoad := by
  intro s W i w S hl hf hw hd hb
  rw [exec_calLoad hl]
  exact congrArg Host.Outcome.next (calDecode_err (eccpass_eq_err hw hd hb) hf)

/-- Settles O28: the reconstructed words are code words of the bare payloads. -/
theorem fallbackTakesBarePayloads : Obligations.FallbackTakesBarePayloads := by
  refine ⟨eccpass_synthesized, fun s W hl hf hbad => ?_⟩
  rw [exec_calLoad_fallback hl hf hbad]
  exact ⟨fun hv => congrArg Host.Outcome.next (calCommit_stored hv),
    fun sub k hv => congrArg Host.Outcome.next (calCommit_rejected hv)⟩

/-- Settles O29: both loads slice the low eleven bits of the words, and neither validation nor slicing reads ECC_FALLBACK. -/
theorem strippedImageLoadsTheSame : Obligations.StrippedImageLoadsTheSame := by
  intro s b W hs hb hcfg hW hbad
  have hpay : (W.map fun w => w &&& 0x07FF#16).map payloadOf = W.map payloadOf := by
    rw [List.map_map]
    exact List.map_congr_left fun w _ => payloadOf_stripped w
  obtain ⟨n, hp⟩ := eccpass_codeWords hW
  have hbad' : ¬ decodesBelow (W.map fun w => w &&& 0x07FF#16) (W.map fun w => w &&& 0x07FF#16).length := by
    rwa [List.length_map]
  have hload := exec_calLoad_fallback hb (by rw [hcfg]) hbad'
  rw [hpay] at hload
  have hend := sameEnd_loads (W.map payloadOf) n 0 false true hs.free hb.free (by rw [hcfg, validate_eccFallback])
    (by rw [hcfg, slice_eccFallback])
  exact ⟨_, _, exec_calLoad_ok hs hp, hload, hend.calset, calCommit_fallback _ _ _, hend.done⟩

/-- Settles O30: by the first of the checks that fails, or the load when none does. -/
theorem validationReportsTheFirstFailure : Obligations.ValidationReportsTheFirstFailure := by
  intro s W P n hl hp
  refine ⟨fun h => ?bands, fun h1 h8 h => ?count, fun h1 h8 h i hi hlt hle hbelow => ?corner, fun h1 h8 h hrising => ?range⟩
  case bands => exact exec_calLoad_rejected hl hp (validate_bands h)
  case count => exact exec_calLoad_rejected hl hp (validate_count h1 h8 h)
  case corner =>
    refine exec_calLoad_rejected hl hp ?_
    rw [validate_corners h1 h8 h, badCorner_eq_some.2 ⟨hle, ⟨hi, hlt⟩, hbelow⟩, Option.elim_some]
  case range =>
    have hv := validate_corners h1 h8 h s.cfg
    rw [badCorner_eq_none hrising, Option.elim_none] at hv
    refine ⟨fun hbtr => ?_, fun hbtr => ?_⟩
    · rw [if_pos hbtr] at hv
      exact exec_calLoad_rejected hl hp hv
    · rw [if_neg (Nat.not_le.2 hbtr)] at hv
      exact ⟨_, exec_calLoad_stored hl hp hv, rfl, rfl⟩

/-- Settles O34: the three ends of CAL.LOAD are told apart by `CAL_VALID`, ARG0 and the image, and SYS.RESET keeps the record and CALMEM. -/
theorem calLoadIsDeterministic : Obligations.CalLoadIsDeterministic := by
  refine ⟨fun s s' t hcfg ha hm hc h => ?agree, fun s t u hc h hr => ?again⟩
  case agree =>
    cases hs : s.calset with
    | some c =>
      have hsome : s.calset.isSome = true := by rw [hs, Option.isSome_some]
      rw [exec_calLoad_calLocked hsome] at h
      cases h
      exact ⟨_, exec_calLoad_calLocked (hc.trans hsome), rfl, rfl, rfl, rfl, rfl, rfl, nofun, fun _ => ⟨rfl, rfl⟩⟩
    | none =>
      have hs' : s'.calset = none := by rwa [hs, Option.isSome_none, Option.isSome_eq_false_iff, Option.isNone_iff_eq_none] at hc
      obtain ⟨u, hu, hsame⟩ := exec_calLoad_sameReport hcfg ha hm hs hs' h
      exact ⟨u, hu, hsame.err, hsame.done, hsame.res0, hsame.res1, hsame.corrCnt, hsame.fallback, fun _ => hsame.calset,
        hsame.error⟩
  case again =>
    have hran := exec_ran h
    have hcfg : t.cfg = s.cfg := congrArg CheckedCfg.record hran.config
    cases hr
    obtain ⟨v, hv, hsame⟩ := exec_calLoad_sameReport (b := { t.clearAll.finish 0 0 with arg0 := s.arg0 }) hcfg rfl
      hran.inputBuffers.1 hc rfl h
    exact ⟨v, hv, hsame.calset, hsame.corrCnt, hsame.fallback⟩

end Sys2Proof.Proofs
end

section
/-! PROOFS. The constants and the resolution correction of the geometry unit (42_geometry.md R222, R238): O35 and O42. -/

namespace Sys2Proof.Machine

variable {s : State}

open Sys2Proof.Claims

/-! ## The ends of the commands that list nothing -/

theorem exec_geoConst (idx : Half) (ap : AccessPattern) (s : State) : exec (.geoConst idx ap) s =
    .next ((geoConstant s.cfg idx.toNat ap).elim (failed s 8 (infoIllegal s.cmd)) fun v => ended s v 0) := by
  show execGeoConst idx ap s = _
  unfold execGeoConst
  cases geoConstant s.cfg idx.toNat ap with
  | none => rfl
  | some v => rfl

theorem exec_geoRescorr (s : State) :
    exec .geoRescorr s = .next (ended s (rescorr s.cfg (rescCalOf s) (rescCurOf s)) 0) := rfl

/-! ## The table of constants -/

/-- The constants of GEO.CONST in the order of their selectors (42_geometry.md R222). -/
def geoConstants (c : Cfg) (ap : AccessPattern) : List Word :=
  [BitVec.ofNat 32 c.height, BitVec.ofNat 32 c.width, BitVec.ofNat 32 c.npix,
    0#16 ++ c.taVbeAddr, 0#16 ++ c.taPtatAddr, 0#16 ++ c.gainAddr, 0#16 ++ c.vddPixAddr,
    0#16 ++ c.cpAddr0, 0#16 ++ c.cpAddr1, c.selfHeating, BitVec.ofNat 32 c.btr,
    0#16 ++ c.calBase, BitVec.ofNat 32 c.calWords, 0#16 ++ c.pixBase, 0#16 ++ c.statusAddr,
    BitVec.ofNat 32 c.variant.val, if c.eccFallback = true then 1#32 else 0#32, BitVec.ofNat 32 (c.nsub ap)]

theorem geoConstant_eq_getElem? (c : Cfg) (ap : AccessPattern) :
    ∀ n, geoConstant c n ap = (geoConstants c ap)[n]?
  | 3 | 4 | 5 | 6 | 7 | 8 | 11 | 13 | 14 => congrArg some (setWidth_eq_zero_append (k := 16) _)
  | 0 | 1 | 2 | 9 | 10 | 12 | 15 | 16 | 17 | _ + 18 => rfl

/-- The table has eighteen rows (42_geometry.md R222). -/
theorem geoConstant_eq_none (c : Cfg) (ap : AccessPattern) {n : Nat} (hn : 17 < n) : geoConstant c n ap = none := by
  rw [geoConstant_eq_getElem?]
  exact List.getElem?_eq_none hn

/-! ## The table of factors -/

/-- Entry `4 * cal + cur` of the table is `pow2(cal - cur)` (42_geometry.md R238). -/
theorem rescorr_pow2Rescorr {c : Cfg} (hc : c.rescorrTable = Cfg.pow2Rescorr) (cal cur : BitVec 2) :
    rescorr c cal cur = pow2 ((cal.toNat : Int) - (cur.toNat : Int)) := by
  rw [rescorr, hc]
  revert cal cur
  decide

/-- The records the spec fixes have one table (00_scope.md R12, R13). -/
theorem rescorrTable_fixed :
    ∀ c ∈ [Cfg.VA, Cfg.VB, Cfg.VC, Cfg.VT, Cfg.VTF], c.rescorrTable = Cfg.pow2Rescorr := by
  decide

/-- The seven powers of two from 0.125 up to 8 (42_geometry.md R238). -/
theorem pow2_patterns (cal cur : BitVec 2) :
    [0x3E000000#32, 0x3E800000#32, 0x3F000000#32, 0x3F800000#32, 0x40000000#32, 0x40800000#32,
      0x41000000#32][(cal.toNat + 3) - cur.toNat]? = some (pow2 ((cal.toNat : Int) - (cur.toNat : Int))) := by
  revert cal cur
  decide

end Sys2Proof.Machine

namespace Sys2Proof.Proofs

open Sys2Proof.Machine

/-- Settles O35: a selector of the table names its row, and every other selector none. -/
theorem geoConstTable : Obligations.GeoConstTable := by
  intro s idx ap
  refine ⟨fun v hv => ?_, fun hidx => ?_⟩
  · rw [exec_geoConst, (geoConstant_eq_getElem? s.cfg ap idx.toNat).trans hv]
    rfl
  · rw [exec_geoConst, geoConstant_eq_none s.cfg ap hidx]
    rfl

/-- Settles O42: the fixed records share the table of powers of two. -/
theorem geoRescorrGivesTheFactor : Obligations.GeoRescorrGivesTheFactor := by
  refine ⟨exec_geoRescorr, fun cal cur c hc => rescorr_pow2Rescorr (rescorrTable_fixed c hc) cal cur, fun cal cur => ?_⟩
  rw [pow2_patterns, rescorr_pow2Rescorr rfl]

end Sys2Proof.Proofs
end

section
/-! PROOFS. The subpage of a pixel and the member counts (42_geometry.md R225, R226, R229, R230): O37 and O38. -/

namespace Sys2Proof.Machine

variable {c : Cfg} {ap : AccessPattern}

/-! ## The subpage of a pixel -/

theorem spOf_one (h : c.nsub ap = 1) (p : Nat) : spOf c ap p = 0 := if_pos h

theorem spOf_interleaved (h : c.nsub .interleaved = 2) (p : Nat) : spOf c .interleaved p = p / c.width % 2 :=
  if_neg (by rw [h]; decide)

theorem spOf_chess (h : c.nsub .chess = 2) (p : Nat) : spOf c .chess p = (p / c.width + p % c.width) % 2 :=
  if_neg (by rw [h]; decide)

theorem member_eq_true {sp p : Nat} : member c sp ap p = true ↔ spOf c ap p = sp := decide_eq_true_iff

/-- Subpage 1 holds the pixels that subpage 0 does not (42_geometry.md R229). -/
theorem member_one (p : Nat) : member c 1 ap p = !member c 0 ap p := by
  have := spOf_lt_two (c := c) (ap := ap) p
  rw [Bool.eq_iff_iff, Bool.not_eq_true', ← Bool.not_eq_true, member_eq_true, member_eq_true]
  omega

/-- The two subpages share out the pixels (42_geometry.md R229). -/
theorem nmem_zero_add_nmem_one : nmem c 0 ap + nmem c 1 ap = c.npix := by
  have h := List.length_eq_length_filter_add (l := List.range c.npix) (member c 0 ap)
  rw [List.length_range] at h
  simp only [nmem, members, funext (member_one (c := c) (ap := ap)), ← h]

/-! ## The member counts of two subpages -/

/-- Pixel `k` of row `r` (42_geometry.md R224). -/
theorem row_col_of_lt {w k : Nat} (r : Nat) (hk : k < w) : (r * w + k) / w = r ∧ (r * w + k) % w = k :=
  ⟨by rw [Nat.add_comm, Nat.add_mul_div_right _ _ (by omega), Nat.div_eq_of_lt hk, Nat.zero_add],
    Nat.mul_add_mod_of_lt hk⟩

/-- A row is whole in subpage 0 of the interleaved pattern, or not at all (42_geometry.md R225). -/
theorem rank_row_interleaved (h : c.nsub .interleaved = 2) (r : Nat) {k : Nat} (hk : k ≤ c.width) :
    rank c 0 .interleaved (r * c.width + k) = rank c 0 .interleaved (r * c.width) + if r % 2 = 0 then k else 0 := by
  induction k with
  | zero => simp
  | succ k ih =>
    obtain ⟨hrow, -⟩ := row_col_of_lt r hk
    rw [← Nat.add_assoc, rank_succ, ih (by omega)]
    simp only [member_eq_true, spOf_interleaved h, hrow]
    split <;> rfl

theorem rank_interleaved (h : c.nsub .interleaved = 2) (r : Nat) :
    rank c 0 .interleaved (r * c.width) = (r + 1) / 2 * c.width := by
  induction r with
  | zero => simp [rank]
  | succ r ih =>
    rw [Nat.succ_mul, rank_row_interleaved h r (Nat.le_refl _), ih]
    rcases Nat.mod_two_eq_zero_or_one r with he | ho
    · rw [if_pos he, ← Nat.succ_mul, show (r + 1 + 1) / 2 = (r + 1) / 2 + 1 by omega]
    · rw [if_neg (by omega), show (r + 1 + 1) / 2 = (r + 1) / 2 by omega, Nat.add_zero]

/-- Every other pixel of a row is in subpage 0 of the chess pattern, from the first pixel on in the even rows (42_geometry.md R225). -/
theorem rank_row_chess (h : c.nsub .chess = 2) (r : Nat) {k : Nat} (hk : k ≤ c.width) :
    rank c 0 .chess (r * c.width + k) = rank c 0 .chess (r * c.width) + (k + 1 - r % 2) / 2 := by
  induction k with
  | zero => rw [Nat.add_zero]; omega
  | succ k ih =>
    obtain ⟨hrow, hcol⟩ := row_col_of_lt r hk
    rw [← Nat.add_assoc, rank_succ, ih (by omega)]
    simp only [member_eq_true, spOf_chess h, hrow, hcol]
    split
    · omega
    · omega

theorem rank_chess (h : c.nsub .chess = 2) (r : Nat) :
    rank c 0 .chess (r * c.width) = (r * c.width + 1) / 2 := by
  induction r with
  | zero => simp [rank]
  | succ r ih =>
    rw [Nat.succ_mul, rank_row_chess h r (Nat.le_refl _), ih]
    have hpar : r * c.width % 2 = r % 2 * (c.width % 2) % 2 := Nat.mul_mod _ _ _
    rcases Nat.mod_two_eq_zero_or_one r with he | ho
    · rw [he, Nat.zero_mul] at hpar
      omega
    · rw [ho, Nat.one_mul] at hpar
      omega

theorem nmem_eq_rank (sp : Nat) : nmem c sp ap = rank c sp ap c.npix := rfl

/-- The even rows (42_geometry.md R230). -/
theorem nmem_interleaved (hw : c.wf) (h : c.nsub .interleaved = 2) :
    nmem c 0 .interleaved = (c.height + 1) / 2 * c.width := by
  obtain ⟨-, -, hn, -⟩ := hw
  rw [nmem_eq_rank, hn, rank_interleaved h]

/-- The larger half of the pixels (42_geometry.md R230). -/
theorem nmem_chess (hw : c.wf) (h : c.nsub .chess = 2) : nmem c 0 .chess = (c.npix + 1) / 2 := by
  obtain ⟨-, -, hn, -⟩ := hw
  rw [nmem_eq_rank, hn, rank_chess h]

/-- A subpage 0 of half the pixels leaves the other half to subpage 1 (42_geometry.md R229). -/
theorem nmem_of_half {n : Nat} (hn : c.npix = 2 * n) (h : nmem c 0 ap = n) (sp : Fin 2) : nmem c sp.val ap = n := by
  have hsum := nmem_zero_add_nmem_one (c := c) (ap := ap)
  match sp with
  | 0 => exact h
  | 1 => show nmem c 1 ap = n; omega

/-- In a grid of an even number of rows both patterns halve the pixels (42_geometry.md R230). -/
theorem nmem_even_rows {r : Nat} (hw : c.wf) (hr : c.height = 2 * r) (h : ∀ ap, c.nsub ap = 2) (sp : Fin 2)
    (ap : AccessPattern) : nmem c sp.val ap = r * c.width := by
  have hn : c.npix = 2 * (r * c.width) := by
    obtain ⟨-, -, hn, -⟩ := hw
    rw [hn, hr, Nat.mul_assoc]
  refine nmem_of_half hn ?_ sp
  cases ap with
  | interleaved => rw [nmem_interleaved hw (h _), hr, show (2 * r + 1) / 2 = r by omega]
  | chess => rw [nmem_chess hw (h _), hn]; omega

end Sys2Proof.Machine

namespace Sys2Proof.Proofs

open Sys2Proof.Machine

/-- Settles O37: there are two subpages, and a pixel that is not in the one is in the other. -/
theorem subpagesPartitionThePixels : Obligations.SubpagesPartitionThePixels := by
  refine ⟨fun c ap p h => spOf_one h p, fun c p h => spOf_interleaved h p, fun c p h => spOf_chess h p, fun c ap p => ?_,
    fun c ap => nmem_zero_add_nmem_one⟩
  rw [member_one]
  cases member c 0 ap p with
  | true => exact .inl ⟨rfl, rfl⟩
  | false => exact .inr ⟨rfl, rfl⟩

/-- Settles O38: the members of subpage 0 are counted row by row; the fixed records have an even number of rows. -/
theorem memberCounts : Obligations.MemberCounts := by
  refine ⟨fun sp ap => ⟨?_, ?_, ?_, ?_⟩, fun c => nmem_interleaved, fun c => nmem_chess⟩
  · exact nmem_even_rows (c := Cfg.VA) (r := 6) CheckedCfg.VA.ok rfl (fun ap => by cases ap <;> rfl) sp ap
  · exact nmem_even_rows (c := Cfg.VB) (r := 6) CheckedCfg.VB.ok rfl (fun ap => by cases ap <;> rfl) sp ap
  · exact nmem_even_rows (c := Cfg.VC) (r := 12) CheckedCfg.VC.ok rfl (fun ap => by cases ap <;> rfl) sp ap
  · exact nmem_even_rows (c := Cfg.VT) (r := 1) CheckedCfg.VT.ok rfl (fun ap => by cases ap <;> rfl) sp ap

end Sys2Proof.Proofs
end

section
/-! PROOFS. What GEO.MEMBER and GEO.RANGES write into GEOMEM (42_geometry.md R227, R228, R233, R234): O36 and O39. -/

namespace Sys2Proof.Machine

variable {c : Cfg} {sp : Nat} {ap : AccessPattern}

open Sys2Proof.Claims

/-- A list of words written from cell 0 is read back. -/
theorem readCell_writeCells_inside {w j : Nat} (m : List (Nat × BitVec w)) {ws : List (BitVec w)} (hj : j < ws.length) :
    readCell (writeCells m 0 ws) j = ws[j]? := by
  rw [readCell_writeCells, if_pos (by omega), Nat.sub_zero]

/-! ## The bitmap -/

theorem exec_geoMember (sp : BitVec 1) (ap : AccessPattern) (s : State) : exec (.geoMember sp ap) s =
    .next (ended { s with mem := { s.mem with geo := writeCells s.mem.geo 0 (memberWords s.cfg sp.toNat ap) } }
      (BitVec.ofNat 32 (nmem s.cfg sp.toNat ap)) 0) := rfl

theorem length_memberWords : (memberWords c sp ap).length = flagWords c := by simp [memberWords]

theorem getElem?_memberWords {j : Nat} (hj : j < flagWords c) :
    (memberWords c sp ap)[j]? = some (packBits c.npix (member c sp ap) j) := by
  simp [memberWords, hj]

/-- GEO.MEMBER leaves word `j` of the bitmap in cell `j` (42_geometry.md R227). -/
theorem readCell_memberWords (m : List (Nat × Half)) {j : Nat} (hj : j < flagWords c) :
    readCell (writeCells m 0 (memberWords c sp ap)) j = some (packBits c.npix (member c sp ap) j) := by
  rw [readCell_writeCells_inside m (hj.trans_eq length_memberWords.symm), getElem?_memberWords hj]

/-! ## The span words -/

theorem exec_geoRanges (sp : BitVec 1) (ap : AccessPattern) (s : State) : exec (.geoRanges sp ap) s =
    .next (ended { s with mem := { s.mem with geo := writeCells s.mem.geo 0 (spanWords (spans s.cfg sp.toNat ap)) } }
      (BitVec.ofNat 32 (spans s.cfg sp.toNat ap).length) (BitVec.ofNat 32 (nmem s.cfg sp.toNat ap))) := rfl

/-- GEO.RANGES leaves span `k` in cells `2k` and `2k + 1` (42_geometry.md R234). -/
theorem readCell_spanWords (m : List (Nat × Half)) {l : List (Nat × Nat)} {k : Nat} {x : Nat × Nat}
    (hx : l[k]? = some x) :
    readCell (writeCells m 0 (spanWords l)) (2 * k) = some (BitVec.ofNat 16 x.1) ∧
      readCell (writeCells m 0 (spanWords l)) (2 * k + 1) = some (BitVec.ofNat 16 x.2) := by
  obtain ⟨hk, -⟩ := List.getElem?_eq_some_iff.1 hx
  obtain ⟨h1, h2⟩ := getElem?_spanWords l k
  have hlen := length_spanWords l
  rw [readCell_writeCells_inside m (by omega), readCell_writeCells_inside m (by omega), h1, h2, hx]
  exact ⟨rfl, rfl⟩

end Sys2Proof.Machine

namespace Sys2Proof.Proofs

open Sys2Proof.Machine

/-- Settles O36: the words of the bitmap are packed from the membership, and stand in the cells from 0 on. -/
theorem geoMemberWritesTheBitmap : Obligations.GeoMemberWritesTheBitmap := by
  intro s sp ap
  refine ⟨_, exec_geoMember sp ap s, fun j hj => ⟨_, readCell_memberWords _ hj, fun i hi => ?_⟩, fun j hj => ?_⟩
  · exact getLsbD_packBits _ _ j i hi
  · exact readCell_writeCells_beyond _ (length_memberWords.trans_le hj)

/-- Settles O39: the span words stand in the cells from 0 on. -/
theorem geoRangesWritesTheSpans : Obligations.GeoRangesWritesTheSpans := by
  intro s sp ap
  refine ⟨_, exec_geoRanges sp ap s, fun k a l hk => readCell_spanWords _ hk, fun j hj => ?_⟩
  exact readCell_writeCells_beyond _ ((length_spanWords _).trans_le hj)

end Sys2Proof.Proofs
end

section
/-! PROOFS. The spans are the maximal runs of member addresses, and agree with the bitmap (42_geometry.md R232 to R235, R243): O40 and O41. -/

namespace Sys2Proof.Machine

variable {c : Cfg} {sp : Nat} {ap : AccessPattern}

/-! ## The addresses and the lengths -/

/-- The words of the spans are the member addresses in ascending order (42_geometry.md R234). -/
theorem spanAddrs_spans : spanAddrs (spans c sp ap) = (members c sp ap).map (pixAddr c) :=
  spanAddrs_spansFrom none (List.range c.npix)

theorem length_spanAddrs (l : List (Nat × Nat)) : (spanAddrs l).length = (l.map fun x => x.2).sum := by
  simp [spanAddrs, List.length_flatMap]

/-- The lengths add up to the number of members (42_geometry.md R234). -/
theorem sum_spans : ((spans c sp ap).map fun x => x.2).sum = nmem c sp ap := by
  rw [← length_spanAddrs, spanAddrs_spans, List.length_map, nmem]

/-- Consecutive spans do not touch (42_geometry.md R234). -/
theorem spans_separated : (spans c sp ap).Pairwise (fun x y => x.1 + x.2 < y.1) := by
  obtain ⟨⟨hsep, -⟩, -⟩ := spansFrom_separated (c := c) (sp := sp) (ap := ap) 0 c.npix
  rwa [spans, List.range_eq_range']

/-- No span is empty (42_geometry.md R234). -/
theorem one_le_of_mem_spans {x : Nat × Nat} (hx : x ∈ spans c sp ap) : 1 ≤ x.2 := by
  rw [spans, List.range_eq_range'] at hx
  obtain ⟨⟨-, hpos⟩, -⟩ := spansFrom_separated (c := c) (sp := sp) (ap := ap) 0 c.npix
  obtain ⟨hlen, -⟩ := hpos x hx
  exact hlen

/-- Two cells for each span fit GEOMEM (42_geometry.md R234). -/
theorem length_spans : 2 * (spans c sp ap).length ≤ c.npix + 1 := by
  rw [spans, List.range_eq_range']
  exact (length_spansFrom 0 c.npix).1

/-! ## The position of a member -/

/-- A member stands among the members at its rank (42_geometry.md R226). -/
theorem getElem?_members_below {n p : Nat} (hp : p < n) (hm : member c sp ap p = true) :
    ((List.range n).filter (member c sp ap))[rank c sp ap p]? = some p := by
  induction n with
  | zero => cases hp
  | succ n ih =>
    rw [List.range_succ, List.filter_append]
    rcases Nat.lt_succ_iff_lt_or_eq.1 hp with hlt | rfl
    · have h := ih hlt
      obtain ⟨hk, -⟩ := List.getElem?_eq_some_iff.1 h
      rw [List.getElem?_append_left hk, h]
    · have hlen : ((List.range p).filter (member c sp ap)).length = rank c sp ap p := rfl
      rw [List.getElem?_append_right hlen.le, hlen, Nat.sub_self, List.filter_cons_of_pos hm, List.getElem?_cons_zero]

/-- A member's address stands among the words of the spans at its rank (42_geometry.md R235). -/
theorem getElem?_spanAddrs_rank {p : Nat} (hp : p < c.npix) (hm : member c sp ap p = true) :
    (spanAddrs (spans c sp ap))[rank c sp ap p]? = some (pixAddr c p) := by
  rw [spanAddrs_spans, List.getElem?_map, members, getElem?_members_below hp hm, Option.map_some]

/-! ## Where one subpage holds every pixel -/

/-- No member, no span (42_geometry.md R233). -/
theorem spansFrom_no_member {ps : List Nat} (h : ∀ p ∈ ps, member c sp ap p = false) : spansFrom c sp ap none ps = [] := by
  induction ps with
  | nil => rfl
  | cons p ps ih =>
    rw [spansFrom, if_neg (by simp [h p])]
    exact ih fun q hq => h q (List.mem_cons_of_mem p hq)

/-- While every pixel is a member the open span grows (42_geometry.md R233). -/
theorem spansFrom_all_members (h : ∀ p, member c sp ap p = true) (n : Nat) {k a l : Nat} (ha : a + l = pixAddr c k) :
    spansFrom c sp ap (some (a, l)) (List.range' k n) = [(a, l + n)] := by
  induction n generalizing k l with
  | zero => rfl
  | succ n ih =>
    have hnext : a + (l + 1) = pixAddr c (k + 1) := by simp only [pixAddr] at ha ⊢; omega
    rw [List.range'_succ, spansFrom, if_pos (h k), if_pos ha, ih hnext, Nat.add_assoc, Nat.add_comm 1 n]

/-- One subpage: the other is empty (42_geometry.md R233). -/
theorem spans_one_subpage_empty (h : c.nsub ap = 1) : spans c 1 ap = [] :=
  spansFrom_no_member fun p _ => by simp [member, spOf_one h]

/-- One subpage: a single span of every pixel (42_geometry.md R233). -/
theorem spans_one_subpage_full (h : c.nsub ap = 1) (hn : 1 ≤ c.npix) : spans c 0 ap = [(c.pixBase.toNat, c.npix)] := by
  have hall : ∀ p, member c 0 ap p = true := fun p => member_eq_true.2 (spOf_one h p)
  obtain ⟨n, hn⟩ := Nat.exists_eq_add_of_le' hn
  have hfirst : pixAddr c 0 + 1 = pixAddr c (0 + 1) := by simp only [pixAddr, Nat.add_zero, Nat.zero_add]
  rw [spans, List.range_eq_range', hn, List.range'_succ, spansFrom, if_pos (hall 0), spansFrom_all_members hall n hfirst,
    Nat.add_comm 1 n]
  rfl

/-! ## The set bits of the bitmap -/

theorem pixIndex_pixAddr {p : Nat} (hp : p < c.npix) : pixIndex c (pixAddr c p) = some p := by
  have hin : c.pixBase.toNat ≤ pixAddr c p ∧ pixAddr c p < c.pixBase.toNat + c.npix := by simp only [pixAddr]; omega
  rw [pixIndex, if_pos hin, pixAddr, Nat.add_sub_cancel_left]

/-- The words of the spans are the addresses of the members (42_geometry.md R243). -/
theorem map_pixIndex_spanAddrs : (spanAddrs (spans c sp ap)).map (pixIndex c) = (members c sp ap).map some := by
  rw [spanAddrs_spans, List.map_map]
  exact List.map_congr_left fun p hp => pixIndex_pixAddr (members_lt hp)

/-- Positions past the end are never kept. -/
theorem filter_range_below {n N : Nat} (f : Nat → Bool) (h : n ≤ N) :
    ((List.range N).filter fun b => decide (b < n) && f b) = (List.range n).filter f := by
  obtain ⟨k, rfl⟩ := Nat.exists_eq_add_of_le h
  have hlow : ∀ b ∈ List.range n, (decide (b < n) && f b) = f b := fun b hb => by simp [List.mem_range.1 hb]
  have hhigh : ∀ b ∈ (List.range k).map (n + ·), ¬ (decide (b < n) && f b) = true := by simp
  rw [List.range_add, List.filter_append, List.filter_congr hlow, List.filter_eq_nil_iff.2 hhigh, List.append_nil]

/-- The set bit positions of words that hold the bitmap are the members (42_geometry.md R228). -/
theorem filter_bitmap {word : Nat → Half}
    (h : ∀ j, j < flagWords c → word j = packBits c.npix (member c sp ap) j) :
    ((List.range (16 * flagWords c)).filter fun b => (word (b / 16)).getLsbD (b % 16)) = members c sp ap := by
  have hbit : ∀ b ∈ List.range (16 * flagWords c),
      (word (b / 16)).getLsbD (b % 16) = (decide (b < c.npix) && member c sp ap b) := fun b hb => by
    have hb := List.mem_range.1 hb
    rw [h _ (by omega), getLsbD_packBits _ _ _ _ (Nat.mod_lt b (by omega)), Nat.div_add_mod]
  rw [List.filter_congr hbit, filter_range_below _ (by simp only [flagWords]; omega)]
  rfl

/-- The words of the spans are the set bits of words that hold the bitmap (42_geometry.md R243). -/
theorem map_pixIndex_spanAddrs_eq_bits {word : Nat → Half}
    (h : ∀ j, j < flagWords c → word j = packBits c.npix (member c sp ap) j) :
    (spanAddrs (spans c sp ap)).map (pixIndex c) =
      ((List.range (16 * flagWords c)).filter fun b => (word (b / 16)).getLsbD (b % 16)).map some := by
  rw [map_pixIndex_spanAddrs, filter_bitmap h]

/-! ## Spans read back from 16-bit cells -/

/-- A span lies in the pixel window (42_geometry.md R231). -/
theorem span_in_window {x : Nat × Nat} (hx : x ∈ spans c sp ap) : x.1 + x.2 ≤ c.pixBase.toNat + c.npix ∧ x.2 ≤ c.npix := by
  have hpos := one_le_of_mem_spans hx
  have haddr : ∀ a ∈ List.range' x.1 x.2, c.pixBase.toNat ≤ a ∧ a < c.pixBase.toNat + c.npix := fun a ha => by
    have hin : a ∈ spanAddrs (spans c sp ap) := List.mem_flatMap.2 ⟨x, hx, ha⟩
    rw [spanAddrs_spans] at hin
    obtain ⟨p, hp, rfl⟩ := List.mem_map.1 hin
    have := members_lt hp
    simp only [pixAddr]
    omega
  have hfirst := haddr x.1 (by rw [List.mem_range'_1]; omega)
  have hlast := haddr (x.1 + x.2 - 1) (by rw [List.mem_range'_1]; omega)
  omega

/-- A list of blocks, one for each position of `l`, is one of blocks for the entries. -/
theorem flatMap_range_length {α β : Type} {f : Nat → List β} {g : α → List β} (l : List α)
    (h : ∀ k x, l[k]? = some x → f k = g x) : (List.range l.length).flatMap f = l.flatMap g := by
  induction l generalizing f with
  | nil => rfl
  | cons x xs ih =>
    rw [List.length_cons, List.range_succ_eq_map, List.flatMap_cons, List.flatMap_map, List.flatMap_cons, h 0 x rfl,
      ih fun k y hy => h (k + 1) y hy]

/-- The cells of GEO.RANGES, expanded, are the words of the spans, where no address and no length is cut (log 18). -/
theorem expand_spanCells (m : List (Nat × Half)) {l : List (Nat × Nat)} (h : ∀ x ∈ l, x.1 < 2 ^ 16 ∧ x.2 < 2 ^ 16) :
    ((List.range l.length).flatMap fun k =>
      List.range' ((readCell (writeCells m 0 (spanWords l)) (2 * k)).getD 0).toNat
        ((readCell (writeCells m 0 (spanWords l)) (2 * k + 1)).getD 0).toNat) = spanAddrs l := by
  refine flatMap_range_length l fun k x hx => ?_
  obtain ⟨h1, h2⟩ := h x (List.mem_of_getElem? hx)
  obtain ⟨hstart, hlen⟩ := readCell_spanWords m hx
  rw [hstart, hlen, Option.getD_some, Option.getD_some, BitVec.toNat_ofNat, BitVec.toNat_ofNat, Nat.mod_eq_of_lt h1,
    Nat.mod_eq_of_lt h2]

/-- Of a record that passed the check, a window inside the 16-bit space leaves no address and no length to cut (20_memory.md R75, log 18). -/
theorem spans_uncut (hw : c.wf) (hin : c.pixBase.toNat + c.npix ≤ 65536) :
    ∀ x ∈ spans c sp ap, x.1 < 2 ^ 16 ∧ x.2 < 2 ^ 16 := by
  obtain ⟨-, -, -, hmax, -⟩ := hw
  intro x hx
  have hpos := one_le_of_mem_spans hx
  have hwin := span_in_window hx
  omega

/-- The number of spans fits RES0 (42_geometry.md R234). -/
theorem toNat_length_spans (hw : c.wf) :
    (BitVec.ofNat 32 (spans c sp ap).length).toNat = (spans c sp ap).length := by
  obtain ⟨-, -, -, hmax, -⟩ := hw
  have hlen := length_spans (c := c) (sp := sp) (ap := ap)
  rw [BitVec.toNat_ofNat, Nat.mod_eq_of_lt (by omega)]

variable {s t : State} {b : BitVec 1}

theorem geoRanges_leaves (h : exec (.geoRanges b ap) s = .next t) :
    t.res0 = BitVec.ofNat 32 (spans s.cfg b.toNat ap).length ∧
      t.mem.geo = writeCells s.mem.geo 0 (spanWords (spans s.cfg b.toNat ap)) := by
  rw [exec_geoRanges] at h
  cases h
  exact ⟨rfl, rfl⟩

theorem geoMember_leaves (h : exec (.geoMember b ap) s = .next t) :
    t.mem.geo = writeCells s.mem.geo 0 (memberWords s.cfg b.toNat ap) := by
  rw [exec_geoMember] at h
  cases h
  rfl

end Sys2Proof.Machine

namespace Sys2Proof.Proofs

open Sys2Proof.Machine

/-- Settles O40: by what the span loop emits over the pixels in ascending order. -/
theorem spansAreMaximalRuns : Obligations.SpansAreMaximalRuns := by
  intro c sp ap
  refine ⟨spanAddrs_spans, sum_spans, spans_separated, fun x => one_le_of_mem_spans, length_spans, fun p hp hm => ?_,
    fun h hsp => ?_, fun h hsp hn => ?_⟩
  · exact getElem?_spanAddrs_rank hp (member_eq_true.2 hm)
  · subst hsp; exact spans_one_subpage_empty h
  · subst hsp; exact spans_one_subpage_full h hn

/-- Settles O41: both lists are the members; in a window inside the 16-bit space the cells of GEO.RANGES hold the spans uncut. -/
theorem spansAgreeWithTheBitmap : Obligations.SpansAgreeWithTheBitmap := by
  refine ⟨fun c sp ap => ?sequence, fun s sp ap t u hwindow ht hu => ?cells⟩
  case sequence =>
    refine map_pixIndex_spanAddrs_eq_bits (word := fun j => (memberWords c sp.toNat ap).getD j 0) fun j hj => ?_
    rw [List.getD_eq_getElem?_getD, getElem?_memberWords hj, Option.getD_some]
  case cells =>
    obtain ⟨hcount, hranges⟩ := geoRanges_leaves ht
    rw [hcount, hranges, geoMember_leaves hu, toNat_length_spans s.config.ok,
      expand_spanCells _ (spans_uncut s.config.ok hwindow)]
    refine map_pixIndex_spanAddrs_eq_bits
      (word := fun j => (readCell (writeCells s.mem.geo 0 (memberWords s.cfg sp.toNat ap)) j).getD 0) fun j hj => ?_
    rw [readCell_memberWords _ hj, Option.getD_some]

end Sys2Proof.Proofs
end

section
/-! PROOFS. What the geometry commands depend on (42_geometry.md R220, R223): O43 and O44. -/

namespace Sys2Proof.Machine

variable {s t : State}

/-! ## The fields of the record in which VB differs from VA -/

section Sibling

variable (c : Cfg) (v : Fin 3) (f : Bool) (sp : Nat) (ap : AccessPattern)

/-- Selectors 15 and 16 are those of `VARIANT` and `ECC_FALLBACK` (42_geometry.md R222). -/
theorem geoConstant_sibling : ∀ n, n ≠ 15 → n ≠ 16 →
    geoConstant { c with variant := v, eccFallback := f } n ap = geoConstant c n ap
  | 15, h, _ => absurd rfl h
  | 16, _, h => absurd rfl h
  | 17, _, _ | 0, _, _ | 1, _, _ | 2, _, _ | 3, _, _ | 4, _, _ | 5, _, _ | 6, _, _ | 7, _, _ | 8, _, _ | 9, _, _ | 10, _, _
  | 11, _, _ | 12, _, _ | 13, _, _ | 14, _, _ | _ + 18, _, _ => rfl

theorem memberWords_sibling : memberWords { c with variant := v, eccFallback := f } sp ap = memberWords c sp ap := rfl

theorem nmem_sibling : nmem { c with variant := v, eccFallback := f } sp ap = nmem c sp ap := rfl

theorem spansFrom_sibling (cur : Option (Nat × Nat)) (ps : List Nat) :
    spansFrom { c with variant := v, eccFallback := f } sp ap cur ps = spansFrom c sp ap cur ps := by
  have hm : member { c with variant := v, eccFallback := f } sp ap = member c sp ap := rfl
  have ha : pixAddr { c with variant := v, eccFallback := f } = pixAddr c := rfl
  induction ps generalizing cur with
  | nil => cases cur <;> rfl
  | cons p ps ih =>
    cases cur with
    | none => simp only [spansFrom, hm, ha, ih]
    | some x => simp only [spansFrom, hm, ha, ih]

theorem spans_sibling : spans { c with variant := v, eccFallback := f } sp ap = spans c sp ap :=
  spansFrom_sibling c v f sp ap none (List.range c.npix)

theorem rescorr_sibling (cal cur : BitVec 2) :
    rescorr { c with variant := v, eccFallback := f } cal cur = rescorr c cal cur := rfl

end Sibling

section Config

variable {x : CheckedCfg} {v : Fin 3} {f : Bool}
  (hx : x.record = { s.cfg with variant := v, eccFallback := f })

include hx

theorem exec_geoConst_sibling {idx : Half} {ap : AccessPattern} (h15 : idx.toNat ≠ 15) (h16 : idx.toNat ≠ 16)
    (h : exec (.geoConst idx ap) s = .next t) :
    exec (.geoConst idx ap) { s with config := x } = .next { t with config := x } := by
  rw [exec_geoConst] at h ⊢
  cases h
  simp only [State.cfg] at hx ⊢
  rw [hx, geoConstant_sibling _ _ _ _ _ h15 h16]
  cases geoConstant s.config.record idx.toNat ap with
  | none => rfl
  | some v => rfl

theorem exec_geoMember_sibling {sp : BitVec 1} {ap : AccessPattern} (h : exec (.geoMember sp ap) s = .next t) :
    exec (.geoMember sp ap) { s with config := x } = .next { t with config := x } := by
  rw [exec_geoMember] at h ⊢
  cases h
  simp only [State.cfg] at hx ⊢
  rw [hx, memberWords_sibling, nmem_sibling]
  rfl

theorem exec_geoRanges_sibling {sp : BitVec 1} {ap : AccessPattern} (h : exec (.geoRanges sp ap) s = .next t) :
    exec (.geoRanges sp ap) { s with config := x } = .next { t with config := x } := by
  rw [exec_geoRanges] at h ⊢
  cases h
  simp only [State.cfg] at hx ⊢
  rw [hx, spans_sibling, nmem_sibling]
  rfl

theorem exec_geoRescorr_sibling (h : exec .geoRescorr s = .next t) :
    exec .geoRescorr { s with config := x } = .next { t with config := x } := by
  rw [exec_geoRescorr] at h ⊢
  cases h
  simp only [State.cfg] at hx ⊢
  rw [hx, rescorr_sibling]
  rfl

end Config

/-! ## The state the geometry commands do not touch -/

/-- The state with other calibration, input and tracking (42_geometry.md R220). -/
def State.setConversion (s : State) (cal : Option CalSet) (raw : List (Nat × Half)) (out : List (Nat × Word))
    (seen : BitVec 2) (ap : AccessPattern) : State :=
  { s with calset := cal, mem := { s.mem with raw := raw, out := out }, seen := seen, lastAp := ap }

theorem exec_geoConst_setConversion {idx : Half} {ap : AccessPattern} (h : exec (.geoConst idx ap) s = .next t)
    (cal : Option CalSet) (raw : List (Nat × Half)) (out : List (Nat × Word)) (seen : BitVec 2) (la : AccessPattern) :
    exec (.geoConst idx ap) (s.setConversion cal raw out seen la) = .next (t.setConversion cal raw out seen la) := by
  rw [exec_geoConst] at h ⊢
  cases h
  show Host.Outcome.next ((geoConstant s.cfg idx.toNat ap).elim _ _) = _
  cases geoConstant s.cfg idx.toNat ap with
  | none => rfl
  | some v => rfl

end Sys2Proof.Machine

namespace Sys2Proof.Proofs

open Sys2Proof.Machine

/-- Settles O43: no geometry command but those two selectors reads the fields in which VB differs. -/
theorem siblingVariantDelegates : Obligations.SiblingVariantDelegates := by
  refine ⟨rfl, fun s i t hs hi h => ?_⟩
  have hx : CheckedCfg.VB.record = { s.cfg with variant := 1, eccFallback := true } := by rw [hs]; rfl
  rcases hi with rfl | ⟨sp, ap, rfl | rfl⟩ | ⟨idx, ap, rfl, h15, h16⟩
  · exact exec_geoRescorr_sibling hx h
  · exact exec_geoMember_sibling hx h
  · exact exec_geoRanges_sibling hx h
  · exact exec_geoConst_sibling hx h15 h16 h

/-- Settles O44: the rows of the four commands in the access table, and none of them reads what it does not write. -/
theorem geometryIsIndependent : Obligations.GeometryIsIndependent := by
  intro i hi
  refine ⟨fun s => ?keeps, fun s t cal raw out seen ap h => ?ignores⟩
  case keeps =>
    have hne : i ≠ .calLoad ∧ i ≠ .sysReset ∧ ∀ ap res, i ≠ .cvtSubpage ap res := by
      rcases hi with rfl | ⟨idx, ap, rfl⟩ | ⟨sp, ap, rfl | rfl⟩ <;> exact ⟨nofun, nofun, nofun⟩
    obtain ⟨hload, hreset, hcvt⟩ := hne
    rcases exec_cases i s with ⟨t, ht⟩ | hi | ⟨ap, res, hi⟩
    · have hran := exec_ran ht
      obtain ⟨hcal, -⟩ := hran.calibration hload hreset
      obtain ⟨-, hraw⟩ := hran.inputBuffers
      have htrack : t.seen = s.seen ∧ t.lastAp = s.lastAp := by
        rcases hran.track with hkept | ⟨ap, res, hi⟩ | hi
        · exact hkept
        · exact absurd hi (hcvt ap res)
        · exact absurd hi hreset
      exact ⟨t, ht, hcal, hraw, hran.out hcvt, htrack⟩
    · exact absurd hi hload
    · exact absurd hi (hcvt ap res)
  case ignores =>
    rcases hi with rfl | ⟨idx, ap', rfl⟩ | ⟨sp, ap', rfl | rfl⟩
    · cases h; rfl
    · exact exec_geoConst_setConversion h cal raw out seen ap
    · cases h; rfl
    · cases h; rfl

end Sys2Proof.Proofs
end

section
/-! PROOFS. The special values of binary32 (43_convert.md R253): O50. -/

namespace Sys2Proof.Machine

/-! ## What the patterns without a number stand for -/

/-- The exponent and the fraction of a pattern, cut from its bits 30:0. -/
theorem exp_frac_of_mag (a : F32) :
    (a.extractLsb' 23 8).toNat = (a.extractLsb' 0 31).toNat / 2 ^ 23 ∧
      (a.extractLsb' 0 23).toNat = (a.extractLsb' 0 31).toNat % 2 ^ 23 := by
  simp only [BitVec.extractLsb'_toNat, Nat.shiftRight_eq_div_pow]
  omega

theorem f32IsNaN_iff {a : F32} : f32IsNaN a = true ↔ f32Val a = .nan := by
  have hexp : a.extractLsb' 23 8 = 255#8 ↔ (a.extractLsb' 23 8).toNat = 255 := BitVec.toNat_inj.symm
  have hfrac : a.extractLsb' 0 23 = 0#23 ↔ (a.extractLsb' 0 23).toNat = 0 := BitVec.toNat_inj.symm
  rw [f32IsNaN, decide_eq_true_iff, ne_eq, hexp, hfrac]
  simp only [f32Val]
  generalize (a.extractLsb' 23 8).toNat = ex, (a.extractLsb' 0 23).toNat = fr
  split
  · next hspecial => split <;> simp [*]
  · next hfinite => split <;> simp [*]

/-- Both zeros. -/
theorem f32Val_zero {a : F32} (h : a.extractLsb' 0 31 = 0) : f32Val a = .fin (a.getLsbD 31) 0 (-149) := by
  obtain ⟨hexp, hfrac⟩ := exp_frac_of_mag a
  have hmag : (a.extractLsb' 0 31).toNat = 0 := congrArg BitVec.toNat h
  rw [hmag] at hexp hfrac
  simp [f32Val, hexp, hfrac]

/-- A pattern that is neither a NaN nor a zero is an infinity or a number other than 0, of the sign of its bit 31. -/
theorem f32Val_nonzero {a : F32} (hnan : f32Val a ≠ .nan) (h : a.extractLsb' 0 31 ≠ 0) :
    f32Val a = .inf (a.getLsbD 31) ∨ ∃ m e, m ≠ 0 ∧ f32Val a = .fin (a.getLsbD 31) m e := by
  obtain ⟨hexp, hfrac⟩ := exp_frac_of_mag a
  have hmag : (a.extractLsb' 0 31).toNat ≠ 0 := fun h0 => h (BitVec.eq_of_toNat_eq h0)
  simp only [f32Val] at hnan ⊢
  split
  · next hspecial =>
    rw [if_pos hspecial] at hnan
    split
    · exact .inl rfl
    · next hf => exact absurd (if_neg hf) hnan
  · split
    · exact .inr ⟨_, _, by omega, rfl⟩
    · exact .inr ⟨_, _, by omega, rfl⟩

theorem f32Val_inf (neg : Bool) : f32Val (f32Pack neg f32InfMag) = .inf neg := by
  cases neg
  · decide
  · decide

/-! ## The NaN of an operation -/

theorem quietNaN_isNaN (x : BitVec 23) : f32IsNaN (quietNaN x) = true ∧ (quietNaN x).getLsbD 22 = true := by
  have hquiet : (quietNaN x).getLsbD 22 = true := by
    rw [quietNaN, BitVec.getLsbD_append, BitVec.getLsbD_append]
    rfl
  have hexp : (quietNaN x).extractLsb' 23 8 = 255#8 := by
    ext i hi
    rw [BitVec.getElem_extractLsb', quietNaN, BitVec.getLsbD_append, if_neg (by omega), BitVec.getLsbD_append,
      if_neg (by omega), BitVec.getLsbD_append, if_pos (by omega), ← BitVec.getLsbD_eq_getElem]
    congr 1
    omega
  have hfrac : (quietNaN x).extractLsb' 0 23 ≠ 0#23 := fun h0 => by
    have hbit : ((quietNaN x).extractLsb' 0 23).getLsbD 22 = false := by rw [h0]; rfl
    rw [BitVec.getLsbD_extractLsb', hquiet] at hbit
    exact absurd hbit (by decide)
  exact ⟨decide_eq_true ⟨hexp, hfrac⟩, hquiet⟩

/-- A result that is no number is the NaN of the operation (43_convert.md R253). -/
theorem getD_none_isNaN {r : Option F32} (op : FloatOp) (a b : F32) (h : r = none) :
    f32IsNaN (r.getD (nanOf op a b)) = true := by
  rw [h, Option.getD_none]
  exact (quietNaN_isNaN _).1

/-! ## Operands that are NaNs -/

theorem addVal_nan {v w : F32Val} (h : v = .nan ∨ w = .nan) : addVal v w = none := by
  rcases h with rfl | rfl
  · rfl
  · cases v <;> rfl

theorem mulVal_nan {v w : F32Val} (h : v = .nan ∨ w = .nan) : mulVal v w = none := by
  rcases h with rfl | rfl
  · rfl
  · cases v <;> rfl

theorem divVal_nan {v w : F32Val} (h : v = .nan ∨ w = .nan) : divVal v w = none := by
  rcases h with rfl | rfl
  · rfl
  · cases v <;> rfl

theorem negVal_nan {v : F32Val} (h : v = .nan) : negVal v = .nan := by rw [h, negVal]

/-- The four operations of two operands on a NaN. -/
theorem arith_isNaN {a b : F32} (h : f32IsNaN a = true ∨ f32IsNaN b = true) :
    f32IsNaN (f32Add a b) = true ∧ f32IsNaN (f32Sub a b) = true ∧ f32IsNaN (f32Mul a b) = true ∧
      f32IsNaN (f32Div a b) = true := by
  rw [f32IsNaN_iff, f32IsNaN_iff] at h
  exact ⟨getD_none_isNaN _ _ _ (addVal_nan h), getD_none_isNaN _ _ _ (addVal_nan (h.imp_right negVal_nan)),
    getD_none_isNaN _ _ _ (mulVal_nan h), getD_none_isNaN _ _ _ (divVal_nan h)⟩

theorem f32Sqrt_isNaN {a : F32} (h : f32IsNaN a = true) : f32IsNaN (f32Sqrt a) = true :=
  getD_none_isNaN _ _ _ (by rw [f32IsNaN_iff.1 h, sqrtVal])

/-! ## Division by zero, roots of negatives -/

/-- `x / 0` for an `x` other than 0. -/
theorem f32Div_zero {a b : F32} (hnan : f32IsNaN a = false) (ha : a.extractLsb' 0 31 ≠ 0) (hb : b.extractLsb' 0 31 = 0) :
    f32Div a b = f32Pack (a.getLsbD 31 ^^ b.getLsbD 31) f32InfMag := by
  have hval : f32Val a ≠ .nan := fun h => by simp [f32IsNaN_iff.2 h] at hnan
  rw [f32Div, f32Val_zero hb]
  rcases f32Val_nonzero hval ha with hinf | ⟨m, e, hm, hfin⟩
  · rw [hinf, divVal, Option.getD_some]
  · rw [hfin, divVal, if_pos rfl, if_neg hm, Option.getD_some]

theorem f32Div_zero_zero {a b : F32} (ha : a.extractLsb' 0 31 = 0) (hb : b.extractLsb' 0 31 = 0) :
    f32IsNaN (f32Div a b) = true :=
  getD_none_isNaN _ _ _ (by rw [f32Val_zero ha, f32Val_zero hb, divVal, if_pos rfl, if_pos rfl])

theorem f32Sqrt_negative {a : F32} (hs : a.getLsbD 31 = true) (ha : a.extractLsb' 0 31 ≠ 0) :
    f32IsNaN (f32Sqrt a) = true := by
  by_cases hnan : f32Val a = .nan
  · exact f32Sqrt_isNaN (f32IsNaN_iff.2 hnan)
  · refine getD_none_isNaN _ _ _ ?_
    rcases f32Val_nonzero hnan ha with hinf | ⟨m, e, hm, hfin⟩
    · rw [hinf, hs, sqrtVal, if_pos rfl]
    · rw [hfin, hs, sqrtVal, if_neg hm, if_pos rfl]

end Sys2Proof.Machine

namespace Sys2Proof.Proofs

open Sys2Proof.Machine

/-- Settles O50: a NaN result is the operation's quiet NaN, and the cases that give one are read off the values of the operands. -/
theorem floatSpecialValues : Obligations.FloatSpecialValues :=
  ⟨fun _ _ => arith_isNaN, fun _ => f32Sqrt_isNaN, fun _ _ hnan ha hb => ⟨_, by rw [f32Div_zero hnan ha hb, f32Val_inf]⟩,
    fun _ _ => f32Div_zero_zero, fun _ => f32Sqrt_negative, fun _ _ _ => quietNaN_isNaN _, by decide⟩

end Sys2Proof.Proofs
end

section
/-! PROOFS. The order of binary32 patterns and the band of the ambient temperature (43_convert.md R272): O48. -/

namespace Sys2Proof.Machine

/-! ## The order of the patterns is that of their numbers -/

/-- The number of a finite pattern as a function of its place in the order. -/
noncomputable def keyReal (k : ℤ) : ℝ := k.sign * magVal k.natAbs

theorem keyReal_neg (k : ℤ) : keyReal (-k) = -keyReal k := by
  rw [keyReal, keyReal, Int.sign_neg, Int.natAbs_neg, Int.cast_neg, neg_mul]

theorem keyReal_natCast (n : Nat) : keyReal n = magVal n := by
  rcases Nat.eq_zero_or_pos n with rfl | hn
  · simp [keyReal, magVal]
  · rw [keyReal, Int.sign_natCast_of_ne_zero hn.ne', Int.natAbs_natCast, Int.cast_one, one_mul]

theorem keyReal_strictMono : StrictMono keyReal := by
  refine strictMono_of_odd_strictMonoOn_nonneg keyReal_neg ?_
  intro j hj k hk hjk
  obtain ⟨m, rfl⟩ := Int.eq_ofNat_of_zero_le hj
  obtain ⟨n, rfl⟩ := Int.eq_ofNat_of_zero_le hk
  rw [keyReal_natCast, keyReal_natCast]
  exact magVal_mono (Int.ofNat_lt.1 hjk)

theorem IsValue.eq_keyReal {a : F32} {x : ℝ} (h : IsValue a x) : x = keyReal (f32Key a) := by
  rw [(isValue_mag h).2, f32Key]
  split
  · rw [keyReal_neg, Int.ofNat_eq_natCast, keyReal_natCast, neg_one_mul]
  · rw [Int.ofNat_eq_natCast, keyReal_natCast, one_mul]

theorem IsValue.not_nan {a : F32} {x : ℝ} (h : IsValue a x) : f32IsNaN a = false := (isValue_mag h).1

theorem f32Ge_eq_true {a b : F32} : f32Ge a b = true ↔
    f32IsNaN a = false ∧ f32IsNaN b = false ∧ f32Key b ≤ f32Key a := by
  simp [f32Ge, and_assoc]

theorem f32Lt_eq_true {a b : F32} : f32Lt a b = true ↔
    f32IsNaN a = false ∧ f32IsNaN b = false ∧ f32Key a < f32Key b := by
  simp [f32Lt, and_assoc]

/-- The comparison of two finite patterns is that of their numbers. -/
theorem f32Ge_iff {a b : F32} {x y : ℝ} (ha : IsValue a x) (hb : IsValue b y) : f32Ge a b = true ↔ y ≤ x := by
  rw [f32Ge_eq_true, ha.eq_keyReal, hb.eq_keyReal, keyReal_strictMono.le_iff_le]
  simp [ha.not_nan, hb.not_nan]

theorem f32Ge_nan {a b : F32} (h : f32IsNaN a = true ∨ f32IsNaN b = true) : f32Ge a b = false := by
  rcases h with h | h
  · simp [f32Ge, h]
  · simp [f32Ge, h]

/-- The place of a finite pattern is strictly between those of the infinities. -/
theorem IsValue.key_lt {a : F32} {x : ℝ} (h : IsValue a x) : |f32Key a| < f32InfMag := by
  obtain ⟨neg, m, e, hv, -⟩ := h
  obtain ⟨hexp, -⟩ := exp_frac_of_mag a
  have hne : (a.extractLsb' 23 8).toNat ≠ 255 := fun h255 => by
    simp only [f32Val, h255, if_true] at hv
    split at hv
    · cases hv
    · cases hv
  have hmag := (a.extractLsb' 0 31).isLt
  have hkey : |f32Key a| = (a.extractLsb' 0 31).toNat := by
    rw [f32Key]
    split
    · rw [abs_neg, Int.ofNat_eq_natCast, Nat.abs_cast]
    · rw [Int.ofNat_eq_natCast, Nat.abs_cast]
  rw [hkey, f32InfMag]
  omega

theorem f32Ge_posInf {a : F32} {x : ℝ} (h : IsValue a x) : f32Ge 0x7F800000#32 a = true := by
  have hkey : f32Key 0x7F800000#32 = f32InfMag := by decide
  refine f32Ge_eq_true.2 ⟨by decide, h.not_nan, ?_⟩
  rw [hkey]
  exact (abs_lt.1 h.key_lt).2.le

theorem f32Ge_negInf {a : F32} {x : ℝ} (h : IsValue a x) : f32Ge 0xFF800000#32 a = false := by
  have hkey : f32Key 0xFF800000#32 = -f32InfMag := by decide
  refine Bool.eq_false_iff.2 fun hge => ?_
  obtain ⟨-, -, hle⟩ := f32Ge_eq_true.1 hge
  rw [hkey] at hle
  exact absurd (abs_lt.1 h.key_lt).1 (not_lt.2 hle)

/-! ## The band -/

/-- Of the numbers below `n`, those with a property that smaller numbers inherit are an initial segment. -/
theorem lt_length_filter_range_iff {f : Nat → Bool} {n i : Nat} (hf : ∀ i j, i ≤ j → j < n → f j = true → f i = true) :
    i < ((List.range n).filter f).length ↔ i < n ∧ f i = true := by
  induction n with
  | zero => simp
  | succ n ih =>
    have hn := ih fun i j hij hj => hf i j hij (by omega)
    rw [List.range_succ, List.filter_append, List.length_append]
    by_cases hfn : f n = true
    · have hall : (List.range n).filter f = List.range n :=
        List.filter_eq_self.2 fun j hj => hf j n (List.mem_range.1 hj).le (Nat.lt_succ_self n) hfn
      have hin : i < n + 1 → f i = true := fun hi => hf i n (by omega) (Nat.lt_succ_self n) hfn
      simp only [hall, List.length_range, hfn, List.filter_cons_of_pos, List.filter_nil, List.length_singleton]
      exact ⟨fun hi => ⟨hi, hin hi⟩, fun hi => hi.1⟩
    · have hne : f i = true → i ≠ n := fun hi hin => hfn (hin ▸ hi)
      simp only [List.filter_cons_of_neg hfn, List.filter_nil, List.length_nil, Nat.add_zero, hn]
      constructor
      · rintro ⟨hi, hfi⟩; exact ⟨by omega, hfi⟩
      · rintro ⟨hi, hfi⟩; exact ⟨by have := hne hfi; omega, hfi⟩

/-- The corner temperatures are numbers, and they rise. -/
structure CalSet.Corners (c : CalSet) : Prop where
  finite : ∀ i, i < c.nct → ∃ x, IsValue (c.ctAt i) x
  rising : ∀ i j, i < j → j < c.nct → f32Lt (c.ctAt i) (c.ctAt j) = true

section
variable {c : CalSet}

theorem ctAt_of_getElem? {i : Nat} {v : F32} (h : c.ct[i]? = some v) : c.ctAt i = v := by
  rw [CalSet.ctAt, List.getD_eq_getElem?_getD, h, Option.getD_some]

theorem bandOf_le (ta : F32) : bandOf c ta ≤ c.nct := by
  have hlen := List.length_filter_le (fun i => f32Ge ta (c.ctAt i)) (List.range c.nct)
  rwa [List.length_range] at hlen

/-- With no corner at or below the temperature the band is the lowest. -/
theorem bandOf_eq_zero {ta : F32} (h : ∀ i, i < c.nct → f32Ge ta (c.ctAt i) = false) : bandOf c ta = 0 := by
  rw [bandOf, List.length_eq_zero_iff, List.filter_eq_nil_iff]
  exact fun i hi => by simp [h i (List.mem_range.1 hi)]

theorem bandOf_nan {ta : F32} (hta : f32IsNaN ta = true) : bandOf c ta = 0 :=
  bandOf_eq_zero fun _ _ => f32Ge_nan (.inl hta)

/-- With every corner at or below the temperature the band is the highest. -/
theorem bandOf_eq_nct {ta : F32} (h : ∀ i, i < c.nct → f32Ge ta (c.ctAt i) = true) : bandOf c ta = c.nct := by
  rw [bandOf, List.filter_eq_self.2 fun i hi => h i (List.mem_range.1 hi), List.length_range]

variable (h : c.Corners)
include h

/-- A corner is at or above itself and the corners before it only. -/
theorem f32Ge_corner_iff {i j : Nat} (hi : i < c.nct) (hj : j < c.nct) : f32Ge (c.ctAt i) (c.ctAt j) = true ↔ j ≤ i := by
  rcases Nat.lt_trichotomy i j with hij | rfl | hji
  · obtain ⟨-, -, hlt⟩ := f32Lt_eq_true.1 (h.rising i j hij hj)
    refine ⟨fun hge => ?_, fun hji => absurd hij (not_lt.2 hji)⟩
    exact absurd (f32Ge_eq_true.1 hge).2.2 (not_le.2 hlt)
  · obtain ⟨x, hx⟩ := h.finite i hi
    simp [f32Ge_iff hx hx]
  · obtain ⟨hnj, hni, hlt⟩ := f32Lt_eq_true.1 (h.rising j i hji hi)
    exact ⟨fun _ => hji.le, fun _ => f32Ge_eq_true.2 ⟨hni, hnj, hlt.le⟩⟩

/-- A temperature at or above a corner is at or above the corners before it. -/
theorem f32Ge_corner_mono {ta : F32} {i j : Nat} (hij : i ≤ j) (hj : j < c.nct) (hge : f32Ge ta (c.ctAt j) = true) :
    f32Ge ta (c.ctAt i) = true := by
  obtain ⟨hta, -, hle⟩ := f32Ge_eq_true.1 hge
  obtain ⟨-, hni, hle'⟩ := f32Ge_eq_true.1 ((f32Ge_corner_iff h hj (hij.trans_lt hj)).2 hij)
  exact f32Ge_eq_true.2 ⟨hta, hni, hle'.trans hle⟩

/-- The corners at or below the temperature are those below its band (43_convert.md R272). -/
theorem lt_bandOf_iff {ta : F32} {i : Nat} : i < bandOf c ta ↔ i < c.nct ∧ f32Ge ta (c.ctAt i) = true :=
  lt_length_filter_range_iff fun _ _ => f32Ge_corner_mono h

/-- A corner temperature belongs to the band above it (43_convert.md R272). -/
theorem bandOf_corner {i : Nat} (hi : i < c.nct) : bandOf c (c.ctAt i) = i + 1 := by
  refine eq_of_forall_lt_iff fun j => ?_
  rw [lt_bandOf_iff h, Nat.lt_succ_iff]
  constructor
  · rintro ⟨hj, hge⟩; exact (f32Ge_corner_iff h hi hj).1 hge
  · intro hji; exact ⟨hji.trans_lt hi, (f32Ge_corner_iff h hi (hji.trans_lt hi)).2 hji⟩

theorem bandOf_negInf : bandOf c 0xFF800000#32 = 0 :=
  bandOf_eq_zero fun i hi => (h.finite i hi).elim fun _ => f32Ge_negInf

theorem bandOf_posInf : bandOf c 0x7F800000#32 = c.nct :=
  bandOf_eq_nct fun i hi => (h.finite i hi).elim fun _ => f32Ge_posInf

end

/-! ## The corners of a stored CalibrationSet -/

theorem slice_ctAt {cfg : Cfg} {P : List Payload} {i : Nat} (hi : i < (slice cfg P).nct) :
    (slice cfg P).ct[i]? = some ((slice cfg P).ctAt i) ∧ (slice cfg P).ctAt i = f32OfInt (fieldS11 P (41 + i)) := by
  have hct := slice_ct cfg P (i := i) hi
  have hat := ctAt_of_getElem? hct
  exact ⟨hct.trans (congrArg some hat.symm), hat⟩

/-- Validation leaves corners that are 11-bit integers, each above its predecessor (41_calibration.md R200). -/
theorem slice_corners {cfg : Cfg} {P : List Payload} (hv : validate cfg P = none) : (slice cfg P).Corners where
  finite i hi := by
    have hrange := fieldS_range P (41 + i)
    rw [(slice_ctAt hi).2]
    exact ⟨_, isValue_f32OfInt (by rw [fieldS11]; omega)⟩
  rising i j hij hj := by
    have hpair := List.pairwise_iff_getElem.1 (slice_wf hv).ctRising
    have hi := hij.trans hj
    have hlen : (slice cfg P).ct.length = (slice cfg P).nct := (slice_wf hv).ctLen
    have hlt := hpair i j (by omega) (by omega) hij
    rwa [(List.getElem_eq_iff _).2 (slice_ctAt hi).1, (List.getElem_eq_iff _).2 (slice_ctAt hj).1] at hlt

end Sys2Proof.Machine

namespace Sys2Proof.Proofs

open Sys2Proof.Machine

/-- Settles O48: the corners are numbers that rise, so those at or below the temperature are an initial segment, and the band is its
length. -/
theorem bandHoldsTheAmbientTemperature : Obligations.BandHoldsTheAmbientTemperature := by
  refine ⟨fun _ _ _ _ => f32Ge_iff, fun _ _ => f32Ge_nan, fun cfg P ta hv => ?_⟩
  have hcorners := slice_corners hv
  have hcount := (slice_wf hv).nctEq
  refine ⟨?_, fun i hi => ⟨(slice_ctAt hi).1, bandOf_corner hcorners hi, ?_⟩, bandOf_nan, bandOf_negInf hcorners, ?_⟩
  · have hle := bandOf_le (c := slice cfg P) ta
    omega
  · rw [lt_bandOf_iff hcorners]
    exact ⟨fun hge => ⟨hi, hge⟩, fun hlt => hlt.2⟩
  · rw [bandOf_posInf hcorners]
    exact hcount

end Sys2Proof.Proofs
end

section
/-! PROOFS. The checks of CVT.SUBPAGE, the conversion and its tracking (43_convert.md R255 to R259, R280 to R289): O45, O46
and O49. -/

namespace Sys2Proof.Machine

variable {s t : State} {ap : AccessPattern} {c : CalSet} {st : Half} {x : RawAux}

open Sys2Proof.Claims

/-! ## The checks -/

theorem exec_cvtSubpage_noCalibration (ap : AccessPattern) (res : BitVec 2) (hc : s.calset = none) :
    exec (.cvtSubpage ap res) s = .next (failed s 6 0) := by
  rw [exec_cvtSubpage, execCvtSubpage, hc]
  rfl

theorem exec_cvtSubpage_outLength (ap : AccessPattern) (res : BitVec 2) (hc : s.calset = some c)
    (hl : s.arg0.toNat ≠ s.cfg.npix) :
    exec (.cvtSubpage ap res) s = .next (failed s 2 s.arg0) := by
  simp only [exec_cvtSubpage, execCvtSubpage, hc]
  rw [if_pos hl]
  rfl

section
variable (res : BitVec 2) (hc : s.calset = some c) (hl : s.arg0.toNat = s.cfg.npix) (hst : readCell s.mem.raw 0 = some st)
include hc hl hst

/-- From the status word on (43_convert.md R257 to R259). -/
theorem exec_cvtSubpage_status : exec (.cvtSubpage ap res) s =
    if s.cfg.nsub ap ≤ statusSubpage st then .next (s.raiseError .statusError (infoStatus st))
    else if !statusReady st then .next (s.finish 2 0)
    else if s.arg1.toNat ≠ nmem s.cfg (statusSubpage st) ap then .next (s.raiseError .invalidData s.arg1)
    else convertFrame c (statusSubpage st) ap res s := by
  simp only [exec_cvtSubpage, execCvtSubpage, hc, readRaw_ok.2 hst]
  rw [if_neg (not_not.2 hl)]

theorem exec_cvtSubpage_statusError (hsp : s.cfg.nsub ap ≤ statusSubpage st) :
    exec (.cvtSubpage ap res) s = .next (failed s 5 (0#16 ++ st)) := by
  rw [exec_cvtSubpage_status res hc hl hst, if_pos hsp]
  rfl

variable (hsp : statusSubpage st < s.cfg.nsub ap)
include hsp

theorem exec_cvtSubpage_notReady (hr : statusReady st = false) : exec (.cvtSubpage ap res) s = .next (ended s 2 0) := by
  rw [exec_cvtSubpage_status res hc hl hst, if_neg hsp.not_ge, hr, if_pos (by rfl)]
  rfl

theorem exec_cvtSubpage_rawLength (hr : statusReady st = true) (hn : s.arg1.toNat ≠ nmem s.cfg (statusSubpage st) ap) :
    exec (.cvtSubpage ap res) s = .next (failed s 2 s.arg1) := by
  rw [exec_cvtSubpage_status res hc hl hst, if_neg hsp.not_ge, hr, if_neg (by simp), if_pos hn]
  rfl

theorem exec_cvtSubpage_frame (hr : statusReady st = true) (hn : s.arg1.toNat = nmem s.cfg (statusSubpage st) ap) :
    exec (.cvtSubpage ap res) s = convertFrame c (statusSubpage st) ap res s := by
  rw [exec_cvtSubpage_status res hc hl hst, if_neg hsp.not_ge, hr, if_neg (by simp), if_neg (not_not.2 hn)]

end

/-! ## The conversion -/

theorem mem_members_iff {cfg : Cfg} {sp p : Nat} : p ∈ members cfg sp ap ↔ p < cfg.npix ∧ spOf cfg ap p = sp := by
  rw [mem_members, member_eq_true]

/-- A frame whose words are all written is converted (43_convert.md R255). -/
theorem convertFrame_answers {sp : Nat} (res : BitVec 2) (hx : readAux s.mem = .ok x)
    (hw : ∀ p ∈ members s.cfg sp ap, (readCell s.mem.raw (8 + rank s.cfg sp ap p)).isSome = true) :
    ∃ t, convertFrame c sp ap res s = .next t := by
  obtain ⟨out, hout⟩ := convertPixels_total (S := shared s.cfg c sp ap res x) (c := c) s.mem.out fun p hp => by
    obtain ⟨raw, hraw⟩ := Option.isSome_iff_exists.1 (hw p hp)
    exact ⟨_, pixelOut_ok.2 ⟨raw, hraw, rfl⟩⟩
  exact ⟨_, by simp only [convertFrame, hx, hout]; rfl⟩

/-- What the conversion of a ready frame leaves (43_convert.md R255). -/
theorem exec_cvtSubpage_converts (res : BitVec 2) (h : Converts s ap c st x) :
    ∃ out, convertPixels s.cfg c (shared s.cfg c (statusSubpage st) ap res x) (statusSubpage st) ap s.mem
        (members s.cfg (statusSubpage st) ap) s.mem.out = .ok out ∧
      exec (.cvtSubpage ap res) s = .next
        (((s.setOut out).setTrack (track s.cfg s.seen s.lastAp (statusSubpage st) ap).1 ap).finish
          (if (track s.cfg s.seen s.lastAp (statusSubpage st) ap).2 then 1 else 0) (BitVec.ofNat 32 (statusSubpage st))) := by
  have hx : readAux s.mem = .ok x := readAux_ok.2 ⟨h.taVbe, h.taPtat, h.gain, h.vddPix, h.cp⟩
  obtain ⟨t, ht⟩ := convertFrame_answers (c := c) (ap := ap) (sp := statusSubpage st) res hx fun p hp =>
    h.words p (mem_members_iff.1 hp).1 (mem_members_iff.1 hp).2
  rw [exec_cvtSubpage_frame res h.calibrated h.outLen h.status h.subpage h.ready h.rawLen, ht]
  obtain ⟨x', out, hx', hout, rfl⟩ := convertFrame_cases ht
  obtain rfl : x = x' := Except.ok.inj (hx.symm.trans hx')
  exact ⟨out, hout, rfl⟩

section
variable {cfg : Cfg} {S : Shared} {sp p : Nat} {m : Memory} {out out' : List (Nat × Word)} {raw : Half}
  (hout : convertPixels cfg c S sp ap m (members cfg sp ap) out = .ok out')
include hout

/-- The cell of a member pixel holds what its own raw word gives (43_convert.md R280, R285). -/
theorem convertPixels_member (hp : p ∈ members cfg sp ap) : ∃ raw, readCell m.raw (8 + rank cfg sp ap p) = some raw ∧
    readCell out' p = some (if c.failedAt p then failedSentinel else (pixelStage c S sp (c.pixAt p) raw).temp) := by
  have hread := convertPixels_read members_nodup hout p
  rw [if_pos hp] at hread
  obtain ⟨v, hv, hcell⟩ := hread
  obtain ⟨raw, hraw, rfl⟩ := pixelOut_ok.1 hv
  exact ⟨raw, hraw, hcell⟩

/-- A failed member pixel gets the sentinel (43_convert.md R286). -/
theorem convertPixels_failed (hp : p ∈ members cfg sp ap) (hf : c.failedAt p = true) : readCell out' p = some failedSentinel := by
  obtain ⟨raw, -, hcell⟩ := convertPixels_member hout hp
  rw [hcell, if_pos hf]

/-- Any other member pixel gets its temperature (43_convert.md R277). -/
theorem convertPixels_converted (hp : p ∈ members cfg sp ap) (hf : c.failedAt p = false)
    (hraw : readCell m.raw (8 + rank cfg sp ap p) = some raw) :
    readCell out' p = some (pixelStage c S sp (c.pixAt p) raw).temp := by
  obtain ⟨raw', hraw', hcell⟩ := convertPixels_member hout hp
  obtain rfl : raw = raw' := Option.some.inj (hraw.symm.trans hraw')
  rw [hcell, hf, if_neg Bool.false_ne_true]

/-- No other cell is written (43_convert.md R283). -/
theorem convertPixels_nonmember (hp : p ∉ members cfg sp ap) : readCell out' p = readCell out p := by
  have hread := convertPixels_read members_nodup hout p
  rwa [if_neg hp] at hread

end

/-- The outlier flag is diagnostic: the stages do not read it (43_convert.md R282). -/
theorem pixelStage_outlier (c : CalSet) (S : Shared) (sp : Nat) (y : PixelCal) (flag : Bool) (raw : Half) :
    pixelStage c S sp { y with outlier := flag } raw = pixelStage c S sp y raw := rfl

/-! ## The tracking -/

/-- What a conversion of the pattern `ap` keeps of SEEN: nothing of another pattern (43_convert.md R288). -/
def keptSeen (seen : BitVec 2) (la ap : AccessPattern) : BitVec 2 := if la = ap then seen else 0

section
variable {cfg : Cfg} {seen : BitVec 2} {la : AccessPattern} {sp : Nat}

theorem keptSeen_eq (seen : BitVec 2) (la ap : AccessPattern) :
    (if seen ≠ 0 ∧ ap ≠ la then 0#2 else seen) = keptSeen seen la ap := by
  rw [keptSeen]
  by_cases hap : la = ap
  · rw [if_pos hap, if_neg fun hne => hne.2 hap.symm]
  · rw [if_neg hap]
    split
    · rfl
    · next hor => exact not_not.1 fun hs => hor ⟨hs, Ne.symm hap⟩

theorem track_eq (cfg : Cfg) (seen : BitVec 2) (la : AccessPattern) (sp : Nat) (ap : AccessPattern) :
    track cfg seen la sp ap =
      if keptSeen seen la ap ||| 1#2 <<< sp = BitVec.ofNat 2 (2 ^ cfg.nsub ap - 1) then (0, true)
      else (keptSeen seen la ap ||| 1#2 <<< sp, false) := by
  rw [← keptSeen_eq]
  rfl

theorem track_full_iff : (track cfg seen la sp ap).2 = true ↔
    keptSeen seen la ap ||| 1#2 <<< sp = BitVec.ofNat 2 (2 ^ cfg.nsub ap - 1) := by
  rw [track_eq]
  split
  · next hfull => exact iff_of_true rfl hfull
  · next hopen => exact iff_of_false Bool.false_ne_true hopen

theorem keptSeen_one (hn : cfg.nsub ap = 1) (hopen : seen.toNat + 1 < 2 ^ cfg.nsub la) : keptSeen seen la ap = 0 := by
  rw [keptSeen]
  split
  · next hap =>
    rw [hap, hn] at hopen
    exact BitVec.eq_of_toNat_eq (show seen.toNat = 0 by omega)
  · rfl

theorem getLsbD_keptSeen (k : Nat) : (keptSeen seen la ap).getLsbD k = true ↔ la = ap ∧ seen.getLsbD k = true := by
  rw [keptSeen]
  split
  · next hap => simp [hap]
  · next hap => simp [hap]

/-- An image of two subpages is full when the other one was there. -/
theorem two_subpages_full : ∀ (kept : BitVec 2) (sp : Fin 2),
    kept ||| 1#2 <<< sp.val = BitVec.ofNat 2 (2 ^ 2 - 1) ↔ kept.getLsbD (1 - sp.val) = true := by decide

/-- When the image is complete (43_convert.md R288). -/
theorem track_complete_iff (hw : cfg.wf) (hopen : seen.toNat + 1 < 2 ^ cfg.nsub la) (hsp : sp < cfg.nsub ap) :
    (track cfg seen la sp ap).2 = true ↔ cfg.nsub ap = 1 ∨ (la = ap ∧ seen.getLsbD (1 - sp) = true) := by
  rw [track_full_iff, ← getLsbD_keptSeen]
  rcases nsub_of_wf hw ap with hn | hn
  · obtain rfl : sp = 0 := by omega
    rw [keptSeen_one hn hopen, hn]
    decide
  · rw [hn] at hsp ⊢
    rw [two_subpages_full _ ⟨sp, hsp⟩]
    simp

theorem track_complete (h : (track cfg seen la sp ap).2 = true) : (track cfg seen la sp ap).1 = 0 := by
  rw [track_eq, if_pos (track_full_iff.1 h)]

theorem track_incomplete (h : (track cfg seen la sp ap).2 = false) :
    (track cfg seen la sp ap).1 = keptSeen seen la ap ||| 1#2 <<< sp := by
  rw [track_eq, if_neg (mt track_full_iff.2 (Bool.eq_false_iff.1 h))]

end

/-- An end before the conversion leaves SEEN and LAST_AP, a conversion leaves what its tracking says (43_convert.md R288, R289). -/
theorem exec_cvtSubpage_track {res : BitVec 2} (h : exec (.cvtSubpage ap res) s = .next t) :
    ((t.err = true ∨ t.res0 = 2) ∧ t.seen = s.seen ∧ t.lastAp = s.lastAp) ∨
    ∃ sp, sp < s.cfg.nsub ap ∧ t.err = false ∧ t.res0 = (if (track s.cfg s.seen s.lastAp sp ap).2 then 1 else 0) ∧
      t.res1 = BitVec.ofNat 32 sp ∧ t.seen = (track s.cfg s.seen s.lastAp sp ap).1 ∧ t.lastAp = ap := by
  rcases execCvtSubpage_cases h with ⟨-, rfl⟩ | ⟨c, -, ⟨-, rfl⟩ | ⟨-, st, -,
    ⟨-, rfl⟩ | ⟨-, -, rfl⟩ | ⟨-, -, -, rfl⟩ | ⟨hsp, -, -, hframe⟩⟩⟩
  · exact .inl ⟨.inl rfl, rfl, rfl⟩
  · exact .inl ⟨.inl rfl, rfl, rfl⟩
  · exact .inl ⟨.inl rfl, rfl, rfl⟩
  · exact .inl ⟨.inr rfl, rfl, rfl⟩
  · exact .inl ⟨.inl rfl, rfl, rfl⟩
  · obtain ⟨x, out, -, -, rfl⟩ := convertFrame_cases hframe
    exact .inr ⟨statusSubpage st, hsp, rfl, rfl, rfl, rfl, rfl⟩

end Sys2Proof.Machine

namespace Sys2Proof.Proofs

open Sys2Proof.Machine

/-- Settles O45: the checks one by one, each after those before it have passed. -/
theorem conversionChecksInOrder : Obligations.ConversionChecksInOrder := by
  refine ⟨fun s ap res mem => exec_cvtSubpage_noCalibration (s := { s with mem := mem }) ap res,
    fun s ap res mem hc => ?length, fun s ap res st hc hl hst => ?status⟩
  case length =>
    obtain ⟨c, hc⟩ := Option.ne_none_iff_exists'.1 hc
    exact exec_cvtSubpage_outLength (s := { s with mem := mem }) ap res hc
  case status =>
    obtain ⟨c, hc⟩ := Option.ne_none_iff_exists'.1 hc
    exact ⟨exec_cvtSubpage_statusError res hc hl hst, exec_cvtSubpage_notReady res hc hl hst,
      exec_cvtSubpage_rawLength res hc hl hst⟩

/-- Settles O46: a ready frame runs the loop over the members, and each cell of OUTMEM is read off its last write. -/
theorem convertsEveryMemberPixel : Obligations.ConvertsEveryMemberPixel := by
  intro s ap res c st x h
  obtain ⟨out, hout, hexec⟩ := exec_cvtSubpage_converts res h
  refine ⟨out, _, _, hexec, fun p hp hsp => ?member, fun p hp => convertPixels_nonmember hout (mt mem_members_iff.1 hp)⟩
  have hmem : p ∈ members s.cfg (statusSubpage st) ap := mem_members_iff.2 ⟨hp, hsp⟩
  refine ⟨convertPixels_failed hout hmem, fun hf raw hraw flag => ?_⟩
  rw [pixelStage_outlier]
  exact convertPixels_converted hout hmem hf hraw

/-- Settles O49: the ends before the conversion keep the tracking, and the conversion completes when the other subpage was there. -/
theorem completionNeedsEverySubpage : Obligations.CompletionNeedsEverySubpage := by
  intro s ap res t hopen h
  rcases exec_cvtSubpage_track h with ⟨hend, hkept⟩ | ⟨sp, hsp, herr, hres0, hres1, hseen, hap⟩
  · refine ⟨fun _ => hkept, fun herr hres => ?_⟩
    rcases hend with hend | hend
    · rw [herr] at hend; cases hend
    · exact absurd hend hres
  · have hw := s.config.ok
    have hcomplete := track_complete_iff hw hopen hsp
    have hone : t.res0 = 1 ↔ (track s.cfg s.seen s.lastAp sp ap).2 = true := by
      rw [hres0]
      cases (track s.cfg s.seen s.lastAp sp ap).2
      · decide
      · decide
    have hsp1 : t.res1.toNat = sp := by
      have hn : s.cfg.nsub ap = 1 ∨ s.cfg.nsub ap = 2 := nsub_of_wf hw ap
      rw [hres1, BitVec.toNat_ofNat]
      exact Nat.mod_eq_of_lt (by omega)
    constructor
    · rintro (hend | hend)
      · rw [herr] at hend; cases hend
      · rw [hres0] at hend; split at hend <;> cases hend
    · intro _ _
      rw [hsp1, hseen]
      refine ⟨hap, hsp, hone.trans hcomplete, fun hr => track_complete (hone.1 hr), fun hne => ?_⟩
      have hfalse := Bool.eq_false_iff.2 (mt hone.2 hne)
      exact ⟨by rw [hres0, hfalse]; rfl, track_incomplete hfalse⟩

end Sys2Proof.Proofs
end

section
/-! PROOFS. The stages of the conversion (43_convert.md R260 to R277): O47. -/

namespace Sys2Proof.Machine

variable {c : CalSet}

/-! ## The stored entries -/

theorem kstoAt_of_getElem? {b : Nat} {v : F32} (h : c.ksto[b]? = some v) : c.kstoAt b = v := by
  rw [CalSet.kstoAt, List.getD_eq_getElem?_getD, h, Option.getD_some]

theorem gAt_of_getElem? {b : Nat} {v : F32} (h : c.g[b]? = some v) : c.gAt b = v := by
  rw [CalSet.gAt, List.getD_eq_getElem?_getD, h, Option.getD_some]

theorem pixAt_of_getElem? {p : Nat} {x : PixelCal} (h : c.pix[p]? = some x) : c.pixAt p = x := by
  rw [CalSet.pixAt, List.getD_eq_getElem?_getD, h, Option.getD_some]

/-! ## The stages with two cases -/

theorem shared_eps_of_emis {e : F32} (cfg : Cfg) (sp : Nat) (ap : AccessPattern) (res : BitVec 2) (x : RawAux)
    (h : c.emis = some e) : (shared cfg c sp ap res x).eps = e := by
  rw [shared, h, Option.getD_some]

/-- The default emissivity (43_convert.md R274). -/
theorem shared_eps_default (cfg : Cfg) (sp : Nat) (ap : AccessPattern) (res : BitVec 2) (x : RawAux) (h : c.emis = none) :
    (shared cfg c sp ap res x).eps = f32DefaultEmis := by
  rw [shared, h, Option.getD_none]

/-- Gradient compensation where `TGC` is defined (43_convert.md R268). -/
theorem gradient_of_tgc {g : F32} (h : c.tgc = some g) (S : Shared) (sp : Nat) (po alpha : F32) :
    gradientSignal c S po = f32Sub po (f32Mul g S.cpo) ∧ gradientAlpha c sp alpha = f32Sub alpha (f32Mul g (c.alphaCp sp)) := by
  rw [gradientSignal, gradientAlpha, h]
  exact ⟨rfl, rfl⟩

/-- No gradient compensation without `TGC` (43_convert.md R268). -/
theorem gradient_without_tgc (h : c.tgc = none) (S : Shared) (sp : Nat) (po alpha : F32) :
    gradientSignal c S po = po ∧ gradientAlpha c sp alpha = alpha := by
  rw [gradientSignal, gradientAlpha, h]
  exact ⟨rfl, rfl⟩

end Sys2Proof.Machine

namespace Sys2Proof.Proofs

open Sys2Proof.Machine

/-- Settles O47: each field of the two records of results is its rule's formula; only EMIS and TGC make a case. -/
theorem stageFormulas : Obligations.StageFormulas := by
  refine ⟨fun c => ?entries, fun x => ⟨rfl, rfl⟩, fun cfg c sp ap res x S hS => ?shared, fun c S sp x raw q hq => ?pixel⟩
  case entries =>
    exact ⟨rfl, rfl, rfl, rfl, rfl, rfl, fun _ _ => kstoAt_of_getElem?, fun _ _ => gAt_of_getElem?,
      fun _ _ => pixAt_of_getElem?⟩
  case shared =>
    subst hS
    exact ⟨rfl, rfl, rfl, rfl, rfl, rfl, rfl, rfl, rfl, rfl, rfl, fun _ => shared_eps_of_emis cfg sp ap res x,
      shared_eps_default cfg sp ap res x, rfl, rfl, rfl, rfl, rfl, rfl⟩
  case pixel =>
    subst hq
    exact ⟨rfl, rfl, fun g hg => gradient_of_tgc hg S sp _ _, fun hg => gradient_without_tgc hg S sp _ _,
      rfl, rfl, rfl, rfl, rfl, rfl, rfl, rfl, rfl⟩

end Sys2Proof.Proofs
end

section
/-! PROOFS. The system commands (44_system.md R301, R302): O53 and O54. -/

namespace Sys2Proof.Machine

open Sys2Proof.Claims

variable {s : State} {w : Word}

/-- SYS.NOP from the host: the start of the command clears the error state, its end the results; BUSY is 0 before and after
(10_state.md R36, 44_system.md R301). -/
theorem perform_sysNop (hb : s.busy = false) (hd : decode w = .ok .sysNop) : perform (.writeCsr 0 w) s =
    .next { s with cmd := w, errCode := 0, errInfo := 0, res0 := 0, res1 := 0, done := true, err := false } := by
  have hend : exec .sysNop (s.startCommand w) = .next (ended (started s w) 0 0) := rfl
  rw [perform_writeCmd_ok hb hd, hend, ended, started, hb]

/-- SYS.RESET clears whatever the start of the command has written: the word that starts it leaves no trace (90_conflicts.md C9). -/
theorem perform_sysReset (hb : s.busy = false) (hd : decode w = .ok .sysReset) :
    perform (.writeCsr 0 w) s = .next (s.clearAll.finish 0 0) :=
  perform_writeCmd_ok hb hd

/-- After SYS.RESET only DONE is set, and nothing `STATUS` shows depends on the state before, so one state tells it of all. -/
theorem statusWord_cleared (s : State) : (s.clearAll.finish 0 0).statusWord = 0x00000002#32 :=
  (by decide : (State.reset.clearAll.finish 0 0).statusWord = 0x00000002#32)

end Sys2Proof.Machine

namespace Sys2Proof.Proofs

open Sys2Proof.Machine

/-- Settles O53: SYS.NOP is its end alone, and from the host also the start every command has. -/
theorem nopOnlyClearsTheError : Obligations.NopOnlyClearsTheError :=
  ⟨fun _ => rfl, fun _ hb => perform_sysNop hb (by decide)⟩

/-- Settles O54: what SYS.RESET writes is the reset state's value of every field but those named. -/
theorem sysResetRestoresTheResetState : Obligations.SysResetRestoresTheResetState :=
  ⟨fun _ => rfl, fun s _ hb hd => ⟨_, perform_sysReset hb hd, statusWord_cleared s, rfl, rfl⟩⟩

end Sys2Proof.Proofs
end

section
/-! PROOFS. Errors: which command raises which kind, what an error changes, and ERR_STICKY (60_exceptions.md R313, R318, R319): O15, O55
and O56. -/

namespace Sys2Proof.Machine

variable {s t : State} {i : Instr}

open Sys2Proof.Claims Sys2Proof.Tests

/-! ## Which command raises which kind -/

/-- The table of R313, with the writes that stay when the command ends with an error: CORRCNT of ECC.DEC, CORRCNT and FALLBACK of CAL.LOAD
(60_exceptions.md R313, R318). -/
inductive Raises (s : State) : Instr → ErrKind → State → Prop
  | eccDec (tag : Half) (info : Word) : Raises s (.eccDec tag) .checksumError ((s.setCorrCnt 0).raiseError .checksumError info)
  | calLoad {k : ErrKind} (n : Half) (f : Bool) (info : Word)
      (hk : k ∈ [.invalidData, .checksumError, .configurationError, .calLocked]) :
      Raises s .calLoad k (((s.setCorrCnt n).setFallback f).raiseError k info)
  | geoConst (idx : Half) (ap : AccessPattern) (info : Word) :
      Raises s (.geoConst idx ap) .illegalCommand (s.raiseError .illegalCommand info)
  | cvtSubpage {k : ErrKind} (ap : AccessPattern) (res : BitVec 2) (info : Word)
      (hk : k ∈ [.invalidData, .statusError, .noCalibration]) : Raises s (.cvtSubpage ap res) k (s.raiseError k info)

theorem Raises.errCode {k : ErrKind} (h : Raises s i k t) : t.errCode = k.code := by cases h <;> rfl
theorem Raises.errSticky {k : ErrKind} (h : Raises s i k t) : t.errSticky = true := by cases h <;> rfl

theorem calCommit_raises {P : List Payload} {n : Nat} (f : Bool)
    (he : (calCommit ((s.setCorrCnt 0).setFallback f) P n).err = true) :
    ∃ k, Raises s .calLoad k (calCommit ((s.setCorrCnt 0).setFallback f) P n) := by
  rcases calCommit_cases ((s.setCorrCnt 0).setFallback f) P n with ⟨sub, k, -, e⟩ | ⟨-, e⟩
  · rw [e]; exact ⟨.configurationError, .calLoad (BitVec.ofNat 16 n) f _ (by decide)⟩
  · rw [e] at he; cases he

theorem calDecode_raises {W : List Half} (he : (calDecode ((s.setCorrCnt 0).setFallback false) W).err = true) :
    ∃ k, Raises s .calLoad k (calDecode ((s.setCorrCnt 0).setFallback false) W) := by
  cases hp : eccpass W with
  | ok P n => rw [calDecode_ok hp] at he ⊢; exact calCommit_raises false he
  | err j w S =>
    cases hf : ((s.setCorrCnt 0).setFallback false).cfg.eccFallback with
    | false => rw [calDecode_err hp hf]; exact ⟨.checksumError, .calLoad 0 false _ (by decide)⟩
    | true => rw [calDecode_fallback hp hf] at he ⊢; exact calCommit_raises true he

theorem execCalLoad_raises (h : execCalLoad s = .next t) (he : t.err = true) : ∃ k, Raises s .calLoad k t := by
  rcases execCalLoad_cases h with ⟨-, rfl⟩ | ⟨-, -, rfl⟩ | ⟨-, -, W, -, rfl⟩
  · exact ⟨.calLocked, .calLoad 0 false _ (by decide)⟩
  · exact ⟨.invalidData, .calLoad 0 false _ (by decide)⟩
  · exact calDecode_raises he

theorem execCvtSubpage_raises {ap : AccessPattern} {res : BitVec 2} (h : execCvtSubpage ap res s = .next t)
    (he : t.err = true) : ∃ k, Raises s (.cvtSubpage ap res) k t := by
  rcases execCvtSubpage_cases h with ⟨-, rfl⟩ | ⟨c, -, ⟨-, rfl⟩ | ⟨-, st, -,
    ⟨-, rfl⟩ | ⟨-, -, rfl⟩ | ⟨-, -, -, rfl⟩ | ⟨-, -, -, hframe⟩⟩⟩
  · exact ⟨.noCalibration, .cvtSubpage _ _ _ (by decide)⟩
  · exact ⟨.invalidData, .cvtSubpage _ _ _ (by decide)⟩
  · exact ⟨.statusError, .cvtSubpage _ _ _ (by decide)⟩
  · cases he
  · exact ⟨.invalidData, .cvtSubpage _ _ _ (by decide)⟩
  · obtain ⟨x, out, -, -, rfl⟩ := convertFrame_cases hframe
    cases he

/-- A command that ends with ERR has raised an error of the table. -/
theorem exec_raises (h : exec i s = .next t) (he : t.err = true) : ∃ k, Raises s i k t := by
  cases i with
  | eccDec tag =>
    rcases execEccDec_cases h with ⟨S, -, rfl⟩ | ⟨p, cr, pos, S, -, rfl⟩
    · exact ⟨_, .eccDec tag _⟩
    · cases he
  | geoConst idx ap =>
    rcases execGeoConst_cases h with ⟨v, -, rfl⟩ | ⟨-, rfl⟩
    · cases he
    · exact ⟨_, .geoConst idx ap _⟩
  | calLoad => exact execCalLoad_raises h he
  | cvtSubpage ap res => exact execCvtSubpage_raises h he
  | sysNop | eccEnc | geoMember | geoRanges | geoRescorr | sysReset => cases h; cases he

/-- A write of CMD with a word that is no command (30_encoding.md R104). -/
theorem perform_writeCmd_error {w : Word} {r : Illegal} (hb : s.busy = false) (hd : decode w = .error r) :
    perform (.writeCsr 0 w) s = .next ((s.startCommand w).raiseError .illegalCommand (infoIllegal w)) := by
  simp only [perform_writeCmd hb, runCommand, hd]

/-! ## Each kind of the table occurs -/

/-- The command `i` ends with the error code `k` from some state. -/
def CanRaise (i : Instr) (k : BitVec 8) : Prop := ∃ s t, exec i s = .next t ∧ t.err = true ∧ t.errCode = k

theorem canRaise_of_failed {u : State} {k : BitVec 8} {info : Word} (h : exec i s = .next (failed u k info)) : CanRaise i k :=
  ⟨s, _, h, rfl, rfl⟩

/-- A double flip (95_test_vectors.md section 2.3). -/
theorem eccDec_canRaise (tag : Half) : CanRaise (.eccDec tag) 3 :=
  canRaise_of_failed
    ((Proofs.eccDecDecodesOneWord (fresh CheckedCfg.VT 0x35BD 0 0) tag).2.2 (by decide +kernel) (by decide +kernel))

/-- A double flip in word 12 of the toy image, under a record without the fallback. -/
theorem calLoad_canRaise_checksumError : CanRaise .calLoad 3 := by
  obtain ⟨j, w, S, hp⟩ := eccpass_fails double_flip_fails
  have hend := exec_calLoad loads_doubleFlip
  rw [calDecode_err hp rfl] at hend
  exact ⟨_, _, hend, rfl, rfl⟩

/-- The toy image with a corner temperature that does not rise (95_test_vectors.md section 5, case L16). -/
theorem calLoad_canRaise_configurationError : CanRaise .calLoad 4 := by
  obtain ⟨t, ht, he⟩ := next_of (o := exec .calLoad (withImage CheckedCfg.VT (toyWith 43 0x6819)))
    (f := fun t => decide (t.err = true ∧ t.errCode = 4)) (by decide +kernel)
  exact ⟨_, t, ht, of_decide_eq_true he⟩

theorem calLoad_canRaise : ∀ k ∈ [2#8, 3#8, 4#8, 7#8], CanRaise .calLoad k := by
  simp only [List.forall_mem_cons]
  refine ⟨?invalidData, calLoad_canRaise_checksumError, calLoad_canRaise_configurationError, ?calLocked, nofun⟩
  case invalidData => exact canRaise_of_failed (exec_calLoad_invalidData (s := State.reset) rfl (by decide))
  case calLocked => exact canRaise_of_failed (exec_calLoad_calLocked (s := ready 0x0008 8 4 0) rfl)

/-- Selector 18 is none of the table (95_test_vectors.md section 8, case E18). -/
theorem geoConst_canRaise (ap : AccessPattern) : CanRaise (.geoConst 18#16 ap) 8 :=
  canRaise_of_failed ((Proofs.geoConstTable State.reset 18#16 ap).2 (by decide))

/-- No CalibrationSet; a wrong OUTMEM length; a status word that names subpage 2. -/
theorem cvtSubpage_canRaise (ap : AccessPattern) (res : BitVec 2) : ∀ k ∈ [2#8, 5#8, 6#8], CanRaise (.cvtSubpage ap res) k := by
  simp only [List.forall_mem_cons]
  refine ⟨?invalidData, ?statusError, ?noCalibration, nofun⟩
  case invalidData => exact canRaise_of_failed (exec_cvtSubpage_outLength (s := ready 0x0008 7 4 0) ap res rfl (by decide))
  case statusError =>
    have hst : readCell (ready 0x000A 8 4 0).mem.raw 0 = some 0x000A#16 := by decide +kernel
    have hsp : (ready 0x000A 8 4 0).cfg.nsub ap ≤ statusSubpage 0x000A#16 := by cases ap <;> decide
    exact canRaise_of_failed (exec_cvtSubpage_statusError res rfl (by decide) hst hsp)
  case noCalibration => exact canRaise_of_failed (exec_cvtSubpage_noCalibration (s := State.reset) ap res rfl)

/-! ## ERR_STICKY -/

/-- A command but SYS.RESET sets ERR_STICKY with its error and else leaves it (60_exceptions.md R319). -/
theorem exec_errSticky (h : exec i s = .next t) (hr : i ≠ .sysReset) : t.errSticky = (s.errSticky || t.err) := by
  cases he : t.err with
  | false =>
    obtain ⟨-, -, hsticky⟩ := (exec_ran h).errorState hr he
    rw [hsticky, Bool.or_false]
  | true =>
    obtain ⟨k, hk⟩ := exec_raises h he
    rw [hk.errSticky, Bool.or_true]

theorem Accessed.errSticky (h : Accessed s t) : t.errSticky = s.errSticky := by
  cases h with
  | ignored | arg0 | arg1 | answered | cal | raw => rfl

/-- ERR_STICKY before a command has no part in the CORRCNT and the FALLBACK after it. -/
theorem exec_counts_of_errSticky {t' : State} {b : Bool} (h : exec i s = .next t)
    (h' : exec i { s with errSticky := b } = .next t') : t'.corrCnt = t.corrCnt ∧ t'.fallback = t.fallback := by
  by_cases hl : i = .calLoad
  · subst hl
    obtain ⟨u, hu, -, -, -, -, hn, hf, -⟩ :=
      Proofs.calLoadIsDeterministic.1 s { s with errSticky := b } t rfl rfl rfl rfl h
    cases h'.symm.trans hu
    exact ⟨hn, hf⟩
  by_cases hr : i = .sysReset
  · subst hr
    cases h
    cases h'
    exact ⟨rfl, rfl⟩
  have hran := exec_ran h
  have hran' := exec_ran h'
  refine ⟨?_, (hran'.calibration hl hr).2.trans (hran.calibration hl hr).2.symm⟩
  by_cases hd : ∃ tag, i = .eccDec tag
  · obtain ⟨tag, rfl⟩ := hd
    exact (eccDec_corrCnt h').trans (eccDec_corrCnt h).symm
  · have hd' : ∀ tag, i ≠ .eccDec tag := not_exists.1 hd
    exact (hran'.corrCnt hd' hl hr).trans (hran.corrCnt hd' hl hr).symm

/-- No command reads ERR_STICKY, and it alone can differ afterwards (60_exceptions.md R319). -/
theorem exec_ignoresErrSticky (h : exec i s = .next t) (b : Bool) :
    ∃ b', exec i { s with errSticky := b } = .next { t with errSticky := b' } := by
  obtain ⟨t', ht', b', f, n, rfl⟩ := exec_ignoresDiag i s t b s.fallback s.corrCnt h
  obtain ⟨hn, hf⟩ := exec_counts_of_errSticky (b := b) h ht'
  obtain rfl : n = t.corrCnt := hn
  obtain rfl : f = t.fallback := hf
  exact ⟨b', ht'⟩

end Sys2Proof.Machine

namespace Sys2Proof.Proofs

open Sys2Proof.Machine

/-- Settles O15: a command ends with an error, which sets ERR_STICKY, or leaves the error registers, and its other writes do not depend
on it. -/
theorem errStickyAccumulates : Obligations.ErrStickyAccumulates := by
  refine ⟨fun s w t hb h => ⟨fun hd => ?reset, fun hd => ?command⟩, fun s a t h hw hr => ?access, fun s t h => ?hardReset,
    fun i s t b h => ?unread⟩
  case reset =>
    rw [perform_sysReset hb hd] at h
    cases h
    rfl
  case command =>
    cases hi : decode w with
    | ok i =>
      rw [perform_writeCmd_ok hb hi] at h
      exact exec_errSticky (s := s.startCommand w) h fun hr => hd (hr ▸ hi)
    | error r =>
      rw [perform_writeCmd_error hb hi] at h
      cases h
      exact (Bool.or_true _).symm
  case access =>
    rcases perform_cases h with ⟨w, rfl, -, -⟩ | ⟨rfl, -⟩ | ha
    · exact absurd rfl (hw w)
    · exact absurd rfl hr
    · exact ha.errSticky
  case hardReset => cases h; rfl
  case unread =>
    obtain ⟨b', hb'⟩ := exec_ignoresErrSticky h b
    exact ⟨_, hb', rfl⟩

/-- Settles O55: an error is one `raiseError`, and only ECC.DEC and CAL.LOAD write anything before it. -/
theorem errorsArePrecise : Obligations.ErrorsArePrecise := by
  intro i s t h he
  obtain ⟨k, hk⟩ := exec_raises h he
  cases hk with
  | eccDec tag info => exact ⟨rfl, fun _ => rfl, fun _ hd => absurd rfl (hd tag), fun _ => rfl⟩
  | calLoad n f info => exact ⟨rfl, fun hl => absurd rfl hl, fun hl => absurd rfl hl, nofun⟩
  | geoConst | cvtSubpage => exact ⟨rfl, fun _ => rfl, fun _ _ => rfl, nofun⟩

/-- Settles O56: by the table of the kinds that each command raises, and a state for each of its entries. -/
theorem whichCommandRaisesWhich : Obligations.WhichCommandRaisesWhich := by
  refine ⟨fun i s t h he => ?only, fun s w r hb hd => ⟨_, perform_writeCmd_error hb hd, rfl, rfl⟩, eccDec_canRaise,
    calLoad_canRaise, fun ap => ⟨_, geoConst_canRaise ap⟩, cvtSubpage_canRaise⟩
  obtain ⟨k, hk⟩ := exec_raises h he
  rw [hk.errCode]
  clear h he
  cases hk with
  | eccDec tag => exact .inl ⟨⟨tag, rfl⟩, rfl⟩
  | calLoad n f info hk =>
    refine .inr (.inl ⟨rfl, ?_⟩)
    revert k
    decide
  | geoConst idx ap => exact .inr (.inr (.inl ⟨⟨idx, ap, rfl⟩, rfl⟩))
  | cvtSubpage ap res info hk =>
    refine .inr (.inr (.inr ⟨⟨ap, res, rfl⟩, ?_⟩))
    revert k
    decide

end Sys2Proof.Proofs
end
